-- ==== Sys2Proof/Word.lean ====
section
/-! DEFINITION. The words and bytes of `00_scope.md` R12: a word is 32 bits, a byte 8 bits, bit 0 the least
significant; and the eight data bytes of a Frame (`10_state.md` R22). -/

namespace Sys2Proof

/-- A word, `u32` (`00_scope.md` R12). -/
abbrev Word := BitVec 32

/-- A byte, `u8` (`00_scope.md` R12). -/
abbrev Byte := BitVec 8

/-- The type `[u8;8]` of `10_state.md` R22: eight bytes indexed 0 to 7. -/
structure Bytes8 where
  b0 : Byte
  b1 : Byte
  b2 : Byte
  b3 : Byte
  b4 : Byte
  b5 : Byte
  b6 : Byte
  b7 : Byte
deriving DecidableEq, Repr

/-- Byte `i`, for `i` in 0 to 7; there is no other index (an index above 7 reads 0, as every byte beyond a
Frame's length does, `40_frame.md` R135). -/
def Bytes8.get (d : Bytes8) : Nat → Byte
  | 0 => d.b0
  | 1 => d.b1
  | 2 => d.b2
  | 3 => d.b3
  | 4 => d.b4
  | 5 => d.b5
  | 6 => d.b6
  | 7 => d.b7
  | _ => 0

/-- The eight bytes `f 0` to `f 7`: the loop `for i in 0..7` of the Frame rules. -/
def Bytes8.ofFn (f : Nat → Byte) : Bytes8 :=
  { b0 := f 0, b1 := f 1, b2 := f 2, b3 := f 3, b4 := f 4, b5 := f 5, b6 := f 6, b7 := f 7 }

/-- Eight zero bytes. -/
def Bytes8.zero : Bytes8 := Bytes8.ofFn fun _ => 0

end Sys2Proof
end

