-- ==== Sys2Proof/Syntax.lean ====
section
/-! DEFINITION. The operations of the block as syntax: the values an operation takes as operands
(`30_encoding.md` R93) and one constructor per row of the command table (`30_encoding.md` R91). -/

namespace Sys2Proof

/-- A Frame (`10_state.md` R22): `id : u32`, `length : u8`, `data : [u8;8]`, `is_extended`, and the optional
receive time, an unsigned integer on which no arithmetic is done (`30_encoding.md` R113 (h)). What every Frame
that exists satisfies (R23) is `Frame.wf`. -/
structure Frame where
  id         : Word
  length     : Byte
  data       : Bytes8
  isExtended : Bool
  timestamp  : Option Nat
deriving DecidableEq, Repr

/-- The operand form "a Frame" (`30_encoding.md` R93): a Frame given by value, or the `n`-th of the Frames the
callers hold (`10_state.md` R20). -/
inductive FrameRef where
  | given (f : Frame)
  | held (n : Nat)
deriving DecidableEq, Repr

/-- A value of the element type `T` of a container, which the spec leaves OPEN but for being copyable
(`00_scope.md` R6): a Frame, or any other copyable value as its bytes. -/
inductive Value where
  | frame (f : Frame)
  | bytes (l : List Byte)
deriving DecidableEq, Repr

/-- The operand form "a value of `T`": bytes, or a Frame in one of the forms above. -/
inductive ValueRef where
  | bytes (l : List Byte)
  | frame (r : FrameRef)
deriving DecidableEq, Repr

/-- The operand form "a reference to a caller buffer": `size` writable bytes of caller memory from address `base`
(`20_memory.md` R63, `40_frame.md` R138). -/
structure Buffer where
  base : Nat
  size : Nat
deriving DecidableEq, Repr

/-- The operand `filter` of `CHAN.INIT` (`45_channel.md` R272). -/
inductive Filter where
  | all
  | list (ids : List Word) (ext : Bool)
deriving DecidableEq, Repr

/-- The operations of the block, one constructor per row of the command table (`30_encoding.md` R91). An instance
operand is the number of a LatestValueSlot, BoundedRing, Transceiver or Channel; a `baud` is the index of a member
of the enumeration `BAUD`. -/
inductive Instr where
  | frameNew (id : Word) (length : Byte) (d : Bytes8) (isExtended : Bool)
  | frameFromRx (h0 h1 dl dh : Word)
  | frameTxhdr (f : FrameRef)
  | frameHex (f : FrameRef) (buf : Buffer)
  | frameSetts (f : FrameRef) (t : Nat)
  | lvsPush (l : Nat) (v : ValueRef)
  | lvsPop (l : Nat)
  | lvsRead (l : Nat)
  | ringPush (r : Nat) (v : ValueRef)
  | ringPop (r : Nat)
  | ringPeek (r : Nat)
  | ringRead (r : Nat)
  | xcvrInit (x : Nat) (baud : Nat) (extended : Bool)
  | xcvrStart (x : Nat)
  | xcvrStop (x : Nat)
  | xcvrFilterAll (x : Nat)
  | xcvrFilterList (x : Nat) (ids : List Word) (extended : Bool)
  | xcvrSend (x : Nat) (f : FrameRef)
  | xcvrReceive (x : Nat) (fifo : Nat)
  | xcvrTxieOn (x : Nat)
  | xcvrTxieOff (x : Nat)
  | chanInit (c : Nat) (baud : Nat) (extended : Bool) (filter : Filter)
  | chanStart (c : Nat)
  | chanSend (c : Nat) (f : FrameRef)
  | chanTxDrain (c : Nat)
  | chanReceive (c : Nat)
deriving DecidableEq, Repr

/-- The zero Frame: standard identifier 0, no payload, no timestamp. -/
def Frame.zero : Frame := { id := 0, length := 0, data := Bytes8.zero, isExtended := false, timestamp := none }

/-- The operands that stand beside a command code, by name (`30_encoding.md` R93: "The code carries no operand:
operands are passed by name beside it", R90). An operation reads the fields its rule names and no other. -/
structure Operands where
  inst     : Nat
  id       : Word
  length   : Byte
  data     : Bytes8
  extended : Bool
  h0       : Word
  h1       : Word
  dl       : Word
  dh       : Word
  frame    : FrameRef
  buf      : Buffer
  time     : Nat
  value    : ValueRef
  baud     : Nat
  ids      : List Word
  fifo     : Nat
  filter   : Filter
deriving DecidableEq, Repr

/-- Operands of zeros: instance 0, zero words, the zero Frame, no identifiers, the filter `All`; and a caller
buffer of 17 bytes, which "always suffice" (`70_reset_and_hazards.md` R353). DESIGN CHOICE, log entry 3. -/
def Operands.zeros : Operands :=
  { inst := 0, id := 0, length := 0, data := Bytes8.zero, extended := false, h0 := 0, h1 := 0, dl := 0, dh := 0,
    frame := .given Frame.zero, buf := { base := 0, size := 17 }, time := 0, value := .bytes [], baud := 0,
    ids := [], fifo := 0, filter := .all }

end Sys2Proof
end

