-- ==== Sys2Proof/Config.lean ====
section
/-! DEFINITION. The configuration record of `00_scope.md` R5 to R9, and the free values of the environment's
draws (`00_scope.md` R11). A configuration is plain data inside State, so a statement about every state holds for
every configuration. -/

namespace Sys2Proof

/-- `FAMILY` (`00_scope.md` R5). -/
inductive Family where
  | classic
  | flexible
deriving DecidableEq, Repr

/-- `LVS_ATOMICITY` (`41_latest_value_slot.md` R168). -/
inductive LvsAtomicity where
  | fused
  | split
deriving DecidableEq, Repr

/-- `TX_IRQ_KIND` (`60_exceptions.md` R307). -/
inductive TxIrqKind where
  | completionEvent
  | slotFreeLevel
deriving DecidableEq, Repr

/-- `RX_OVERRUN`, of which the spec defines one value (`43_transceiver.md` R215). -/
inductive RxOverrun where
  | dropNewest
deriving DecidableEq, Repr

/-- The two software contexts (`00_scope.md` R10, `60_exceptions.md` R315). -/
inductive Ctx where
  | main
  | isr
deriving DecidableEq, Repr

/-- The producer and the consumer of a container, "fixed for its lifetime" (`41_latest_value_slot.md` R167,
`42_bounded_ring.md` R187). -/
structure Roles where
  producer : Ctx
  consumer : Ctx
deriving DecidableEq, Repr

/-- The parameters that take a value per family (`00_scope.md` R7, R8). `prescaler` has one entry per member of
`BAUD`, by index; `none` is a rate the family does not support. -/
structure FamilyParams where
  bankCount         : Nat
  idsStandard       : Nat
  idsExtended       : Nat
  txSlots           : Nat
  rxFifos           : Nat
  rxFifoDepth       : Nat
  filterFifo        : Nat
  clearLockBeforeTx : Bool
  prescaler         : List (Option Nat)
  seg1              : Nat
  seg2              : Nat
deriving DecidableEq, Repr

/-- One BoundedRing instance: its `N` and its two agents. -/
structure RingConfig where
  n     : Nat
  roles : Roles
deriving DecidableEq, Repr

/-- One Channel: its Transceiver, `CHANNEL_FIFO`, `RETRY_N`, and the one context the application sends from
(`10_state.md` R42, `45_channel.md` R274, R279; log entry 9). -/
structure ChanConfig where
  xcvr   : Nat
  fifo   : Nat
  retryN : Nat
  sender : Ctx
deriving DecidableEq, Repr

/-- The two agents of a Channel's retry ring: the sender pushes (`45_channel.md` R274), the TX hook drains (R275,
"Invoked only from the transmit-complete interrupt context"). -/
def ChanConfig.retryRoles (k : ChanConfig) : Roles := { producer := k.sender, consumer := .isr }

/-- The configuration record. `rates` are the members of `BAUD`, by index, that the build selects: the rates its
software names in `XCVR.INIT` and `CHAN.INIT` (`00_scope.md` R8; log entry 39). -/
structure Config where
  family       : Family
  classic      : FamilyParams
  flexible     : FamilyParams
  tsWidth      : Nat
  lvsAtomicity : LvsAtomicity
  txIrqKind    : TxIrqKind
  rxOverrun    : RxOverrun
  rates        : List Nat
  lvs          : List Roles
  rings        : List RingConfig
  xcvrs        : Nat
  chans        : List ChanConfig
deriving DecidableEq, Repr

/-- The parameters of the compiled family ("A given compiled binary supports exactly one family", R5). -/
def Config.params (c : Config) : FamilyParams :=
  match c.family with
  | .classic => c.classic
  | .flexible => c.flexible

/-- `IDS_PER_BANK(extended)` (`00_scope.md` R7). -/
def FamilyParams.idsPerBank (p : FamilyParams) (extended : Bool) : Nat :=
  if extended then p.idsExtended else p.idsStandard

/-- `S`, the number of filter slots a bank is given in `XC_FBANK` (`10_state.md` R37). -/
def FamilyParams.slotsPerBank (p : FamilyParams) : Nat := max p.idsStandard p.idsExtended

/-- `PRESCALER(FAMILY, baud)` (`00_scope.md` R8): `none` for an index outside `BAUD` and for a rate without a
table entry. -/
def FamilyParams.prescalerOf (p : FamilyParams) (baud : Nat) : Option Nat := (p.prescaler[baud]?).join

/-- A rate the compiled family supports: a `BAUD` member with a table entry (`00_scope.md` R8). -/
def Config.supports (c : Config) (baud : Nat) : Bool := (c.params.prescalerOf baud).isSome

/-- The free value of a draw of `hw_ok` for which the environment has supplied none (`43_transceiver.md` R202). -/
opaque Config.freeHwOk : Nat → Bool

/-- The free value of a draw of `now` for which the environment has supplied none (`40_frame.md` R139). -/
opaque Config.freeNow : Nat → Nat

/-- The parameters of the configuration of `State.reset`, the same for both families: the source's only filter
geometry (14 banks of 4 standard identifiers), the test vectors' other values, four rates with values 0.
DESIGN CHOICE, log entry 1. -/
def FamilyParams.sample : FamilyParams :=
  { bankCount := 14, idsStandard := 4, idsExtended := 2, txSlots := 3, rxFifos := 2, rxFifoDepth := 3,
    filterFifo := 0, clearLockBeforeTx := false, prescaler := [some 0, some 0, some 0, some 0], seg1 := 0,
    seg2 := 0 }

/-- The configuration of `State.reset`: the spec's defaults where it gives one, the source's instance where it
gives one. DESIGN CHOICE, log entry 1. -/
def Config.sample : Config :=
  { family := .classic, classic := FamilyParams.sample, flexible := FamilyParams.sample, tsWidth := 32,
    lvsAtomicity := .fused, txIrqKind := .completionEvent, rxOverrun := .dropNewest, rates := [0, 1, 2, 3],
    lvs := [{ producer := .isr, consumer := .main }],
    rings := [{ n := 4, roles := { producer := .main, consumer := .isr } }], xcvrs := 1,
    chans := [{ xcvr := 0, fifo := 0, retryN := 4, sender := .main }] }

end Sys2Proof
end

