-- ==== Sys2Proof/WellFormed.lean ====
section
/-! DEFINITION. What is checked before a step: that the configuration record is well formed (`92_eei_decisions.md`
D51, `00_scope.md` R8), and that an operation's operands name instances that exist and supported rates
(`30_encoding.md` R93). What every Frame that exists satisfies (`10_state.md` R23) is here too. -/

namespace Sys2Proof

/-- The bounds of `92_eei_decisions.md` D51 on the compiled family's parameters; `XC_BTR` and `XC_CTRL.BAUD` hold
every value (`10_state.md` R35, D29). The tests are joined from the right, so that a stuck one is met at once. -/
def FamilyParams.wf (p : FamilyParams) : Bool :=
  decide (1 ≤ p.bankCount) && (decide (p.bankCount ≤ 255) && (decide (1 ≤ p.idsStandard) &&
  (decide (1 ≤ p.idsExtended) && (decide (1 ≤ p.txSlots) && (decide (p.txSlots ≤ 32) && (decide (1 ≤ p.rxFifos) &&
  (decide (1 ≤ p.rxFifoDepth) && (decide (p.filterFifo < p.rxFifos) && (decide (p.prescaler.length ≤ 256) &&
  (p.prescaler.all (fun e => e.all fun v => decide (v < 65536)) &&
  (decide (p.seg1 < 256) && decide (p.seg2 < 256))))))))))))

/-- "One agent ... is the producer ...; one other agent is the consumer" (`42_bounded_ring.md` R187; "different
execution contexts", `41_latest_value_slot.md` R167). -/
def Roles.wf (r : Roles) : Bool := decide (r.producer ≠ r.consumer)

/-- A BoundedRing of a well-formed configuration. -/
def RingConfig.wf (r : RingConfig) : Bool := decide (2 ≤ r.n) && r.roles.wf

/-- A Channel of a well-formed configuration: it owns a Transceiver that exists, its FIFO exists, its ring can hold
an element and has two different agents, so that the sender is not the ISR context (`42_bounded_ring.md` R187). -/
def ChanConfig.wf (c : Config) (k : ChanConfig) : Bool :=
  decide (k.xcvr < c.xcvrs) && (decide (k.fifo < c.params.rxFifos) && (decide (2 ≤ k.retryN) && k.retryRoles.wf))

/-- A rate is selected, and every selected rate has an entry in the compiled family's table: "Selecting an unsupported
rate for the compiled family is a build-time configuration error, not a runtime one" (`00_scope.md` R8,
`44_transceiver_families.md` R257, `60_exceptions.md` R303). -/
def Config.ratesOk (c : Config) : Bool := !c.rates.isEmpty && c.rates.all c.supports

/-- A well-formed configuration record (`92_eei_decisions.md` D51); "at most one Channel owns a Transceiver"
(`10_state.md` R41). -/
def Config.wf (c : Config) : Bool :=
  c.params.wf && (c.ratesOk && (c.lvs.all Roles.wf && (c.rings.all RingConfig.wf && (c.chans.all (ChanConfig.wf c) &&
  decide (c.chans.map (·.xcvr)).Nodup))))

/-- What every Frame that exists satisfies (`10_state.md` R22, R23): the identifier fits its kind, the length is at
most 8, the bytes beyond the length are zero, a timestamp fits `TS_WIDTH`. -/
def Frame.wf (c : Config) (f : Frame) : Bool :=
  decide (f.id.toNat < if f.isExtended then 2 ^ 29 else 2 ^ 11) && decide (f.length.toNat ≤ 8) &&
  (List.range 8).all (fun i => decide (i < f.length.toNat) || f.data.get i == 0) &&
  f.timestamp.all fun t => decide (t < 2 ^ c.tsWidth)

/-- A container value is well formed when the Frame it may be is. -/
def Value.wf (c : Config) : Value → Bool
  | .frame f => f.wf c
  | .bytes _ => true

/-- The operands of an operation name instances that exist and rates that are supported (`30_encoding.md` R93); every
other operand value is accepted. -/
def Instr.wf (c : Config) : Instr → Bool
  | .frameNew _ _ _ _ => true
  | .frameFromRx _ _ _ _ => true
  | .frameTxhdr _ => true
  | .frameHex _ _ => true
  | .frameSetts _ _ => true
  | .lvsPush l _ => decide (l < c.lvs.length)
  | .lvsPop l => decide (l < c.lvs.length)
  | .lvsRead l => decide (l < c.lvs.length)
  | .ringPush r _ => decide (r < c.rings.length)
  | .ringPop r => decide (r < c.rings.length)
  | .ringPeek r => decide (r < c.rings.length)
  | .ringRead r => decide (r < c.rings.length)
  | .xcvrInit x b _ => decide (x < c.xcvrs) && c.supports b
  | .xcvrStart x => decide (x < c.xcvrs)
  | .xcvrStop x => decide (x < c.xcvrs)
  | .xcvrFilterAll x => decide (x < c.xcvrs)
  | .xcvrFilterList x _ _ => decide (x < c.xcvrs)
  | .xcvrSend x _ => decide (x < c.xcvrs)
  | .xcvrReceive x _ => decide (x < c.xcvrs)
  | .xcvrTxieOn x => decide (x < c.xcvrs)
  | .xcvrTxieOff x => decide (x < c.xcvrs)
  | .chanInit k b _ _ => decide (k < c.chans.length) && c.supports b
  | .chanStart k => decide (k < c.chans.length)
  | .chanSend k _ => decide (k < c.chans.length)
  | .chanTxDrain k => decide (k < c.chans.length)
  | .chanReceive k => decide (k < c.chans.length)

end Sys2Proof
end

