-- ==== Sys2Proof/Decode.lean ====
section
/-! DEFINITION. Decoding a command: the format `CMD8` and the command code table of `30_encoding.md` R90 to R92, and
the encoder written from the same table. A command is one byte; its operands stand beside it by name (R93). -/

namespace Sys2Proof

/-- Why no operation is selected. -/
inductive DecodeError where
  /-- One of the 230 codes without a row (`30_encoding.md` R92). -/
  | unassignedCode
  /-- No byte at all is presented. -/
  | noCommand
deriving DecidableEq, Repr

/-- Unit 0, Frame (`30_encoding.md` R91). -/
def decodeFrame (o : Operands) : Nat → Except DecodeError Instr
  | 0x0 => .ok (.frameNew o.id o.length o.data o.extended)
  | 0x1 => .ok (.frameFromRx o.h0 o.h1 o.dl o.dh)
  | 0x2 => .ok (.frameTxhdr o.frame)
  | 0x3 => .ok (.frameHex o.frame o.buf)
  | 0x4 => .ok (.frameSetts o.frame o.time)
  | _ => .error .unassignedCode

/-- Unit 1, LatestValueSlot (`30_encoding.md` R91). -/
def decodeLvs (o : Operands) : Nat → Except DecodeError Instr
  | 0x0 => .ok (.lvsPush o.inst o.value)
  | 0x1 => .ok (.lvsPop o.inst)
  | 0x2 => .ok (.lvsRead o.inst)
  | _ => .error .unassignedCode

/-- Unit 2, BoundedRing (`30_encoding.md` R91). -/
def decodeRing (o : Operands) : Nat → Except DecodeError Instr
  | 0x0 => .ok (.ringPush o.inst o.value)
  | 0x1 => .ok (.ringPop o.inst)
  | 0x2 => .ok (.ringPeek o.inst)
  | 0x3 => .ok (.ringRead o.inst)
  | _ => .error .unassignedCode

/-- Unit 3, Transceiver (`30_encoding.md` R91). -/
def decodeXcvr (o : Operands) : Nat → Except DecodeError Instr
  | 0x0 => .ok (.xcvrInit o.inst o.baud o.extended)
  | 0x1 => .ok (.xcvrStart o.inst)
  | 0x2 => .ok (.xcvrStop o.inst)
  | 0x3 => .ok (.xcvrFilterAll o.inst)
  | 0x4 => .ok (.xcvrFilterList o.inst o.ids o.extended)
  | 0x5 => .ok (.xcvrSend o.inst o.frame)
  | 0x6 => .ok (.xcvrReceive o.inst o.fifo)
  | 0x7 => .ok (.xcvrTxieOn o.inst)
  | 0x8 => .ok (.xcvrTxieOff o.inst)
  | _ => .error .unassignedCode

/-- Unit 4, Channel (`30_encoding.md` R91). -/
def decodeChan (o : Operands) : Nat → Except DecodeError Instr
  | 0x0 => .ok (.chanInit o.inst o.baud o.extended o.filter)
  | 0x1 => .ok (.chanStart o.inst)
  | 0x2 => .ok (.chanSend o.inst o.frame)
  | 0x3 => .ok (.chanTxDrain o.inst)
  | 0x4 => .ok (.chanReceive o.inst)
  | _ => .error .unassignedCode

/-- `CMD8` (`30_encoding.md` R90): `c[7:4]` is the unit, `c[3:0]` the operation within the unit. -/
def decode (code : Byte) (o : Operands) : Except DecodeError Instr :=
  let op := (code.extractLsb' 0 4).toNat
  match (code.extractLsb' 4 4).toNat with
  | 0 => decodeFrame o op
  | 1 => decodeLvs o op
  | 2 => decodeRing o op
  | 3 => decodeXcvr o op
  | 4 => decodeChan o op
  | _ => .error .unassignedCode

/-- Decoding from a list of bytes: a command is its first byte, the rest is handed back ("one format, one length
(8 bits)", `30_encoding.md` R90). -/
def decodeBytes (l : List Byte) (o : Operands) : Except DecodeError (Instr × List Byte) :=
  match l with
  | [] => .error .noCommand
  | code :: rest =>
    match decode code o with
    | .ok i => .ok (i, rest)
    | .error e => .error e

/-- The encoder: the command code of the table (`30_encoding.md` R91) and the operands by name. -/
def encode : Instr → Byte × Operands
  | .frameNew id len d ext =>
    (0x00, { Operands.zeros with id := id, length := len, data := d, extended := ext })
  | .frameFromRx h0 h1 dl dh => (0x01, { Operands.zeros with h0 := h0, h1 := h1, dl := dl, dh := dh })
  | .frameTxhdr f => (0x02, { Operands.zeros with frame := f })
  | .frameHex f b => (0x03, { Operands.zeros with frame := f, buf := b })
  | .frameSetts f t => (0x04, { Operands.zeros with frame := f, time := t })
  | .lvsPush l v => (0x10, { Operands.zeros with inst := l, value := v })
  | .lvsPop l => (0x11, { Operands.zeros with inst := l })
  | .lvsRead l => (0x12, { Operands.zeros with inst := l })
  | .ringPush r v => (0x20, { Operands.zeros with inst := r, value := v })
  | .ringPop r => (0x21, { Operands.zeros with inst := r })
  | .ringPeek r => (0x22, { Operands.zeros with inst := r })
  | .ringRead r => (0x23, { Operands.zeros with inst := r })
  | .xcvrInit x b ext => (0x30, { Operands.zeros with inst := x, baud := b, extended := ext })
  | .xcvrStart x => (0x31, { Operands.zeros with inst := x })
  | .xcvrStop x => (0x32, { Operands.zeros with inst := x })
  | .xcvrFilterAll x => (0x33, { Operands.zeros with inst := x })
  | .xcvrFilterList x ids ext => (0x34, { Operands.zeros with inst := x, ids := ids, extended := ext })
  | .xcvrSend x f => (0x35, { Operands.zeros with inst := x, frame := f })
  | .xcvrReceive x n => (0x36, { Operands.zeros with inst := x, fifo := n })
  | .xcvrTxieOn x => (0x37, { Operands.zeros with inst := x })
  | .xcvrTxieOff x => (0x38, { Operands.zeros with inst := x })
  | .chanInit k b ext fl => (0x40, { Operands.zeros with inst := k, baud := b, extended := ext, filter := fl })
  | .chanStart k => (0x41, { Operands.zeros with inst := k })
  | .chanSend k f => (0x42, { Operands.zeros with inst := k, frame := f })
  | .chanTxDrain k => (0x43, { Operands.zeros with inst := k })
  | .chanReceive k => (0x44, { Operands.zeros with inst := k })

/-- The bytes of a table word: `n` bytes, the first from bits 7 to 0. -/
def tableBytes : Nat → Nat → List Byte
  | 0, _ => []
  | n + 1, w => BitVec.ofNat 8 w :: tableBytes n (w / 256)

/-- The instruction the decoder reads from a table word of `nbits` bits, with operands of zeros. -/
def decodeTableWord (nbits w : Nat) : Option Instr :=
  match decodeBytes (tableBytes (nbits / 8) w) Operands.zeros with
  | .ok (i, _) => some i
  | .error _ => none

end Sys2Proof
end

