-- ==== Sys2Proof/Machine/State.lean ====
section
/-! DEFINITION. The state of the block (`10_state.md`), its reset values (`10_state.md` R47), and the reasons a
step can end in a refusal (`00_scope.md` R11). State is plain data. -/

namespace Sys2Proof.Machine

/-- `Status` (`60_exceptions.md` R301). -/
inductive Status where
  | ok
  | empty
  | full
  | error
deriving DecidableEq, Repr

/-- `XC_CTRL.LIFECYCLE` (`10_state.md` R33); values 5 to 7 never occur (`30_encoding.md` R111). -/
inductive Lifecycle where
  | uninit
  | initialized
  | filterConfigured
  | running
  | failed
deriving DecidableEq, Repr

/-- `CH_STATE` (`10_state.md` R42). -/
inductive ChState where
  | uninitialized
  | filterConfigured
  | running
  | failed
deriving DecidableEq, Repr

/-- A fault. The block has none: "No operation of the block raises an exception, aborts, or unwinds"
(`60_exceptions.md` R300), so there is no constructor and no step answers `fault`. Log entry 4. -/
inductive Fault where
deriving DecidableEq, Repr

/-- The reasons of a refusal (`00_scope.md` R11: "the source gives the operation no meaning in the state or for the
operands at hand"). Each is safe: the run ends where the spec says nothing about it. Log entry 4. -/
inductive Refusal where
  /-- An instruction without a meaning in this model, by its mnemonic; raised by `exec` only. Safe. -/
  | notModelled (mnemonic : String)
  /-- One of the 230 unassigned command codes (`30_encoding.md` R92); raised by the fetch of a command. Safe. -/
  | unassignedCode
  /-- `FRAME.HEX` with a buffer below `2*length+1` bytes (`40_frame.md` R138). Safe. -/
  | hexBufferTooSmall
  /-- `FRAME.SETTS` on a Frame that has a timestamp (`40_frame.md` R139). Safe. -/
  | timestampAlreadySet
  /-- `LVS.READ` of an unwritten cell (`41_latest_value_slot.md` R163). Safe. -/
  | readBeforePop
  /-- `RING.READ` with nothing staged (`42_bounded_ring.md` R184). Safe. -/
  | readBeforeStage
  /-- A container operation by an agent not fixed for its role (`41_latest_value_slot.md` R167,
  `42_bounded_ring.md` R187, `45_channel.md` R274, R275). Safe. -/
  | spscViolation
  /-- `XCVR.INIT` a second time (`43_transceiver.md` R201). Safe. -/
  | initTwice
  /-- A filter, start or interrupt-enable operation before `XCVR.INIT` (`43_transceiver.md` R201). Safe. -/
  | notInitialised
  /-- A filter operation while running (`43_transceiver.md` R201). Safe. -/
  | filterWhileRunning
  /-- `XCVR.START` before any filter operation (`43_transceiver.md` R201). Safe. -/
  | startBeforeFilter
  /-- `XCVR.START` while running (`43_transceiver.md` R201). Safe. -/
  | alreadyRunning
  /-- `XCVR.STOP`, `XCVR.SEND` or `XCVR.RECEIVE` while not running (`43_transceiver.md` R201). Safe. -/
  | notRunning
  /-- `XCVR.RECEIVE` of a FIFO that does not exist (`43_transceiver.md` R211). Safe. -/
  | badFifoSelector
  /-- `CHAN.INIT` a second time (`45_channel.md` R271). Safe. -/
  | channelInitTwice
  /-- `CHAN.START` before `CHAN.INIT` (`45_channel.md` R271). Safe. -/
  | channelNotInitialised
  /-- `CHAN.START` while running (`45_channel.md` R271). Safe. -/
  | channelAlreadyRunning
  /-- `CHAN.SEND`, `CHAN.TX_DRAIN` or `CHAN.RECEIVE` before `CHAN.START` (`45_channel.md` R271). Safe. -/
  | channelNotRunning
  /-- An operand that names nothing: an instance or a held Frame that does not exist, or a number that is no supported
  bit rate. "The source gives the operation no meaning ... for the operands at hand" (`00_scope.md` R11): an operand
  is a reference to an instance, a Frame, a `BAUD` member (`30_encoding.md` R93, `10_state.md` R20), and an unsupported
  rate has "no runtime path" (`00_scope.md` R8, U8). Raised by a fetch and by the meanings. Safe. Log entry 21. -/
  | noSuchOperand
  /-- A configuration record that is not well formed (`92_eei_decisions.md` D51): rejected before any step. Safe.
  Log entry 22. -/
  | illFormedConfig
deriving DecidableEq, Repr

/-- An element: a frame in a transmit slot or a receive FIFO (`30_encoding.md` R95). -/
structure Element where
  h0 : Word
  h1 : Word
  dl : Word
  dh : Word
deriving DecidableEq, Repr

/-- `XC_CTRL` by its fields (`10_state.md` R33); the word is `XcCtrl.word`. -/
structure XcCtrl where
  lifecycle : Lifecycle
  ext       : Bool
  txie      : Bool
  rxie      : Bool
  abor      : Bool
  art       : Bool
  lock      : Bool
  baud      : BitVec 8
deriving DecidableEq, Repr

/-- `XC_STAT` by its fields (`10_state.md` R34); the word is `XcStat.word`. -/
structure XcStat where
  fault : Bool
  txc   : Bool
deriving DecidableEq, Repr

/-- `XC_BTR` by its fields (`10_state.md` R35); the word is `XcBtr.word`. -/
structure XcBtr where
  prescaler : BitVec 16
  seg1      : BitVec 8
  seg2      : BitVec 8
deriving DecidableEq, Repr

/-- `XC_FCTRL` by its fields (`10_state.md` R36); the word is `XcFctrl.word`. -/
structure XcFctrl where
  acceptAll : Bool
  banksUsed : BitVec 8
  nbanks    : BitVec 8
deriving DecidableEq, Repr

/-- One filter slot `XC_FBANK[b][s]` by its fields (`10_state.md` R37); the word is `FSlot.word`. -/
structure FSlot where
  valid : Bool
  ext   : Bool
  id    : BitVec 29
deriving DecidableEq, Repr

/-- One record of the wire log: the four wire-level fields (`10_state.md` R44, `43_transceiver.md` R214). -/
structure WireRecord where
  id         : Word
  isExtended : Bool
  length     : Byte
  data       : List Byte
deriving DecidableEq, Repr

/-- The register file of one Transceiver (`10_state.md` R32 to R39) and its wire log (R44, log entry 20). -/
structure Xcvr where
  ctrl   : XcCtrl
  stat   : XcStat
  btr    : XcBtr
  fctrl  : XcFctrl
  fbank  : List (List FSlot)
  txpend : Word
  tx     : List Element
  rxfifo : List (List Element)
  wireTx : List WireRecord
deriving DecidableEq, Repr

/-- The three cells of a LatestValueSlot; `none` is `unwritten` (`10_state.md` R25). -/
structure Cells3 (α : Type) where
  c0 : Option α
  c1 : Option α
  c2 : Option α
deriving DecidableEq, Repr

/-- A LatestValueSlot (`10_state.md` R25 to R28). -/
structure Lvs (α : Type) where
  cells     : Cells3 α
  producing : Fin 3
  transfer  : Fin 3
  consuming : Fin 3
  stale     : Bool
  roles     : Roles
deriving DecidableEq, Repr

/-- A BoundedRing (`10_state.md` R29 to R31) of `n` cells; a cell `none` is `unwritten`. An index outside `[0, n)`
cannot be written down (`30_encoding.md` R111). -/
structure Ring (α : Type) where
  n      : Nat
  cells  : Vector (Option α) n
  front  : Fin n
  back   : Fin n
  staged : Option α
  roles  : Roles
deriving DecidableEq, Repr

/-- A Channel (`10_state.md` R42, R43). -/
structure Chan where
  state     : ChState
  xcvr      : Nat
  fifo      : Nat
  retry     : Ring Frame
  dropCount : Nat
deriving DecidableEq, Repr

/-- What an operation returns to its caller (`00_scope.md` R11, `30_encoding.md` R93). `received` is the result
`(Status, Frame)`, whose Frame is present only with `Ok` (`93_implementation_defined.md` U17). -/
inductive OpResult where
  | nothing
  | status (s : Status)
  | bool (b : Bool)
  | value (v : Value)
  | frame (f : Frame)
  | header (h0 h1 : Word)
  | received (s : Status) (f : Option Frame)
deriving DecidableEq, Repr

/-- Where a LatestValueSlot operation stands between its steps (`41_latest_value_slot.md` R161, R162, R168). A cell
write is two steps, its start and its end (`20_memory.md` R68; log entry 29). -/
inductive LvsTask (α : Type) where
  | pushOpen (v : α)
  | pushWrite (v : α)
  | pushSwap
  | pushFlag
  | popTest
  | popSwap
  | popFlag
deriving DecidableEq, Repr

/-- Where a BoundedRing operation stands between its steps (`42_bounded_ring.md` R181 to R183), with its locals `f`,
`b`, `nb`. A cell write is two steps, its start and its end (`20_memory.md` R68; log entry 29). -/
inductive RingTask (α : Type) where
  | pushFront (v : α)
  | pushBack (v : α) (f : Nat)
  | pushOpen (v : α) (b nb : Nat)
  | pushWrite (v : α) (b nb : Nat)
  | pushPublish (nb : Nat)
  | popFront
  | popBack (f : Nat)
  | popStage (f : Nat)
  | popPublish (f : Nat)
  | peekFront
  | peekBack (f : Nat)
  | peekStage (f : Nat)
deriving DecidableEq, Repr

/-- An operation a context is part-way through: what its next step does (`20_memory.md` R68, R70; the steps of the
Channel operations, `45_channel.md` R272 to R276). `whole` is an operation that is one step. The two lines of
`LVS.READ` and of `RING.READ` (`41_latest_value_slot.md` R163, `42_bounded_ring.md` R184) are `Test`, the refusal,
and `Take`, the return. `hex` has the bytes that `FRAME.HEX` has still to write, and where
(`40_frame.md` R138). -/
inductive Task where
  | whole (i : Instr)
  | hex (a : Nat) (l : List Byte)
  | lvs (l : Nat) (t : LvsTask Value)
  | lvsTest (l : Nat)
  | lvsTake (l : Nat)
  | ring (r : Nat) (t : RingTask Value)
  | ringTest (r : Nat)
  | ringTake (r : Nat)
  | initGate (c baud : Nat) (ext : Bool) (filter : Filter)
  | initXcvr (c baud : Nat) (ext : Bool) (filter : Filter)
  | initFilter (c : Nat) (filter : Filter)
  | startGate (c : Nat)
  | startXcvr (c : Nat)
  | setChState (c : Nat) (st : ChState) (res : Status)
  | sendGate (c : Nat) (f : Frame)
  | sendXcvr (c : Nat) (f : Frame)
  | sendPush (c : Nat) (t : RingTask Frame)
  | sendTxie (c : Nat) (full : Bool)
  | sendDrop (c : Nat)
  | drainGate (c : Nat)
  | drainPeek (c : Nat) (t : RingTask Frame)
  | drainRead (c : Nat)
  | drainTake (c : Nat)
  | drainXcvr (c : Nat) (f : Frame)
  | drainPop (c : Nat) (t : RingTask Frame)
  | drainTest (c : Nat)
  | drainTxie (c : Nat)
  | recvGate (c : Nat)
  | recvXcvr (c : Nat)
deriving DecidableEq, Repr

/-- One software context: the operation it is part-way through, and the result its last finished operation
returned (log entry 28). -/
structure Context where
  task   : Option Task
  result : Option OpResult
deriving DecidableEq, Repr

/-- A running hook (`60_exceptions.md` R311, R312): the TX hook of a Channel, the RX hook of a Channel while it calls
`CHAN.RECEIVE`, and the RX hook inside `app_dispatch`. -/
inductive Hook where
  | tx (c : Nat)
  | rx (c : Nat)
  | dispatch (c : Nat) (f : Frame)
deriving DecidableEq, Repr

/-- A frame on the wire (`43_transceiver.md` R215). -/
structure WireFrame where
  id         : Word
  isExtended : Bool
  dlc        : BitVec 4
  data       : List Byte
deriving DecidableEq, Repr

/-- A step of the bus agent (`43_transceiver.md` R214 to R218). `junk0` and `junk1` are the draws for the header bits
the decoder ignores. -/
inductive BusStep where
  | txComplete (k : Nat)
  | rxArrive (w : WireFrame) (junk0 junk1 : Word)
  | faultSet
  | faultClear
  | setLock (b : Bool)
deriving DecidableEq, Repr

/-- One input: what moves next (`20_memory.md` R70; log entry 2). -/
inductive Event where
  /-- A context runs a whole operation, with no other agent's step inside it (log entry 15). -/
  | invoke (c : Ctx) (code : Byte) (ops : Operands)
  /-- A context begins an operation, to be taken step by step. -/
  | start (c : Ctx) (code : Byte) (ops : Operands)
  /-- A context takes the next step of its operation. -/
  | advance (c : Ctx)
  /-- A context takes all the steps its operation still has. -/
  | finish (c : Ctx)
  /-- The bus agent of Transceiver `x` takes a step. -/
  | bus (x : Nat) (b : BusStep)
  /-- The transmit-complete request of a Channel's Transceiver is served (`60_exceptions.md` R310, R311). -/
  | irqTx (c : Nat)
  /-- The receive request of FIFO `f` of a Channel's Transceiver is served (`60_exceptions.md` R310, R312). -/
  | irqRx (c : Nat) (f : Nat)
  /-- `app_dispatch` ends and with it the RX hook (`60_exceptions.md` R314). -/
  | hookReturn
  /-- The main context enters a critical section (`20_memory.md` R72). -/
  | enterCritical
  /-- The main context leaves its innermost critical section (`20_memory.md` R72). -/
  | leaveCritical
  /-- Power-on (`70_reset_and_hazards.md` R340, R342). -/
  | powerOn
deriving DecidableEq, Repr

/-- The environment's draws (`00_scope.md` R11): the values supplied and not yet consumed, and how many draws fell
back on a free value (log entry 5). -/
structure Draws where
  hwOk  : List Bool
  now   : List Nat
  count : Nat
deriving DecidableEq, Repr

/-- Caller memory (`20_memory.md` R63): bytes by address, addresses strictly rising; an unlisted byte has no known
value (log entry 7). -/
abbrev Memory := List Host.Cell

/-- The state of the block (`10_state.md` R20), its configuration, its inputs, and the state of the two contexts. -/
structure State where
  cfg      : Config
  schedule : List Event
  agent    : Ctx
  main     : Context
  isr      : Context
  hook     : Option Hook
  masked   : Bool
  saved    : List Bool
  frames   : List Frame
  lvs      : List (Lvs Value)
  rings    : List (Ring Value)
  xcvrs    : List Xcvr
  chans    : List Chan
  mem      : Memory
  draws    : Draws
deriving DecidableEq, Repr

/-- A LatestValueSlot after reset (`10_state.md` R47). -/
def Lvs.reset {α : Type} (roles : Roles) : Lvs α :=
  { cells := { c0 := none, c1 := none, c2 := none }, producing := 0, transfer := 1, consuming := 2, stale := true,
    roles := roles }

/-- A BoundedRing of `n` cells after reset (`10_state.md` R47). `N >= 2` in every configuration that a step runs
under (`92_eei_decisions.md` D51); one cell stands in for none, which no index fits. -/
def Ring.reset {α : Type} (n : Nat) (roles : Roles) : Ring α :=
  { n := n - 1 + 1, cells := Vector.replicate (n - 1 + 1) none, front := 0, back := 0, staged := none, roles := roles }

/-- A filter slot of zeros. -/
def FSlot.zero : FSlot := { valid := false, ext := false, id := 0 }

/-- An element of zeros: what a transmit slot holds after reset. The spec leaves it unspecified (`10_state.md` R47);
DESIGN CHOICE, log entry 11. -/
def Element.zero : Element := { h0 := 0, h1 := 0, dl := 0, dh := 0 }

/-- A register file after reset: every word zero, every queue empty (`10_state.md` R47). -/
def Xcvr.reset (p : FamilyParams) : Xcvr :=
  { ctrl := { lifecycle := .uninit, ext := false, txie := false, rxie := false, abor := false, art := false,
              lock := false, baud := 0 }
    stat := { fault := false, txc := false }
    btr := { prescaler := 0, seg1 := 0, seg2 := 0 }
    fctrl := { acceptAll := false, banksUsed := 0, nbanks := 0 }
    fbank := List.replicate p.bankCount (List.replicate p.slotsPerBank FSlot.zero)
    txpend := 0
    tx := List.replicate p.txSlots Element.zero
    rxfifo := List.replicate p.rxFifos []
    wireTx := [] }

/-- A Channel after reset (`10_state.md` R47); its retry ring is filled by the sender and drained by the ISR context
(`45_channel.md` R274, R275). -/
def Chan.reset (k : ChanConfig) : Chan :=
  { state := .uninitialized, xcvr := k.xcvr, fifo := k.fifo,
    retry := Ring.reset k.retryN k.retryRoles, dropCount := 0 }

/-- The block right after power-on under a configuration (`10_state.md` R47, `70_reset_and_hazards.md` R340). -/
def State.resetWith (c : Config) : State :=
  { cfg := c
    schedule := []
    agent := .main
    main := { task := none, result := none }
    isr := { task := none, result := none }
    hook := none
    masked := false
    saved := []
    frames := []
    lvs := c.lvs.map Lvs.reset
    rings := c.rings.map fun r => Ring.reset r.n r.roles
    xcvrs := List.replicate c.xcvrs (Xcvr.reset c.params)
    chans := c.chans.map Chan.reset
    mem := []
    draws := { hwOk := [], now := [], count := 0 } }

/-- The machine right after reset, under the configuration of log entry 1. -/
def State.reset : State := State.resetWith Config.sample

end Sys2Proof.Machine
end

