-- ==== Sys2Proof/Machine/Codec.lean ====
section
/-! DEFINITION. The encodings of a frame (`30_encoding.md` R95 to R110): masks, clamp, length codes, the header words
of both families, the data words, the hexadecimal digits; and the two construction paths of a Frame
(`40_frame.md` R131, R132). -/

namespace Sys2Proof.Machine

/-- `clamp_len` (`30_encoding.md` R101): saturates at 8. -/
def clampLen (l : Byte) : Byte := if l.toNat ≤ 8 then l else 8

/-- `mask_id` (`30_encoding.md` R102). -/
def maskId (id : Word) (ext : Bool) : Word := if ext then id &&& 0x1FFFFFFF else id &&& 0x000007FF

/-- `dlc_encode` (`30_encoding.md` R103): for a length 0 to 8 the code is the length. -/
def dlcEncode (len : Byte) : BitVec 4 := len.setWidth 4

/-- `dlc_decode` (`30_encoding.md` R104): codes 9 to 15 give 8. -/
def dlcDecode (code : BitVec 4) : Byte := clampLen (code.setWidth 8)

/-- `enc_h0` (`30_encoding.md` R96, R98, R105). -/
def encH0 (fam : Family) (id : Word) (ext : Bool) : Word :=
  match fam with
  | .classic => if ext then (id <<< 3) ||| 0b100 else id <<< 21
  | .flexible => if ext then id ||| 0x40000000 else id <<< 18

/-- The header word `H1` of a length code given as a word: `H1[3:0]` (Classic, `30_encoding.md` R97), `H1[19:16]`
(Flexible, R99), every other bit 0. -/
def encH1 (fam : Family) (code : Word) : Word :=
  match fam with
  | .classic => code
  | .flexible => code <<< 16

/-- The identifier kind and the identifier of a header (`30_encoding.md` R106). -/
def decH0 (fam : Family) (h0 : Word) : Word × Bool :=
  match fam with
  | .classic =>
    let ext := h0.getLsbD 2
    (if ext then (h0.extractLsb' 3 29).setWidth 32 else (h0.extractLsb' 21 11).setWidth 32, ext)
  | .flexible =>
    let ext := h0.getLsbD 30
    (if ext then (h0.extractLsb' 0 29).setWidth 32 else (h0.extractLsb' 18 11).setWidth 32, ext)

/-- The length code of a header (`40_frame.md` R132). -/
def decH1 (fam : Family) (h1 : Word) : BitVec 4 :=
  match fam with
  | .classic => h1.extractLsb' 0 4
  | .flexible => h1.extractLsb' 16 4

/-- Four bytes as a data word, the first in the least significant lane (`30_encoding.md` R100, R65). -/
def packWord (a b c d : Byte) : Word :=
  a.setWidth 32 ||| (b.setWidth 32 <<< 8) ||| (c.setWidth 32 <<< 16) ||| (d.setWidth 32 <<< 24)

/-- `DL` (`30_encoding.md` R100). -/
def packDl (d : Bytes8) : Word := packWord (d.get 0) (d.get 1) (d.get 2) (d.get 3)

/-- `DH` (`30_encoding.md` R100). -/
def packDh (d : Bytes8) : Word := packWord (d.get 4) (d.get 5) (d.get 6) (d.get 7)

/-- Byte `i` of `(DL, DH)` (`30_encoding.md` R100). -/
def laneByte (dl dh : Word) (i : Nat) : Byte :=
  if i < 4 then dl.extractLsb' (8 * i) 8 else dh.extractLsb' (8 * (i - 4)) 8

/-- `if i < len then d[i] else 0`, for every `i` in 0 to 7 (`40_frame.md` R131, R132). -/
def keepBytes (len : Byte) (d : Nat → Byte) : Bytes8 := Bytes8.ofFn fun i => if i < len.toNat then d i else 0

/-- `FRAME.NEW` as a function (`40_frame.md` R131). -/
def newFrame (id : Word) (length : Byte) (d : Bytes8) (ext : Bool) : Frame :=
  let len := clampLen length
  { id := maskId id ext, length := len, data := keepBytes len d.get, isExtended := ext, timestamp := none }

/-- `FRAME.FROM_RX` as a function (`40_frame.md` R132). -/
def fromRx (fam : Family) (e : Element) : Frame :=
  let h := decH0 fam e.h0
  let len := dlcDecode (decH1 fam e.h1)
  { id := maskId h.1 h.2, length := len, data := keepBytes len (laneByte e.dl e.dh), isExtended := h.2,
    timestamp := none }

/-- `FRAME.TXHDR` as a function (`40_frame.md` R133). -/
def txHeader (fam : Family) (f : Frame) : Word × Word :=
  (encH0 fam f.id f.isExtended, encH1 fam (f.length.setWidth 32))

/-- `frame_to_element` (`40_frame.md` R134). -/
def frameToElement (fam : Family) (f : Frame) : Element :=
  let h := txHeader fam f
  { h0 := h.1, h1 := h.2, dl := packDl f.data, dh := packDh f.data }

/-- `hexdigit` (`30_encoding.md` R110): uppercase ASCII. -/
def hexDigit (n : BitVec 4) : Byte := if n.toNat < 10 then 0x30 + n.setWidth 8 else 0x41 + (n.setWidth 8 - 10)

/-- The two digits of a byte, high nibble first (`40_frame.md` R138). -/
def hexPair (b : Byte) : List Byte := [hexDigit (b.extractLsb' 4 4), hexDigit (b.extractLsb' 0 4)]

/-- The `2*length+1` bytes `FRAME.HEX` writes, at offsets 0, 1, … of the buffer (`40_frame.md` R138). -/
def hexBytes (f : Frame) : List Byte := (List.range f.length.toNat).flatMap (fun i => hexPair (f.data.get i)) ++ [0]

/-- The bits of `H0` the decoder reads (`30_encoding.md` R96, R98, R106, R107). -/
def h0ReadMask (fam : Family) (ext : Bool) : Word :=
  match fam, ext with
  | .classic, true => 0xFFFFFFFC
  | .classic, false => 0xFFE00004
  | .flexible, true => 0x5FFFFFFF
  | .flexible, false => 0x5FFC0000

/-- The bits of `H1` the decoder reads (`30_encoding.md` R97, R99, R107). -/
def h1ReadMask (fam : Family) : Word :=
  match fam with
  | .classic => 0x0000000F
  | .flexible => 0x000F0000

/-- The bits outside `mask` replaced by those of `junk`: "every bit the decoder ignores … replaced by a draw"
(`43_transceiver.md` R215). -/
def mixIgnored (mask w junk : Word) : Word := (w &&& mask) ||| (junk &&& ~~~mask)

end Sys2Proof.Machine
end

