-- ==== Sys2Proof/Machine/Registers.lean ====
section
/-! DEFINITION. The words of the register file: where each field stands in its 32-bit register
(`10_state.md` R33 to R37), and the numeric codes (`30_encoding.md` R109). -/

namespace Sys2Proof.Machine

/-- The numeric code of a `Status` (`30_encoding.md` R109). -/
def Status.code : Status → BitVec 2
  | .ok => 0
  | .empty => 1
  | .full => 2
  | .error => 3

/-- The code of `LIFECYCLE` (`10_state.md` R33). -/
def Lifecycle.code : Lifecycle → BitVec 3
  | .uninit => 0
  | .initialized => 1
  | .filterConfigured => 2
  | .running => 3
  | .failed => 4

/-- The word `XC_CTRL`: reserved 31:24, `BAUD` 23:16, reserved 15:9, `LOCK` 8, `ART` 7, `ABOR` 6, `RXIE` 5,
`TXIE` 4, `EXT` 3, `LIFECYCLE` 2:0 (`10_state.md` R33). -/
def XcCtrl.word (r : XcCtrl) : Word :=
  0#8 ++ r.baud ++ 0#7 ++ BitVec.ofBool r.lock ++ BitVec.ofBool r.art ++ BitVec.ofBool r.abor ++
    BitVec.ofBool r.rxie ++ BitVec.ofBool r.txie ++ BitVec.ofBool r.ext ++ r.lifecycle.code

/-- The word `XC_STAT`: reserved 31:2, `TXC` 1, `FAULT` 0 (`10_state.md` R34). -/
def XcStat.word (r : XcStat) : Word := 0#30 ++ BitVec.ofBool r.txc ++ BitVec.ofBool r.fault

/-- The word `XC_BTR`: `SEG2` 31:24, `SEG1` 23:16, `PRESCALER` 15:0 (`10_state.md` R35). -/
def XcBtr.word (r : XcBtr) : Word := r.seg2 ++ r.seg1 ++ r.prescaler

/-- The word `XC_FCTRL`: reserved 31:24, `NBANKS` 23:16, `BANKS_USED` 15:8, reserved 7:1, `ACCEPT_ALL` 0
(`10_state.md` R36). -/
def XcFctrl.word (r : XcFctrl) : Word :=
  0#8 ++ r.nbanks ++ r.banksUsed ++ 0#7 ++ BitVec.ofBool r.acceptAll

/-- The word `XC_FBANK[b][s]`: `VALID` 31, `EXT` 30, reserved 29, `ID` 28:0 (`10_state.md` R37). -/
def FSlot.word (r : FSlot) : Word := BitVec.ofBool r.valid ++ BitVec.ofBool r.ext ++ 0#1 ++ r.id

/-- `XC_TXPEND[k]` (`10_state.md` R38). -/
def Xcvr.pending (r : Xcvr) (k : Nat) : Bool := r.txpend.getLsbD k

/-- Bit `k` of a word set. -/
def setBit (w : Word) (k : Nat) : Word := w ||| BitVec.twoPow 32 k

/-- Bit `k` of a word cleared. -/
def clearBit (w : Word) (k : Nat) : Word := w &&& ~~~(BitVec.twoPow 32 k)

end Sys2Proof.Machine
end

