-- ==== Sys2Proof/Machine/Flags.lean ====
section
/-! DEFINITION. The flags and the conditions computed from state (`10_state.md` R45): ring occupancy (R30), the free
transmit slot, filter acceptance (`43_transceiver.md` R209), and the two interrupt request lines
(`10_state.md` R40, `60_exceptions.md` R306, R307). The stored flags are written where their rules say. -/

namespace Sys2Proof.Machine

/-- `count` (`10_state.md` R30). -/
def Ring.count {α : Type} (r : Ring α) : Nat := (r.back + r.n - r.front) % r.n

/-- `empty` (`10_state.md` R30). -/
def Ring.isEmpty {α : Type} (r : Ring α) : Bool := r.front == r.back

/-- The index a number stands for, modulo `N` (`30_encoding.md` R113 (d)). -/
def Ring.index {α : Type} (r : Ring α) (i : Nat) : Fin r.n := ⟨i % r.n, Nat.mod_lt i r.front.pos⟩

/-- The index after `i`, modulo `N` (`30_encoding.md` R113 (d)). -/
def Ring.next {α : Type} (r : Ring α) (i : Fin r.n) : Fin r.n := r.index (i + 1)

/-- `full` (`10_state.md` R30). -/
def Ring.isFull {α : Type} (r : Ring α) : Bool := r.next r.back == r.front

/-- The content of cell `i`; `none` is `unwritten`. -/
def Ring.cellAt {α : Type} (r : Ring α) (i : Fin r.n) : Option α := r.cells[i]

/-- The unread elements, oldest first (`10_state.md` R30). -/
def Ring.contents {α : Type} (r : Ring α) : List (Option α) :=
  (List.range r.count).map fun i => r.cellAt (r.index (r.front + i))

/-- The least free transmit slot (`43_transceiver.md` R210). -/
def Xcvr.freeSlot (p : FamilyParams) (r : Xcvr) : Option Nat :=
  (List.range p.txSlots).find? fun k => !r.pending k

/-- A filter slot matches a frame (`10_state.md` R37). -/
def FSlot.accepts (f : FSlot) (id : Word) (ext : Bool) : Bool :=
  f.valid && f.ext == ext && f.id.setWidth 32 == id

/-- Acceptance of an arriving frame (`43_transceiver.md` R209). -/
def Xcvr.accepts (r : Xcvr) (id : Word) (ext : Bool) : Bool :=
  r.fctrl.acceptAll || r.fbank.any fun bank => bank.any fun f => f.accepts id ext

/-- `LIFECYCLE = Running`. -/
def Xcvr.isRunning (r : Xcvr) : Bool := r.ctrl.lifecycle == .running

/-- `IRQ_RX[f]` (`60_exceptions.md` R306). -/
def Xcvr.irqRx (r : Xcvr) (f : Nat) : Bool :=
  r.isRunning && r.ctrl.rxie && !((r.rxfifo[f]?).getD []).isEmpty

/-- `IRQ_TX` (`60_exceptions.md` R307). -/
def Xcvr.irqTx (c : Config) (r : Xcvr) : Bool :=
  match c.txIrqKind with
  | .completionEvent => r.isRunning && r.ctrl.txie && r.stat.txc
  | .slotFreeLevel => r.isRunning && r.ctrl.txie && (r.freeSlot c.params).isSome

end Sys2Proof.Machine
end

