-- ==== Sys2Proof/Machine/Operands.lean ====
section
/-! DEFINITION. The operand forms of `30_encoding.md` R93: what an operand denotes in a state. Numbers, Booleans, byte
arrays and lists are themselves; a Frame, and a container value that is a Frame, is given by its fields or is one of
the Frames the callers hold (`10_state.md` R20). -/

namespace Sys2Proof.Machine

/-- The timestamp a number denotes: "an unsigned integer of `TS_WIDTH` bits" (`40_frame.md` R139), the number's low
bits (log entry 6). -/
def timestampOf (c : Config) (t : Nat) : Nat := t % 2 ^ c.tsWidth

/-- The Frame that five given fields denote: the one that construction makes of them, which masks, clamps and zero fills
(`40_frame.md` R131: "every operand value is accepted", R137, `10_state.md` R23), with the given timestamp. A Frame
that exists denotes itself. DESIGN CHOICE, log entry 21. -/
def givenFrame (c : Config) (f : Frame) : Frame :=
  { newFrame f.id f.length f.data f.isExtended with timestamp := f.timestamp.map (timestampOf c) }

/-- The Frame an operand denotes; `none` when the callers hold no such Frame. -/
def State.frameOf (s : State) : FrameRef → Option Frame
  | .given f => some (givenFrame s.cfg f)
  | .held n => s.frames[n]?

/-- The container value an operand denotes. -/
def State.valueOf (s : State) : ValueRef → Option Value
  | .bytes l => some (.bytes l)
  | .frame r =>
    match s.frameOf r with
    | none => none
    | some f => some (.frame f)

end Sys2Proof.Machine
end

