-- ==== Sys2Proof/Machine/Ops.lean ====
section
/-! DEFINITION. The named operations over the state: caller memory, the instances, the draws, the result of an
operation; and what stands in this block where another machine takes an exception and returns from it: entering
an interrupt hook and leaving it (`60_exceptions.md` R310, R314). The block has no exception (R300). -/

namespace Sys2Proof.Machine

/-! ### Caller memory (`20_memory.md` R63) -/

/-- The canonical form: addresses strictly rising. An unlisted byte has no known value, so no entry can equal
what an unlisted address reads as (log entry 7). -/
abbrev Memory.wf (m : Memory) : Prop := m.Pairwise fun a b => a.1 < b.1

/-- One byte of caller memory; `none` when nothing in the run has written it. -/
def Memory.read : Memory → Nat → Option Byte
  | [], _ => none
  | (b, v) :: m, a => if a = b then some v else Memory.read m a

/-- `MemWrite(addr, 1, v)` (`00_scope.md` R12). -/
def Memory.write : Memory → Nat → Byte → Memory
  | [], a, v => [(a, v)]
  | (b, w) :: m, a, v =>
    if a < b then (a, v) :: (b, w) :: m else if a = b then (a, v) :: m else (b, w) :: Memory.write m a v

/-- Consecutive bytes written from address `a` up. -/
def Memory.writeBytes : Memory → Nat → List Byte → Memory
  | m, _, [] => m
  | m, a, v :: l => Memory.writeBytes (Memory.write m a v) (a + 1) l

/-! ### Instances -/

/-- Instance `l` of the LatestValueSlots replaced. -/
def State.setLvs (s : State) (l : Nat) (v : Lvs Value) : State := { s with lvs := s.lvs.set l v }

/-- Instance `r` of the BoundedRings replaced. -/
def State.setRing (s : State) (r : Nat) (v : Ring Value) : State := { s with rings := s.rings.set r v }

/-- The register file of Transceiver `x` replaced. -/
def State.setXcvr (s : State) (x : Nat) (v : Xcvr) : State := { s with xcvrs := s.xcvrs.set x v }

/-- Channel `c` replaced. -/
def State.setChan (s : State) (c : Nat) (v : Chan) : State := { s with chans := s.chans.set c v }

/-- Caller memory replaced. -/
def State.setMem (s : State) (m : Memory) : State := { s with mem := m }

/-! ### The two contexts -/

/-- A context. -/
def State.ctx (s : State) : Ctx → Context
  | .main => s.main
  | .isr => s.isr

/-- A context replaced. -/
def State.setCtx (s : State) (c : Ctx) (k : Context) : State :=
  match c with
  | .main => { s with main := k }
  | .isr => { s with isr := k }

/-- The operation a context is part-way through replaced. -/
def State.setTask (s : State) (c : Ctx) (t : Option Task) : State := s.setCtx c { s.ctx c with task := t }

/-- The context whose operation runs. -/
def State.setAgent (s : State) (c : Ctx) : State := { s with agent := c }

/-! ### Draws (`00_scope.md` R11) -/

/-- The value the next draw of `hw_ok` takes (`43_transceiver.md` R202). -/
def Draws.nextHwOk (d : Draws) : Bool :=
  match d.hwOk with
  | b :: _ => b
  | [] => Config.freeHwOk d.count

/-- The draws left after one draw of `hw_ok`. -/
def Draws.dropHwOk (d : Draws) : Draws :=
  match d.hwOk with
  | _ :: l => { d with hwOk := l }
  | [] => { d with count := d.count + 1 }

/-- The value the next draw of `now` takes, a value of `width` bits (`40_frame.md` R139). -/
def Draws.nextNow (d : Draws) (width : Nat) : Nat :=
  (match d.now with
  | t :: _ => t
  | [] => Config.freeNow d.count) % 2 ^ width

/-- The draws left after one draw of `now`. -/
def Draws.dropNow (d : Draws) : Draws :=
  match d.now with
  | _ :: l => { d with now := l }
  | [] => { d with count := d.count + 1 }

/-- The draws replaced. -/
def State.setDraws (s : State) (d : Draws) : State := { s with draws := d }

/-! ### Results -/

/-- The Frames a result hands to the caller, who holds them from then on (`10_state.md` R20). -/
def OpResult.heldFrames : OpResult → List Frame
  | .frame f => [f]
  | .value (.frame f) => [f]
  | .received _ (some f) => [f]
  | _ => []

/-- Outcome (1) of `00_scope.md` R11: the operation of `s.agent` returns `r` to its caller. -/
def State.returns (s : State) (r : OpResult) : State :=
  let s := s.setCtx s.agent { s.ctx s.agent with result := some r }
  { s with frames := s.frames ++ r.heldFrames }

/-- What a called operation answers: a result and the state it leaves, or a refusal (`00_scope.md` R11). -/
abbrev Reply (α : Type) := Except Refusal (α × State)

/-- A call, then what follows it; a refusal of the inner call is a refusal of the whole (`45_channel.md` R272). -/
def Reply.andThen {α β : Type} (r : Reply α) (k : α → State → Reply β) : Reply β :=
  match r with
  | .ok p => k p.1 p.2
  | .error e => .error e

/-- The outcome of an operation that is invoked by an agent: its result goes to the caller. -/
def answer {α : Type} (r : Reply α) (result : α → OpResult) : Host.Outcome State Fault Refusal :=
  match r with
  | .ok p => .next (p.2.returns (result p.1))
  | .error e => .refused e

/-! ### Entering and leaving a hook (`60_exceptions.md` R310, R314) -/

/-- A hook may be entered: no hook and no other operation of the ISR context runs, and the main context is not
inside a critical section (`60_exceptions.md` R308, R314; `20_memory.md` R71, R72). The main context may be
part-way through an operation. -/
def State.canEnterHook (s : State) : Bool := s.hook.isNone && s.isr.task.isNone && !s.masked

/-- "The ISR context starts the hook"; "the block saves nothing and restores nothing" (`60_exceptions.md` R310). The
hook's own call is the first operation the ISR context then takes. -/
def State.enterHook (s : State) (h : Hook) (t : Task) : State := { s with hook := some h }.setTask .isr (some t)

/-- "A hook returns by reaching its end; there is no return instruction and nothing to restore"
(`60_exceptions.md` R314). -/
def State.leaveHook (s : State) : State := { s with hook := none }

/-- The hook continued after the ISR context's operation has ended: the TX hook ends with `tx_drain` (R311); the RX
hook goes on to `app_dispatch(f)` when the Status was `Ok` and ends otherwise (R312). -/
def State.continueHook (s : State) : State :=
  match s.hook with
  | some (.tx _) => s.leaveHook
  | some (.rx c) =>
    match s.isr.result with
    | some (.received .ok (some f)) => { s with hook := some (.dispatch c f) }
    | _ => s.leaveHook
  | _ => s

end Sys2Proof.Machine
end

