-- ==== Sys2Proof/Machine/Bus.lean ====
section
/-! DEFINITION. The steps of the bus agent (`43_transceiver.md` R214 to R218): enabled by the state, chosen by
nobody. -/

namespace Sys2Proof.Machine

/-- The wire record of a transmit slot (`43_transceiver.md` R214): the four wire-level fields of the decoded
element. -/
def wireRecordOf (fam : Family) (e : Element) : WireRecord :=
  let f := fromRx fam e
  { id := f.id, isExtended := f.isExtended, length := f.length,
    data := (List.range f.length.toNat).map fun i => f.data.get i }

/-- The data byte count of a length code on the wire (`43_transceiver.md` R215). -/
def WireFrame.byteCount (w : WireFrame) : Nat := min w.dlc.toNat 8

/-- A frame that can be on the wire: `id` below `2^11` or `2^29` by kind, `min(dlc, 8)` data bytes
(`43_transceiver.md` R215). -/
def WireFrame.wf (w : WireFrame) : Bool :=
  decide (w.id.toNat < if w.isExtended then 2 ^ 29 else 2 ^ 11) && decide (w.data.length = w.byteCount)

/-- The element an arriving frame becomes (`43_transceiver.md` R215): the encoder's, with the `DLC` field replaced by
the code on the wire and every ignored header bit by a draw. -/
def arrivalElement (fam : Family) (w : WireFrame) (junk0 junk1 : Word) : Element :=
  let f := newFrame w.id (BitVec.ofNat 8 w.byteCount) (Bytes8.ofFn fun i => w.data.getD i 0) w.isExtended
  let e := frameToElement fam f
  { e with h0 := mixIgnored (h0ReadMask fam w.isExtended) e.h0 junk0
           h1 := mixIgnored (h1ReadMask fam) (encH1 fam (w.dlc.setWidth 32)) junk1 }

/-- The effect of an arriving frame (`43_transceiver.md` R215): not accepted, no trace; FIFO full, dropped
silently (`RX_OVERRUN = DropNewest`); otherwise appended to `FILTER_FIFO`. -/
def Xcvr.arrive (c : Config) (w : WireFrame) (junk0 junk1 : Word) (r : Xcvr) : Xcvr :=
  if r.accepts w.id w.isExtended then
    match r.rxfifo[c.params.filterFifo]? with
    | none => r
    | some q =>
      if q.length < c.params.rxFifoDepth then
        { r with rxfifo := r.rxfifo.set c.params.filterFifo (q ++ [arrivalElement c.family w junk0 junk1]) }
      else
        match c.rxOverrun with
        | .dropNewest => r
  else r

/-- The effect of a completed transmission (`43_transceiver.md` R214). The slot keeps its four words, which are
meaningless from then on (`10_state.md` R38, U13): DESIGN CHOICE, log entry 11. -/
def Xcvr.complete (c : Config) (k : Nat) (e : Element) (r : Xcvr) : Xcvr :=
  { r with wireTx := r.wireTx ++ [wireRecordOf c.family e], txpend := clearBit r.txpend k,
           stat := { r.stat with txc := true } }

/-- One step of the bus agent on a register file; `none` when it is not enabled (`43_transceiver.md` R214 to R218).
`BUS.FAULT_CLEAR` needs `Running`: R205, D31 and `70_reset_and_hazards.md` R341 say so of every bus-agent step, while
R217's own condition does not name it. DESIGN CHOICE between them, log entry 38. A write of `LOCK` is enabled "at
any time" (R218). -/
def busStep (c : Config) (b : BusStep) (r : Xcvr) : Option Xcvr :=
  match b with
  | .txComplete k =>
    if r.isRunning && !r.stat.fault && r.pending k then
      match r.tx[k]? with
      | none => none
      | some e => some (r.complete c k e)
    else none
  | .rxArrive w junk0 junk1 =>
    if r.isRunning && !r.stat.fault && w.wf then some (r.arrive c w junk0 junk1) else none
  | .faultSet => if r.isRunning && !r.stat.fault then some { r with stat := { r.stat with fault := true } } else none
  | .faultClear =>
    if r.isRunning && r.stat.fault && r.ctrl.abor then some { r with stat := { r.stat with fault := false } } else none
  | .setLock b => some { r with ctrl := { r.ctrl with lock := b } }

end Sys2Proof.Machine
end

