-- ==== Sys2Proof/Machine/Ring.lean ====
section
/-! DEFINITION. The BoundedRing operations (`42_bounded_ring.md` R180 to R190): their steps, the whole operations, and
the meanings. `N` is the number of cells. -/

namespace Sys2Proof.Machine

/-- Cell `b` given a content; `none` is no value, which is what a cell holds while it is being written (log
entry 29). -/
def Ring.setCell {α : Type} (r : Ring α) (b : Fin r.n) (e : Option α) : Ring α := { r with cells := r.cells.set b e }

/-- `back <- nb` (`42_bounded_ring.md` R181, step 3). -/
def Ring.setBack {α : Type} (r : Ring α) (nb : Fin r.n) : Ring α := { r with back := nb }

/-- `front <- nf` (`42_bounded_ring.md` R182, step 3). -/
def Ring.setFront {α : Type} (r : Ring α) (nf : Fin r.n) : Ring α := { r with front := nf }

/-- `staged <- some(cells[f])` (`42_bounded_ring.md` R182, R183, step 2). An unwritten cell stages nothing (log
entry 31). -/
def Ring.stage {α : Type} (r : Ring α) (f : Fin r.n) : Ring α := { r with staged := r.cellAt f }

/-- `RING.PUSH` whole (`42_bounded_ring.md` R181): `true` means the value was NOT stored. -/
def Ring.push {α : Type} (r : Ring α) (v : α) : Bool × Ring α :=
  if r.isFull then (true, r) else (false, (r.setCell r.back (some v)).setBack (r.next r.back))

/-- `RING.POP` whole (`42_bounded_ring.md` R182). -/
def Ring.pop {α : Type} (r : Ring α) : Bool × Ring α :=
  if r.isEmpty then (false, r) else (true, (r.stage r.front).setFront (r.next r.front))

/-- `RING.PEEK` whole (`42_bounded_ring.md` R183). -/
def Ring.peek {α : Type} (r : Ring α) : Bool × Ring α :=
  if r.isEmpty then (false, r) else (true, r.stage r.front)

/-- One step of a BoundedRing operation: the instance after it, and what comes next or the Boolean result
(`42_bounded_ring.md` R181 to R183; the two reads of step 1 are two steps, R188; the cell write of step 2 is two
steps, between which the cell holds no value, `20_memory.md` R68, log entry 29). -/
def RingTask.step {α : Type} (t : RingTask α) (r : Ring α) : Ring α × (RingTask α ⊕ Bool) :=
  match t with
  | .pushFront v => (r, .inl (.pushBack v r.front))
  | .pushBack v f => if r.next r.back = f then (r, .inr true) else (r, .inl (.pushOpen v r.back (r.next r.back)))
  | .pushOpen v b nb => (r.setCell (r.index b) none, .inl (.pushWrite v b nb))
  | .pushWrite v b nb => (r.setCell (r.index b) (some v), .inl (.pushPublish nb))
  | .pushPublish nb => (r.setBack (r.index nb), .inr false)
  | .popFront => (r, .inl (.popBack r.front))
  | .popBack f => if f = r.back then (r, .inr false) else (r, .inl (.popStage f))
  | .popStage f => (r.stage (r.index f), .inl (.popPublish f))
  | .popPublish f => (r.setFront (r.next (r.index f)), .inr true)
  | .peekFront => (r, .inl (.peekBack r.front))
  | .peekBack f => if f = r.back then (r, .inr false) else (r, .inl (.peekStage f))
  | .peekStage f => (r.stage (r.index f), .inr true)

/-- `RING.PUSH` (`42_bounded_ring.md` R181, R187). -/
def execRingPush (r : Nat) (v : ValueRef) (s : State) : Host.Outcome State Fault Refusal :=
  match s.rings[r]?, s.valueOf v with
  | some q, some v =>
    if s.agent = q.roles.producer then .next ((s.setRing r (q.push v).2).returns (.bool (q.push v).1))
    else .refused .spscViolation
  | _, _ => .refused .noSuchOperand

/-- `RING.POP` (`42_bounded_ring.md` R182, R187). -/
def execRingPop (r : Nat) (s : State) : Host.Outcome State Fault Refusal :=
  match s.rings[r]? with
  | none => .refused .noSuchOperand
  | some q =>
    if s.agent = q.roles.consumer then .next ((s.setRing r q.pop.2).returns (.bool q.pop.1))
    else .refused .spscViolation

/-- `RING.PEEK` (`42_bounded_ring.md` R183, R187). -/
def execRingPeek (r : Nat) (s : State) : Host.Outcome State Fault Refusal :=
  match s.rings[r]? with
  | none => .refused .noSuchOperand
  | some q =>
    if s.agent = q.roles.consumer then .next ((s.setRing r q.peek.2).returns (.bool q.peek.1))
    else .refused .spscViolation

/-- `RING.READ` (`42_bounded_ring.md` R184, R187). -/
def execRingRead (r : Nat) (s : State) : Host.Outcome State Fault Refusal :=
  match s.rings[r]? with
  | none => .refused .noSuchOperand
  | some q =>
    if s.agent = q.roles.consumer then
      match q.staged with
      | none => .refused .readBeforeStage
      | some v => .next (s.returns (.value v))
    else .refused .spscViolation

end Sys2Proof.Machine
end

