-- ==== Sys2Proof/Machine/Xcvr.lean ====
section
/-! DEFINITION. The Transceiver operations (`43_transceiver.md` R200 to R213, `44_transceiver_families.md`): the
lifecycle gate, the effect of each operation on the register file, the calls (which Channel uses too), and the
meanings. Each operation is one atomic step (R221, log entry 23). -/

namespace Sys2Proof.Machine

/-- What an operation's gate says (`43_transceiver.md` R201, `45_channel.md` R271). `failed` is the column
`Failed`. -/
inductive Gate where
  | run
  | refuse (r : Refusal)
  | failed
deriving DecidableEq, Repr

/-- The rows of the gate table (`43_transceiver.md` R201). -/
inductive XcvrOp where
  | init
  | filter
  | start
  | stop
  | transfer
  | txie
deriving DecidableEq, Repr

/-- The lifecycle gate, cell by cell (`43_transceiver.md` R201). -/
def xcvrGate : XcvrOp → Lifecycle → Gate
  | .init, .uninit => .run
  | .init, .initialized => .refuse .initTwice
  | .init, .filterConfigured => .refuse .initTwice
  | .init, .running => .refuse .initTwice
  | .init, .failed => .failed
  | .filter, .uninit => .refuse .notInitialised
  | .filter, .initialized => .run
  | .filter, .filterConfigured => .run
  | .filter, .running => .refuse .filterWhileRunning
  | .filter, .failed => .failed
  | .start, .uninit => .refuse .notInitialised
  | .start, .initialized => .refuse .startBeforeFilter
  | .start, .filterConfigured => .run
  | .start, .running => .refuse .alreadyRunning
  | .start, .failed => .failed
  | .stop, .uninit => .refuse .notRunning
  | .stop, .initialized => .refuse .notRunning
  | .stop, .filterConfigured => .refuse .notRunning
  | .stop, .running => .run
  | .stop, .failed => .failed
  | .transfer, .uninit => .refuse .notRunning
  | .transfer, .initialized => .refuse .notRunning
  | .transfer, .filterConfigured => .refuse .notRunning
  | .transfer, .running => .run
  | .transfer, .failed => .failed
  | .txie, .uninit => .refuse .notInitialised
  | .txie, .initialized => .run
  | .txie, .filterConfigured => .run
  | .txie, .running => .run
  | .txie, .failed => .failed

/-! ### Effects on the register file -/

/-- `XC_CTRL.LIFECYCLE <- l`. -/
def Xcvr.setLifecycle (r : Xcvr) (l : Lifecycle) : Xcvr := { r with ctrl := { r.ctrl with lifecycle := l } }

/-- `XCVR.INIT` with `hw_ok` true (`43_transceiver.md` R203); `pre` is `PRESCALER(FAMILY, baud)`. -/
def Xcvr.init (p : FamilyParams) (pre baud : Nat) (extended : Bool) (r : Xcvr) : Xcvr :=
  { r with
    btr := { prescaler := BitVec.ofNat 16 pre, seg1 := BitVec.ofNat 8 p.seg1, seg2 := BitVec.ofNat 8 p.seg2 }
    ctrl := { r.ctrl with baud := BitVec.ofNat 8 baud, ext := extended, abor := true, art := true,
                          lifecycle := .initialized }
    fctrl := { r.fctrl with nbanks := BitVec.ofNat 8 p.bankCount } }

/-- `XCVR.START` with `hw_ok` true (`43_transceiver.md` R204). -/
def Xcvr.start (r : Xcvr) : Xcvr := { r with ctrl := { r.ctrl with rxie := true, lifecycle := .running } }

/-- `XCVR.STOP` with `hw_ok` true (`43_transceiver.md` R205). -/
def Xcvr.stop (r : Xcvr) : Xcvr := { r with ctrl := { r.ctrl with rxie := false, lifecycle := .filterConfigured } }

/-- Every filter slot zero: `for every b, s: XC_FBANK[b][s] <- 0` (`43_transceiver.md` R206, R208). -/
def clearBanks (p : FamilyParams) : List (List FSlot) :=
  List.replicate p.bankCount (List.replicate p.slotsPerBank FSlot.zero)

/-- `XCVR.FILTER_ALL` with `hw_ok` true (`43_transceiver.md` R206). -/
def Xcvr.filterAll (p : FamilyParams) (r : Xcvr) : Xcvr :=
  { r with fbank := clearBanks p, fctrl := { r.fctrl with acceptAll := true, banksUsed := 1 },
           ctrl := { r.ctrl with lifecycle := .filterConfigured } }

/-- `{ VALID = 1, EXT = extended, ID = mask_id(id, extended) }` (`43_transceiver.md` R208). -/
def filterSlot (extended : Bool) (id : Word) : FSlot :=
  { valid := true, ext := extended, id := (maskId id extended).setWidth 29 }

/-- Slot `s` of bank `b` after partitioning: identifier number `j` stands in bank `j div k`, slot `j mod k`, so the
slot holds identifier `b*k + s` when `s < k` and the list has it, and zero otherwise (`43_transceiver.md` R207,
R208). -/
def partitionSlot (k : Nat) (extended : Bool) (ids : List Word) (b s : Nat) : FSlot :=
  if s < k then
    match ids[b * k + s]? with
    | some id => filterSlot extended id
    | none => FSlot.zero
  else FSlot.zero

/-- The filter table after partitioning (`43_transceiver.md` R207, R208). -/
def partitionBanks (p : FamilyParams) (extended : Bool) (ids : List Word) : List (List FSlot) :=
  (List.range p.bankCount).map fun b =>
    (List.range p.slotsPerBank).map fun s => partitionSlot (p.idsPerBank extended) extended ids b s

/-- `ceil_div` (`00_scope.md` R12). -/
def ceilDiv (a n : Nat) : Nat := (a + n - 1) / n

/-- `XCVR.FILTER_LIST` with `hw_ok` true and the list within capacity (`43_transceiver.md` R208). -/
def Xcvr.filterList (p : FamilyParams) (extended : Bool) (ids : List Word) (r : Xcvr) : Xcvr :=
  { r with
    fbank := partitionBanks p extended ids
    fctrl := { r.fctrl with acceptAll := false
                            banksUsed := BitVec.ofNat 8 (ceilDiv ids.length (p.idsPerBank extended)) }
    ctrl := { r.ctrl with lifecycle := .filterConfigured } }

/-- `XCVR.FILTER_LIST` with `hw_ok` true: above capacity it "behaves exactly as XCVR.FILTER_ALL"
(`43_transceiver.md` R208); the comparison is strict. -/
def Xcvr.filterBy (p : FamilyParams) (extended : Bool) (ids : List Word) (r : Xcvr) : Xcvr :=
  if ids.length > p.bankCount * p.idsPerBank extended then r.filterAll p else r.filterList p extended ids

/-- A free slot `k` filled (`43_transceiver.md` R210), the lock bit cleared first where the family does so
(`44_transceiver_families.md` R256). -/
def Xcvr.fillSlot (c : Config) (k : Nat) (f : Frame) (r : Xcvr) : Xcvr :=
  { r with ctrl := { r.ctrl with lock := r.ctrl.lock && !c.params.clearLockBeforeTx }
           tx := r.tx.set k (frameToElement c.family f)
           txpend := setBit r.txpend k }

/-- `XCVR.SEND` in `Running` (`43_transceiver.md` R210): fault first, then the slot search. -/
def Xcvr.send (c : Config) (f : Frame) (r : Xcvr) : Status × Xcvr :=
  if r.stat.fault then (.error, r)
  else
    match r.freeSlot c.params with
    | none => (.error, r)
    | some k => (.ok, r.fillSlot c k f)

/-- `XC_CTRL.TXIE <- b` (`43_transceiver.md` R212, R213). -/
def Xcvr.setTxie (b : Bool) (r : Xcvr) : Xcvr := { r with ctrl := { r.ctrl with txie := b } }

/-! ### Calls -/

/-- A configuration operation: the gate, then the draw `hw_ok`; when it is false `LIFECYCLE <- Failed`, "changes
nothing else and returns `Error`" (`43_transceiver.md` R201, R202). -/
def configure (op : XcvrOp) (x : Nat) (effect : Xcvr → Xcvr) (s : State) : Reply Status :=
  match s.xcvrs[x]? with
  | none => .error .noSuchOperand
  | some r =>
    match xcvrGate op r.ctrl.lifecycle with
    | .refuse e => .error e
    | .failed => .ok (.error, s)
    | .run =>
      let d := s.setDraws s.draws.dropHwOk
      .ok (if s.draws.nextHwOk then (.ok, d.setXcvr x (effect r))
           else (.error, d.setXcvr x (r.setLifecycle .failed)))

/-- The call `XCVR.INIT` (`43_transceiver.md` R203), at every rate the compiled family supports. `PRESCALER(FAMILY, baud)`
is `none` for no selected rate: such a configuration is rejected before any step (`00_scope.md` R8; log entry 39). -/
def callXcvrInit (x baud : Nat) (extended : Bool) (s : State) : Reply Status :=
  match s.cfg.params.prescalerOf baud with
  | none => .error .noSuchOperand
  | some pre => configure .init x (Xcvr.init s.cfg.params pre baud extended) s

/-- The call `XCVR.START` (`43_transceiver.md` R204). -/
def callXcvrStart (x : Nat) (s : State) : Reply Status := configure .start x Xcvr.start s

/-- The call `XCVR.STOP` (`43_transceiver.md` R205). -/
def callXcvrStop (x : Nat) (s : State) : Reply Status := configure .stop x Xcvr.stop s

/-- The call `XCVR.FILTER_ALL` (`43_transceiver.md` R206). -/
def callXcvrFilterAll (x : Nat) (s : State) : Reply Status :=
  configure .filter x (Xcvr.filterAll s.cfg.params) s

/-- The call `XCVR.FILTER_LIST` (`43_transceiver.md` R208). -/
def callXcvrFilterList (x : Nat) (ids : List Word) (extended : Bool) (s : State) : Reply Status :=
  configure .filter x (Xcvr.filterBy s.cfg.params extended ids) s

/-- The call `XCVR.SEND` (`43_transceiver.md` R201, R210). -/
def callXcvrSend (x : Nat) (f : Frame) (s : State) : Reply Status :=
  match s.xcvrs[x]? with
  | none => .error .noSuchOperand
  | some r =>
    match xcvrGate .transfer r.ctrl.lifecycle with
    | .refuse e => .error e
    | .failed => .ok (.error, s)
    | .run => .ok ((r.send s.cfg f).1, s.setXcvr x (r.send s.cfg f).2)

/-- The call `XCVR.RECEIVE` (`43_transceiver.md` R201, R211): gate, selector, fault, emptiness, in this order
(`60_exceptions.md` R304). The Frame is stamped with the draw `now`. -/
def callXcvrReceive (x fifo : Nat) (s : State) : Reply (Status × Option Frame) :=
  match s.xcvrs[x]? with
  | none => .error .noSuchOperand
  | some r =>
    match xcvrGate .transfer r.ctrl.lifecycle with
    | .refuse e => .error e
    | .failed => .ok ((.error, none), s)
    | .run =>
      match r.rxfifo[fifo]? with
      | none => .error .badFifoSelector
      | some q =>
        if r.stat.fault then .ok ((.error, none), s)
        else
          match q with
          | [] => .ok ((.empty, none), s)
          | e :: q =>
            let f := { fromRx s.cfg.family e with timestamp := some (s.draws.nextNow s.cfg.tsWidth) }
            .ok ((.ok, some f),
              (s.setDraws s.draws.dropNow).setXcvr x { r with rxfifo := r.rxfifo.set fifo q })

/-- The calls `XCVR.TXIE_ON` and `XCVR.TXIE_OFF` (`43_transceiver.md` R201, R212, R213). -/
def callXcvrTxie (b : Bool) (x : Nat) (s : State) : Reply Unit :=
  match s.xcvrs[x]? with
  | none => .error .noSuchOperand
  | some r =>
    match xcvrGate .txie r.ctrl.lifecycle with
    | .refuse e => .error e
    | .failed => .ok ((), s)
    | .run => .ok ((), s.setXcvr x (r.setTxie b))

/-! ### Meanings -/

/-- `XCVR.INIT` (`43_transceiver.md` R203). -/
def execXcvrInit (x baud : Nat) (extended : Bool) (s : State) : Host.Outcome State Fault Refusal :=
  answer (callXcvrInit x baud extended s) .status

/-- `XCVR.START` (`43_transceiver.md` R204). -/
def execXcvrStart (x : Nat) (s : State) : Host.Outcome State Fault Refusal := answer (callXcvrStart x s) .status

/-- `XCVR.STOP` (`43_transceiver.md` R205). -/
def execXcvrStop (x : Nat) (s : State) : Host.Outcome State Fault Refusal := answer (callXcvrStop x s) .status

/-- `XCVR.FILTER_ALL` (`43_transceiver.md` R206). -/
def execXcvrFilterAll (x : Nat) (s : State) : Host.Outcome State Fault Refusal :=
  answer (callXcvrFilterAll x s) .status

/-- `XCVR.FILTER_LIST` (`43_transceiver.md` R208). -/
def execXcvrFilterList (x : Nat) (ids : List Word) (extended : Bool) (s : State) :
    Host.Outcome State Fault Refusal :=
  answer (callXcvrFilterList x ids extended s) .status

/-- `XCVR.SEND` (`43_transceiver.md` R210). -/
def execXcvrSend (x : Nat) (f : FrameRef) (s : State) : Host.Outcome State Fault Refusal :=
  match s.frameOf f with
  | none => .refused .noSuchOperand
  | some f => answer (callXcvrSend x f s) .status

/-- `XCVR.RECEIVE` (`43_transceiver.md` R211). -/
def execXcvrReceive (x fifo : Nat) (s : State) : Host.Outcome State Fault Refusal :=
  answer (callXcvrReceive x fifo s) fun r => .received r.1 r.2

/-- `XCVR.TXIE_ON` (`43_transceiver.md` R212). -/
def execXcvrTxieOn (x : Nat) (s : State) : Host.Outcome State Fault Refusal :=
  answer (callXcvrTxie true x s) fun _ => .nothing

/-- `XCVR.TXIE_OFF` (`43_transceiver.md` R213). -/
def execXcvrTxieOff (x : Nat) (s : State) : Host.Outcome State Fault Refusal :=
  answer (callXcvrTxie false x s) fun _ => .nothing

end Sys2Proof.Machine
end

