-- ==== Sys2Proof/Machine/Chan.lean ====
section
/-! DEFINITION. The Channel operations (`45_channel.md` R270 to R279), each a composition of Transceiver and ring
operations. The definitions here run an operation whole; its steps are in `Machine/Task.lean`. -/

namespace Sys2Proof.Machine

/-- The rows of the Channel's gate table (`45_channel.md` R271). -/
inductive ChanOp where
  | init
  | start
  | transfer
deriving DecidableEq, Repr

/-- The Channel's gate, cell by cell (`45_channel.md` R271). -/
def chanGate : ChanOp → ChState → Gate
  | .init, .uninitialized => .run
  | .init, .filterConfigured => .refuse .channelInitTwice
  | .init, .running => .refuse .channelInitTwice
  | .init, .failed => .failed
  | .start, .uninitialized => .refuse .channelNotInitialised
  | .start, .filterConfigured => .run
  | .start, .running => .refuse .channelAlreadyRunning
  | .start, .failed => .failed
  | .transfer, .uninitialized => .refuse .channelNotRunning
  | .transfer, .filterConfigured => .refuse .channelNotRunning
  | .transfer, .running => .run
  | .transfer, .failed => .failed

/-- `CH_STATE <- st`, then return `res` (`45_channel.md` R272, R273). -/
def enterChState (c : Nat) (k : Chan) (st : ChState) (res : Status) (s : State) : Reply Status :=
  .ok (res, s.setChan c { k with state := st })

/-- The filter call of `CHAN.INIT` (`45_channel.md` R272). -/
def callFilter (x : Nat) (filter : Filter) (s : State) : Reply Status :=
  match filter with
  | .all => callXcvrFilterAll x s
  | .list ids ext => callXcvrFilterList x ids ext s

/-- `CHAN.INIT` (`45_channel.md` R272): "any result other than `Ok` gives `CH_STATE = Failed`" (D45). -/
def callChanInit (c baud : Nat) (extended : Bool) (filter : Filter) (s : State) : Reply Status :=
  match s.chans[c]? with
  | none => .error .noSuchOperand
  | some k =>
    match chanGate .init k.state with
    | .refuse e => .error e
    | .failed => .ok (.error, s)
    | .run =>
      Reply.andThen (callXcvrInit k.xcvr baud extended s) fun st s =>
        if st = .ok then
          Reply.andThen (callFilter k.xcvr filter s) fun st s =>
            if st = .ok then enterChState c k .filterConfigured .ok s else enterChState c k .failed .error s
        else enterChState c k .failed .error s

/-- `CHAN.START` (`45_channel.md` R273). -/
def callChanStart (c : Nat) (s : State) : Reply Status :=
  match s.chans[c]? with
  | none => .error .noSuchOperand
  | some k =>
    match chanGate .start k.state with
    | .refuse e => .error e
    | .failed => .ok (.error, s)
    | .run =>
      Reply.andThen (callXcvrStart k.xcvr s) fun st s =>
        if st = .ok then enterChState c k .running .ok s else enterChState c k .failed .error s

/-- `CHAN.SEND` after the direct attempt has failed (`45_channel.md` R274): the frame is pushed, the interrupt
enabled, a rejected frame counted and `Full` returned. -/
def queueForRetry (c : Nat) (k : Chan) (f : Frame) (s : State) : Reply Status :=
  let q := k.retry.push f
  Reply.andThen (callXcvrTxie true k.xcvr (s.setChan c { k with retry := q.2 })) fun _ s =>
    if q.1 then .ok (.full, s.setChan c { k with retry := q.2, dropCount := k.dropCount + 1 }) else .ok (.ok, s)

/-- `CHAN.SEND` (`45_channel.md` R274). -/
def callChanSend (c : Nat) (f : Frame) (s : State) : Reply Status :=
  match s.chans[c]? with
  | none => .error .noSuchOperand
  | some k =>
    match chanGate .transfer k.state with
    | .refuse e => .error e
    | .failed => .ok (.error, s)
    | .run =>
      if s.agent = k.retry.roles.producer then
        Reply.andThen (callXcvrSend k.xcvr f s) fun st s =>
          if st = .ok then .ok (.ok, s) else queueForRetry c k f s
      else .error .spscViolation

/-- The end of `CHAN.TX_DRAIN` (`45_channel.md` R275): `TXIE_OFF` when the ring is empty now. -/
def quietWhenDrained (k : Chan) (s : State) : Reply Unit :=
  if k.retry.isEmpty then callXcvrTxie false k.xcvr s else .ok ((), s)

/-- `CHAN.TX_DRAIN` (`45_channel.md` R275): at most one frame, popped only after a successful send; the emptiness
test is made once, at the end. -/
def callChanTxDrain (c : Nat) (s : State) : Reply Unit :=
  match s.chans[c]? with
  | none => .error .noSuchOperand
  | some k =>
    match chanGate .transfer k.state with
    | .refuse e => .error e
    | .failed => .ok ((), s)
    | .run =>
      if s.agent = k.retry.roles.consumer then
        let peeked := { k with retry := k.retry.peek.2 }
        let s := s.setChan c peeked
        if k.retry.peek.1 then
          match peeked.retry.staged with
          | none => .error .readBeforeStage
          | some f =>
            Reply.andThen (callXcvrSend k.xcvr f s) fun st s =>
              if st = .ok then
                let popped := { peeked with retry := peeked.retry.pop.2 }
                quietWhenDrained popped (s.setChan c popped)
              else quietWhenDrained peeked s
        else quietWhenDrained peeked s
      else .error .spscViolation

/-- `CHAN.RECEIVE` (`45_channel.md` R276). -/
def callChanReceive (c : Nat) (s : State) : Reply (Status × Option Frame) :=
  match s.chans[c]? with
  | none => .error .noSuchOperand
  | some k =>
    match chanGate .transfer k.state with
    | .refuse e => .error e
    | .failed => .ok ((.error, none), s)
    | .run => callXcvrReceive k.xcvr k.fifo s

/-- `CHAN.INIT` (`45_channel.md` R272). -/
def execChanInit (c baud : Nat) (extended : Bool) (filter : Filter) (s : State) :
    Host.Outcome State Fault Refusal :=
  answer (callChanInit c baud extended filter s) .status

/-- `CHAN.START` (`45_channel.md` R273). -/
def execChanStart (c : Nat) (s : State) : Host.Outcome State Fault Refusal := answer (callChanStart c s) .status

/-- `CHAN.SEND` (`45_channel.md` R274). -/
def execChanSend (c : Nat) (f : FrameRef) (s : State) : Host.Outcome State Fault Refusal :=
  match s.frameOf f with
  | none => .refused .noSuchOperand
  | some f => answer (callChanSend c f s) .status

/-- `CHAN.TX_DRAIN` (`45_channel.md` R275). -/
def execChanTxDrain (c : Nat) (s : State) : Host.Outcome State Fault Refusal :=
  answer (callChanTxDrain c s) fun _ => .nothing

/-- `CHAN.RECEIVE` (`45_channel.md` R276). -/
def execChanReceive (c : Nat) (s : State) : Host.Outcome State Fault Refusal :=
  answer (callChanReceive c s) fun r => .received r.1 r.2

end Sys2Proof.Machine
end

