-- ==== Sys2Proof/Machine/Frame.lean ====
section
/-! DEFINITION. The Frame operations (`40_frame.md` R130 to R140). Each is one step and, but for `FRAME.HEX`, a pure
function of its operands. -/

namespace Sys2Proof.Machine

/-- `FRAME.NEW` (`40_frame.md` R131). -/
def execFrameNew (id : Word) (length : Byte) (d : Bytes8) (isExtended : Bool) (s : State) :
    Host.Outcome State Fault Refusal :=
  .next (s.returns (.frame (newFrame id length d isExtended)))

/-- `FRAME.FROM_RX` (`40_frame.md` R132). -/
def execFrameFromRx (h0 h1 dl dh : Word) (s : State) : Host.Outcome State Fault Refusal :=
  .next (s.returns (.frame (fromRx s.cfg.family { h0 := h0, h1 := h1, dl := dl, dh := dh })))

/-- `FRAME.TXHDR` (`40_frame.md` R133). -/
def execFrameTxhdr (f : FrameRef) (s : State) : Host.Outcome State Fault Refusal :=
  match s.frameOf f with
  | none => .refused .noSuchOperand
  | some f => .next (s.returns (.header (txHeader s.cfg.family f).1 (txHeader s.cfg.family f).2))

/-- `FRAME.HEX` (`40_frame.md` R138): exactly `2*length+1` bytes are written, from the buffer's first byte up. -/
def execFrameHex (f : FrameRef) (buf : Buffer) (s : State) : Host.Outcome State Fault Refusal :=
  match s.frameOf f with
  | none => .refused .noSuchOperand
  | some f =>
    if buf.size < 2 * f.length.toNat + 1 then .refused .hexBufferTooSmall
    else .next ((s.setMem (s.mem.writeBytes buf.base (hexBytes f))).returns .nothing)

/-- `FRAME.SETTS` as a function (`40_frame.md` R139). -/
def setTimestamp (f : Frame) (t : Nat) : Except Refusal Frame :=
  match f.timestamp with
  | some _ => .error .timestampAlreadySet
  | none => .ok { f with timestamp := some t }

/-- `FRAME.SETTS` (`40_frame.md` R139). -/
def execFrameSetts (f : FrameRef) (t : Nat) (s : State) : Host.Outcome State Fault Refusal :=
  match s.frameOf f with
  | none => .refused .noSuchOperand
  | some f =>
    match setTimestamp f (timestampOf s.cfg t) with
    | .error e => .refused e
    | .ok g => .next (s.returns (.frame g))

end Sys2Proof.Machine
end

