-- ==== Sys2Proof/Machine/Lvs.lean ====
section
/-! DEFINITION. The LatestValueSlot operations (`41_latest_value_slot.md` R160 to R169): their steps, the whole
operations, and the meanings. -/

namespace Sys2Proof.Machine

/-- `cells[i]` (`10_state.md` R25). -/
def Cells3.get {α : Type} (c : Cells3 α) (i : Fin 3) : Option α :=
  match i with
  | 0 => c.c0
  | 1 => c.c1
  | 2 => c.c2

/-- Cell `i` given a content; `none` is no value. -/
def Cells3.set {α : Type} (c : Cells3 α) (i : Fin 3) (e : Option α) : Cells3 α :=
  match i with
  | 0 => { c with c0 := e }
  | 1 => { c with c1 := e }
  | 2 => { c with c2 := e }

/-- The producing cell given a content: `none`, no value, while it is being written (log entry 29), then the value
(`41_latest_value_slot.md` R161, step 1). -/
def Lvs.setProducing {α : Type} (l : Lvs α) (e : Option α) : Lvs α := { l with cells := l.cells.set l.producing e }

/-- `swap(producing, transfer)` (`41_latest_value_slot.md` R161). -/
def Lvs.swapProducing {α : Type} (l : Lvs α) : Lvs α := { l with producing := l.transfer, transfer := l.producing }

/-- `swap(transfer, consuming)` (`41_latest_value_slot.md` R162). -/
def Lvs.swapConsuming {α : Type} (l : Lvs α) : Lvs α := { l with transfer := l.consuming, consuming := l.transfer }

/-- `stale <- b`. -/
def Lvs.setStale {α : Type} (l : Lvs α) (b : Bool) : Lvs α := { l with stale := b }

/-- `LVS.PUSH` whole (`41_latest_value_slot.md` R161). -/
def Lvs.push {α : Type} (l : Lvs α) (v : α) : Lvs α := ((l.setProducing (some v)).swapProducing).setStale false

/-- `LVS.POP` whole (`41_latest_value_slot.md` R162). -/
def Lvs.pop {α : Type} (l : Lvs α) : Bool × Lvs α :=
  if l.stale then (false, l) else (true, l.swapConsuming.setStale true)

/-- The content of the `consuming` cell (`41_latest_value_slot.md` R163). -/
def Lvs.read {α : Type} (l : Lvs α) : Option α := l.cells.get l.consuming

/-- One step of a LatestValueSlot operation: the instance after it, and what comes next or the result. Under
`Fused` the exchange and the flag are one step (`41_latest_value_slot.md` R161, R162), under `Split` two (R168).
The cell write is two steps, between which the cell holds no value (`20_memory.md` R68, log entry 29).

R168 gives the steps of `Split` and also says that they differ from `Fused` in one interleaving only, with the ISR
the consumer. By the steps there is a second one, with the ISR the producer: a whole push between the exchange and
the flag write of a pop of main is followed by `stale <- true`, and its value is never delivered.
The model follows the steps (DESIGN CHOICE, log entry 30). -/
def LvsTask.step {α : Type} (a : LvsAtomicity) (t : LvsTask α) (l : Lvs α) : Lvs α × (LvsTask α ⊕ OpResult) :=
  match t with
  | .pushOpen v => (l.setProducing none, .inl (.pushWrite v))
  | .pushWrite v => (l.setProducing (some v), .inl .pushSwap)
  | .pushSwap =>
    match a with
    | .fused => (l.swapProducing.setStale false, .inr .nothing)
    | .split => (l.swapProducing, .inl .pushFlag)
  | .pushFlag => (l.setStale false, .inr .nothing)
  | .popTest =>
    match a with
    | .fused => (l.pop.2, .inr (.bool l.pop.1))
    | .split => if l.stale then (l, .inr (.bool false)) else (l, .inl .popSwap)
  | .popSwap => (l.swapConsuming, .inl .popFlag)
  | .popFlag => (l.setStale true, .inr (.bool true))

/-- `LVS.PUSH` (`41_latest_value_slot.md` R161, R167). -/
def execLvsPush (l : Nat) (v : ValueRef) (s : State) : Host.Outcome State Fault Refusal :=
  match s.lvs[l]?, s.valueOf v with
  | some q, some v =>
    if s.agent = q.roles.producer then .next ((s.setLvs l (q.push v)).returns .nothing)
    else .refused .spscViolation
  | _, _ => .refused .noSuchOperand

/-- `LVS.POP` (`41_latest_value_slot.md` R162, R167). -/
def execLvsPop (l : Nat) (s : State) : Host.Outcome State Fault Refusal :=
  match s.lvs[l]? with
  | none => .refused .noSuchOperand
  | some q =>
    if s.agent = q.roles.consumer then .next ((s.setLvs l q.pop.2).returns (.bool q.pop.1))
    else .refused .spscViolation

/-- `LVS.READ` (`41_latest_value_slot.md` R163, R167). -/
def execLvsRead (l : Nat) (s : State) : Host.Outcome State Fault Refusal :=
  match s.lvs[l]? with
  | none => .refused .noSuchOperand
  | some q =>
    if s.agent = q.roles.consumer then
      match q.read with
      | none => .refused .readBeforePop
      | some v => .next (s.returns (.value v))
    else .refused .spscViolation

end Sys2Proof.Machine
end

