-- ==== Sys2Proof/Machine/Dispatch.lean ====
section
/-! DEFINITION. The meaning of every operation, by constructor (`30_encoding.md` R91). -/

namespace Sys2Proof.Machine

def exec (i : Instr) (s : State) : Host.Outcome State Fault Refusal :=
  match i with
  | .frameNew id length d ext => Sys2Proof.Machine.execFrameNew id length d ext s
  | .frameFromRx h0 h1 dl dh => Sys2Proof.Machine.execFrameFromRx h0 h1 dl dh s
  | .frameTxhdr f => Sys2Proof.Machine.execFrameTxhdr f s
  | .frameHex f buf => Sys2Proof.Machine.execFrameHex f buf s
  | .frameSetts f t => Sys2Proof.Machine.execFrameSetts f t s
  | .lvsPush l v => Sys2Proof.Machine.execLvsPush l v s
  | .lvsPop l => Sys2Proof.Machine.execLvsPop l s
  | .lvsRead l => Sys2Proof.Machine.execLvsRead l s
  | .ringPush r v => Sys2Proof.Machine.execRingPush r v s
  | .ringPop r => Sys2Proof.Machine.execRingPop r s
  | .ringPeek r => Sys2Proof.Machine.execRingPeek r s
  | .ringRead r => Sys2Proof.Machine.execRingRead r s
  | .xcvrInit x baud ext => Sys2Proof.Machine.execXcvrInit x baud ext s
  | .xcvrStart x => Sys2Proof.Machine.execXcvrStart x s
  | .xcvrStop x => Sys2Proof.Machine.execXcvrStop x s
  | .xcvrFilterAll x => Sys2Proof.Machine.execXcvrFilterAll x s
  | .xcvrFilterList x ids ext => Sys2Proof.Machine.execXcvrFilterList x ids ext s
  | .xcvrSend x f => Sys2Proof.Machine.execXcvrSend x f s
  | .xcvrReceive x fifo => Sys2Proof.Machine.execXcvrReceive x fifo s
  | .xcvrTxieOn x => Sys2Proof.Machine.execXcvrTxieOn x s
  | .xcvrTxieOff x => Sys2Proof.Machine.execXcvrTxieOff x s
  | .chanInit c baud ext filter => Sys2Proof.Machine.execChanInit c baud ext filter s
  | .chanStart c => Sys2Proof.Machine.execChanStart c s
  | .chanSend c f => Sys2Proof.Machine.execChanSend c f s
  | .chanTxDrain c => Sys2Proof.Machine.execChanTxDrain c s
  | .chanReceive c => Sys2Proof.Machine.execChanReceive c s

end Sys2Proof.Machine
end

