-- ==== Sys2Proof/Machine/Task.lean ====
section
/-! DEFINITION. An operation taken step by step (`20_memory.md` R68, R70, R71): how it begins, what each of its steps
does, and its steps run to the end. An operation that is one atomic unit (a Transceiver operation), or that reads
and writes nothing any other agent does (a Frame operation but `FRAME.HEX`), is one step, its meaning. Log
entry 14. -/

namespace Sys2Proof.Machine

/-- What one step of an operation leaves: more steps, the end (the result is delivered), or a refusal. -/
inductive TaskOutcome where
  | more (t : Task) (s : State)
  | done (s : State)
  | refused (r : Refusal)
deriving DecidableEq, Repr

/-- The operation ends and returns `r`. -/
def endWith (s : State) (r : OpResult) : TaskOutcome := .done (s.returns r)

/-- The first step of an operation invoked by `s.agent`: operands are taken, and a container operation is refused to
an agent not fixed for its role (`41_latest_value_slot.md` R167, `42_bounded_ring.md` R187). -/
def Task.begin (i : Instr) (s : State) : Except Refusal Task :=
  match i with
  | .lvsPush l v =>
    match s.lvs[l]?, s.valueOf v with
    | some q, some v => if s.agent = q.roles.producer then .ok (.lvs l (.pushOpen v)) else .error .spscViolation
    | _, _ => .error .noSuchOperand
  | .lvsPop l =>
    match s.lvs[l]? with
    | some q => if s.agent = q.roles.consumer then .ok (.lvs l .popTest) else .error .spscViolation
    | none => .error .noSuchOperand
  | .ringPush r v =>
    match s.rings[r]?, s.valueOf v with
    | some q, some v => if s.agent = q.roles.producer then .ok (.ring r (.pushFront v)) else .error .spscViolation
    | _, _ => .error .noSuchOperand
  | .ringPop r =>
    match s.rings[r]? with
    | some q => if s.agent = q.roles.consumer then .ok (.ring r .popFront) else .error .spscViolation
    | none => .error .noSuchOperand
  | .ringPeek r =>
    match s.rings[r]? with
    | some q => if s.agent = q.roles.consumer then .ok (.ring r .peekFront) else .error .spscViolation
    | none => .error .noSuchOperand
  | .chanInit c baud ext filter => .ok (.initGate c baud ext filter)
  | .chanStart c => .ok (.startGate c)
  | .chanSend c f =>
    match s.frameOf f with
    | some f => .ok (.sendGate c f)
    | none => .error .noSuchOperand
  | .chanTxDrain c => .ok (.drainGate c)
  | .chanReceive c => .ok (.recvGate c)
  | .frameNew id length d ext => .ok (.whole (.frameNew id length d ext))
  | .frameFromRx h0 h1 dl dh => .ok (.whole (.frameFromRx h0 h1 dl dh))
  | .frameTxhdr f => .ok (.whole (.frameTxhdr f))
  | .frameHex f buf =>
    match s.frameOf f with
    | some f =>
      if buf.size < 2 * f.length.toNat + 1 then .error .hexBufferTooSmall else .ok (.hex buf.base (hexBytes f))
    | none => .error .noSuchOperand
  | .frameSetts f t => .ok (.whole (.frameSetts f t))
  | .lvsRead l =>
    match s.lvs[l]? with
    | some q => if s.agent = q.roles.consumer then .ok (.lvsTest l) else .error .spscViolation
    | none => .error .noSuchOperand
  | .ringRead r =>
    match s.rings[r]? with
    | some q => if s.agent = q.roles.consumer then .ok (.ringTest r) else .error .spscViolation
    | none => .error .noSuchOperand
  | .xcvrInit x baud ext => .ok (.whole (.xcvrInit x baud ext))
  | .xcvrStart x => .ok (.whole (.xcvrStart x))
  | .xcvrStop x => .ok (.whole (.xcvrStop x))
  | .xcvrFilterAll x => .ok (.whole (.xcvrFilterAll x))
  | .xcvrFilterList x ids ext => .ok (.whole (.xcvrFilterList x ids ext))
  | .xcvrSend x f => .ok (.whole (.xcvrSend x f))
  | .xcvrReceive x fifo => .ok (.whole (.xcvrReceive x fifo))
  | .xcvrTxieOn x => .ok (.whole (.xcvrTxieOn x))
  | .xcvrTxieOff x => .ok (.whole (.xcvrTxieOff x))

/-- The two lines of a read of a container (`41_latest_value_slot.md` R163, `42_bounded_ring.md` R184): nothing to
read is refused; then the value goes on to `k`. -/
def testLine {α : Type} (e : Option α) (r : Refusal) (k : α → TaskOutcome) : TaskOutcome :=
  match e with
  | some v => k v
  | none => .refused r

/-- A step that reads or writes Channel `c`. -/
def withChan (c : Nat) (s : State) (k : Chan → TaskOutcome) : TaskOutcome :=
  match s.chans[c]? with
  | some ch => k ch
  | none => .refused .noSuchOperand

/-- The step that reads a Channel's gate (`45_channel.md` R271): in `Failed` the operation ends with `failed`. -/
def gateStep (op : ChanOp) (failed : OpResult) (s : State) (ch : Chan) (k : TaskOutcome) : TaskOutcome :=
  match chanGate op ch.state with
  | .refuse e => .refused e
  | .failed => endWith s failed
  | .run => k

/-- The step that is an inner call: a refusal of it is a refusal of the operation. -/
def callStep {α : Type} (r : Reply α) (k : α → State → TaskOutcome) : TaskOutcome :=
  match r with
  | .ok p => k p.1 p.2
  | .error e => .refused e

/-- One step of a ring operation on a Channel's retry ring; `more` wraps what is left, `done` takes the Boolean. -/
def retryStep (c : Nat) (t : RingTask Frame) (s : State) (more : RingTask Frame → Task)
    (done : Bool → State → TaskOutcome) : TaskOutcome :=
  withChan c s fun ch =>
    let q := t.step ch.retry
    let s := s.setChan c { ch with retry := q.1 }
    match q.2 with
    | .inl t => .more (more t) s
    | .inr b => done b s

/-- One step of an operation, by where it stands. -/
def Task.step (t : Task) (s : State) : TaskOutcome :=
  match t with
  | .whole i =>
    match exec i s with
    | .next s => .done s
    | .refused r => .refused r
    | .fault f => nomatch f
  | .hex _ [] => endWith s .nothing
  | .hex a [b] => endWith (s.setMem (s.mem.write a b)) .nothing
  | .hex a (b :: c :: l) => .more (.hex (a + 1) (c :: l)) (s.setMem (s.mem.write a b))
  | .lvsTest l =>
    match s.lvs[l]? with
    | none => .refused .noSuchOperand
    | some q => testLine q.read .readBeforePop fun _ => .more (.lvsTake l) s
  | .lvsTake l =>
    match s.lvs[l]? with
    | none => .refused .noSuchOperand
    | some q => testLine q.read .readBeforePop fun v => endWith s (.value v)
  | .ringTest r =>
    match s.rings[r]? with
    | none => .refused .noSuchOperand
    | some q => testLine q.staged .readBeforeStage fun _ => .more (.ringTake r) s
  | .ringTake r =>
    match s.rings[r]? with
    | none => .refused .noSuchOperand
    | some q => testLine q.staged .readBeforeStage fun v => endWith s (.value v)
  | .lvs l t =>
    match s.lvs[l]? with
    | none => .refused .noSuchOperand
    | some q =>
      let p := t.step s.cfg.lvsAtomicity q
      let s := s.setLvs l p.1
      match p.2 with
      | .inl t => .more (.lvs l t) s
      | .inr r => endWith s r
  | .ring r t =>
    match s.rings[r]? with
    | none => .refused .noSuchOperand
    | some q =>
      let p := t.step q
      let s := s.setRing r p.1
      match p.2 with
      | .inl t => .more (.ring r t) s
      | .inr b => endWith s (.bool b)
  | .initGate c baud ext filter =>
    withChan c s fun ch => gateStep .init (.status .error) s ch (.more (.initXcvr c baud ext filter) s)
  | .initXcvr c baud ext filter =>
    withChan c s fun ch =>
      callStep (callXcvrInit ch.xcvr baud ext s) fun st s =>
        .more (if st = .ok then .initFilter c filter else .setChState c .failed .error) s
  | .initFilter c filter =>
    withChan c s fun ch =>
      callStep (callFilter ch.xcvr filter s) fun st s =>
        .more (if st = .ok then .setChState c .filterConfigured .ok else .setChState c .failed .error) s
  | .startGate c => withChan c s fun ch => gateStep .start (.status .error) s ch (.more (.startXcvr c) s)
  | .startXcvr c =>
    withChan c s fun ch =>
      callStep (callXcvrStart ch.xcvr s) fun st s =>
        .more (if st = .ok then .setChState c .running .ok else .setChState c .failed .error) s
  | .setChState c st res => withChan c s fun ch => endWith (s.setChan c { ch with state := st }) (.status res)
  | .sendGate c f =>
    withChan c s fun ch =>
      gateStep .transfer (.status .error) s ch
        (if s.agent = ch.retry.roles.producer then .more (.sendXcvr c f) s else .refused .spscViolation)
  | .sendXcvr c f =>
    withChan c s fun ch =>
      callStep (callXcvrSend ch.xcvr f s) fun st s =>
        if st = .ok then endWith s (.status .ok) else .more (.sendPush c (.pushFront f)) s
  | .sendPush c t => retryStep c t s (Task.sendPush c) fun full s => .more (.sendTxie c full) s
  | .sendTxie c full =>
    withChan c s fun ch =>
      callStep (callXcvrTxie true ch.xcvr s) fun _ s =>
        if full then .more (.sendDrop c) s else endWith s (.status .ok)
  | .sendDrop c =>
    withChan c s fun ch => endWith (s.setChan c { ch with dropCount := ch.dropCount + 1 }) (.status .full)
  | .drainGate c =>
    withChan c s fun ch =>
      gateStep .transfer .nothing s ch
        (if s.agent = ch.retry.roles.consumer then .more (.drainPeek c .peekFront) s else .refused .spscViolation)
  | .drainPeek c t =>
    retryStep c t s (Task.drainPeek c) fun some s => .more (if some then .drainRead c else .drainTest c) s
  | .drainRead c =>
    withChan c s fun ch => testLine ch.retry.staged .readBeforeStage fun _ => .more (.drainTake c) s
  | .drainTake c =>
    withChan c s fun ch => testLine ch.retry.staged .readBeforeStage fun f => .more (.drainXcvr c f) s
  | .drainXcvr c f =>
    withChan c s fun ch =>
      callStep (callXcvrSend ch.xcvr f s) fun st s =>
        .more (if st = .ok then .drainPop c .popFront else .drainTest c) s
  | .drainPop c t => retryStep c t s (Task.drainPop c) fun _ s => .more (.drainTest c) s
  | .drainTest c =>
    withChan c s fun ch => if ch.retry.isEmpty then .more (.drainTxie c) s else endWith s .nothing
  | .drainTxie c =>
    withChan c s fun ch => callStep (callXcvrTxie false ch.xcvr s) fun _ s => endWith s .nothing
  | .recvGate c =>
    withChan c s fun ch => gateStep .transfer (.received .error none) s ch (.more (.recvXcvr c) s)
  | .recvXcvr c =>
    withChan c s fun ch =>
      callStep (callXcvrReceive ch.xcvr ch.fifo s) fun r s => endWith s (.received r.1 r.2)

/-- At most `n` steps of an operation with no other agent's step between them. -/
def Task.run : Nat → Task → State → TaskOutcome
  | 0, t, s => .more t s
  | n + 1, t, s =>
    match t.step s with
    | .more t s => Task.run n t s
    | .done s => .done s
    | .refused r => .refused r

/-- As many steps as any operation takes (`20_memory.md` R75: "Every operation completes in a number of steps bounded by
a constant"): `FRAME.HEX` of a length byte of 255, which no Frame that exists has, would write 511 bytes. -/
def Task.bound : Nat := 512

/-- An operation begun and taken step by step to its end, with no other agent's step between. -/
def runSteps (i : Instr) (s : State) : TaskOutcome :=
  match Task.begin i s with
  | .ok t => Task.run Task.bound t s
  | .error e => .refused e

end Sys2Proof.Machine
end

