-- ==== Sys2Proof/Machine/Schedule.lean ====
section
/-! DEFINITION. What an input does: fetching a command and its operands, the turn of each context (`20_memory.md`
R71), serving an interrupt (`60_exceptions.md` R305 to R314), critical sections (`20_memory.md` R72), the bus agent,
power-on. An event whose condition does not hold is no step of any run and changes nothing (log entry 16). -/

namespace Sys2Proof.Machine

/-- The refusal of a command that selects no operation (`30_encoding.md` R92). -/
def refusalOfDecode : DecodeError → Refusal
  | .unassignedCode => .unassignedCode
  | .noCommand => .unassignedCode

/-- Fetch: the command code and its operands decoded and checked. -/
def fetch (code : Byte) (ops : Operands) (s : State) : Except Refusal Instr :=
  match decodeBytes [code] ops with
  | .error e => .error (refusalOfDecode e)
  | .ok (i, _) => if i.wf s.cfg then .ok i else .error .noSuchOperand

/-- The main context may take a step: no hook and no operation of the ISR context runs ("all its steps occur before
the next step of the main context", `20_memory.md` R71). -/
def State.mainMayMove (s : State) : Bool := s.hook.isNone && s.isr.task.isNone

/-- The ISR context may begin an operation: inside `app_dispatch`, or as another handler when a hook could be
entered (`60_exceptions.md` R308, R312, R314; log entry 17). -/
def State.isrMayBegin (s : State) : Bool :=
  s.isr.task.isNone &&
    match s.hook with
    | none => !s.masked
    | some (.dispatch _ _) => true
    | some (.tx _) => false
    | some (.rx _) => false

/-- A context may begin an operation: it is its turn and it runs one operation at a time. -/
def State.mayBegin (s : State) : Ctx → Bool
  | .main => s.mainMayMove && s.main.task.isNone
  | .isr => s.isrMayBegin

/-- A context may take the next step of its operation. -/
def State.mayAdvance (s : State) : Ctx → Bool
  | .main => s.mainMayMove
  | .isr => true

/-- After the end of an operation of context `c`: its task is over, and a hook whose call it was goes on. -/
def finishTask (c : Ctx) (s : State) : State :=
  match c with
  | .main => s.setTask .main none
  | .isr => (s.setTask .isr none).continueHook

/-- The outcome of some steps of context `c`'s operation. -/
def settle (c : Ctx) (o : TaskOutcome) : Host.Outcome State Fault Refusal :=
  match o with
  | .more t s => .next (s.setTask c (some t))
  | .done s => .next (finishTask c s)
  | .refused r => .refused r

/-- `invoke`: a whole operation. -/
def runInvoke (c : Ctx) (code : Byte) (ops : Operands) (s : State) : Host.Outcome State Fault Refusal :=
  if s.mayBegin c then
    match fetch code ops s with
    | .error e => .refused e
    | .ok i => exec i (s.setAgent c)
  else .next s

/-- `start`: an operation begun, to be taken step by step. -/
def runStart (c : Ctx) (code : Byte) (ops : Operands) (s : State) : Host.Outcome State Fault Refusal :=
  if s.mayBegin c then
    match fetch code ops s with
    | .error e => .refused e
    | .ok i =>
      match Task.begin i (s.setAgent c) with
      | .error e => .refused e
      | .ok t => .next ((s.setAgent c).setTask c (some t))
  else .next s

/-- `advance` and `finish`: at most `n` steps of the operation a context is part-way through. -/
def runTask (n : Nat) (c : Ctx) (s : State) : Host.Outcome State Fault Refusal :=
  match (s.ctx c).task with
  | none => .next s
  | some t => if s.mayAdvance c then settle c (t.run n (s.setAgent c)) else .next s

/-- `bus`: one step of the bus agent, if it is enabled (`43_transceiver.md` R214 to R218). -/
def runBus (x : Nat) (b : BusStep) (s : State) : State :=
  match s.xcvrs[x]? with
  | none => s
  | some r =>
    match busStep s.cfg b r with
    | none => s
    | some r => s.setXcvr x r

/-- The first line of the TX hook, under `CompletionEvent` only (`60_exceptions.md` R311): `XC_STAT.TXC <- 0`. -/
def Xcvr.acknowledgeTx (c : Config) (r : Xcvr) : Xcvr :=
  match c.txIrqKind with
  | .completionEvent => { r with stat := { r.stat with txc := false } }
  | .slotFreeLevel => r

/-- `irqTx`: the TX hook entered when its request is asserted (`60_exceptions.md` R307, R310, R311). -/
def runIrqTx (c : Nat) (s : State) : State :=
  match s.chans[c]? with
  | none => s
  | some k =>
    match s.xcvrs[k.xcvr]? with
    | none => s
    | some r =>
      if r.irqTx s.cfg && s.canEnterHook then
        (s.setXcvr k.xcvr (r.acknowledgeTx s.cfg)).enterHook (.tx c) (.drainGate c)
      else s

/-- `irqRx`: the RX hook entered when the request of FIFO `f` is asserted (`60_exceptions.md` R306, R310, R312). -/
def runIrqRx (c f : Nat) (s : State) : State :=
  match s.chans[c]? with
  | none => s
  | some k =>
    match s.xcvrs[k.xcvr]? with
    | none => s
    | some r => if r.irqRx f && s.canEnterHook then s.enterHook (.rx c) (.recvGate c) else s

/-- `hookReturn`: `app_dispatch` reaches its end (`60_exceptions.md` R312, R314). -/
def runHookReturn (s : State) : State :=
  match s.hook with
  | some (.dispatch _ _) => if s.isr.task.isNone then s.leaveHook else s
  | _ => s

/-- `enterCritical`: hooks are held off; the previous mask state is kept (`20_memory.md` R72). -/
def runEnterCritical (s : State) : State :=
  if s.mayBegin .main then { s with saved := s.masked :: s.saved, masked := true } else s

/-- `leaveCritical`: "The previous mask state is restored, not unconditionally enabled" (`20_memory.md` R72). -/
def runLeaveCritical (s : State) : State :=
  if s.mayBegin .main then
    match s.saved with
    | [] => s
    | m :: l => { s with masked := m, saved := l }
  else s

/-- `powerOn`: every piece of state at its reset value (`70_reset_and_hazards.md` R340, R342); the inputs still to come
are not state of the block (log entry 19). -/
def runPowerOn (s : State) : State :=
  { State.resetWith s.cfg with schedule := s.schedule, draws := s.draws }

/-- What one input does. -/
def runEvent (e : Event) (s : State) : Host.Outcome State Fault Refusal :=
  match e with
  | .invoke c code ops => runInvoke c code ops s
  | .start c code ops => runStart c code ops s
  | .advance c => runTask 1 c s
  | .finish c => runTask Task.bound c s
  | .bus x b => .next (runBus x b s)
  | .irqTx c => .next (runIrqTx c s)
  | .irqRx c f => .next (runIrqRx c f s)
  | .hookReturn => .next (runHookReturn s)
  | .enterCritical => .next (runEnterCritical s)
  | .leaveCritical => .next (runLeaveCritical s)
  | .powerOn => .next (runPowerOn s)

/-- The next input taken from the schedule. Without one nothing happens: "nothing runs until an agent invokes an
operation" (`10_state.md` R47, `70_reset_and_hazards.md` R341). -/
def runNext (s : State) : Host.Outcome State Fault Refusal :=
  match s.schedule with
  | [] => .next s
  | e :: l => runEvent e { s with schedule := l }

/-- The context that may execute an operation on the instance it names: the role fixed for a container operation
(`41_latest_value_slot.md` R167, `42_bounded_ring.md` R187, `45_channel.md` R274, R275), the main context for
every other. -/
def State.roleFor (s : State) : Instr → Ctx
  | .lvsPush l _ => ((s.lvs[l]?).map fun q => q.roles.producer).getD .main
  | .lvsPop l => ((s.lvs[l]?).map fun q => q.roles.consumer).getD .main
  | .lvsRead l => ((s.lvs[l]?).map fun q => q.roles.consumer).getD .main
  | .ringPush r _ => ((s.rings[r]?).map fun q => q.roles.producer).getD .main
  | .ringPop r => ((s.rings[r]?).map fun q => q.roles.consumer).getD .main
  | .ringPeek r => ((s.rings[r]?).map fun q => q.roles.consumer).getD .main
  | .ringRead r => ((s.rings[r]?).map fun q => q.roles.consumer).getD .main
  | .chanSend c _ => ((s.chans[c]?).map fun k => k.retry.roles.producer).getD .main
  | .chanTxDrain c => ((s.chans[c]?).map fun k => k.retry.roles.consumer).getD .main
  | .frameNew _ _ _ _ => .main
  | .frameFromRx _ _ _ _ => .main
  | .frameTxhdr _ => .main
  | .frameHex _ _ => .main
  | .frameSetts _ _ => .main
  | .xcvrInit _ _ _ => .main
  | .xcvrStart _ => .main
  | .xcvrStop _ => .main
  | .xcvrFilterAll _ => .main
  | .xcvrFilterList _ _ _ => .main
  | .xcvrSend _ _ => .main
  | .xcvrReceive _ _ => .main
  | .xcvrTxieOn _ => .main
  | .xcvrTxieOff _ => .main
  | .chanInit _ _ _ _ => .main
  | .chanStart _ => .main
  | .chanReceive _ => .main

/-- The context that invokes the command code `code` with operands of zeros. -/
def callerOf (code : Byte) (s : State) : Ctx :=
  match decode code Operands.zeros with
  | .ok i => s.roleFor i
  | .error _ => .main

/-- A command placed as the next input: the context that may execute it invokes it at once, with operands of zeros.
No hook, critical section or part-way operation stands before it. -/
def State.placeCommand (s : State) (code : Byte) : State :=
  { s with schedule := .invoke (callerOf code s) code Operands.zeros :: s.schedule
           main := { s.main with task := none }
           isr := { s.isr with task := none }
           hook := none
           masked := false
           saved := [] }

end Sys2Proof.Machine
end

