-- ==== Sys2Proof/Machine/Step.lean ====
section
/-! DEFINITION. One step of the block: the next input is taken (log entry 2). A configuration record that is not
well formed is rejected before any step (`00_scope.md` R8, `60_exceptions.md` R303, D51). -/

namespace Sys2Proof.Machine

/-- One step. -/
def step (s : State) : Host.Outcome State Fault Refusal :=
  if s.cfg.wf then runNext s else .refused .illFormedConfig

/-- The state with the command `w` of the opcode table as its next input. A command is one byte, so bits above it
are no part of it. -/
def State.withFetchWord (s : State) (_nbits w : Nat) : State := s.placeCommand (BitVec.ofNat 8 w)

end Sys2Proof.Machine
end

