-- ==== Sys2Proof/Safety.lean ====
section
/-! DEFINITION. What counts as a safe run: the invariant of the block (`10_state.md` R23, R26, R29, R30, R33 to R42),
under every interleaving of the steps of the two contexts and the bus agent (`20_memory.md` R70, R71), and the
resting point `quiescent` (`70_reset_and_hazards.md` R360). A step that answers `next` stays inside the rules of the
spec; a step that answers `refused` leaves them (`00_scope.md` R11). -/

namespace Sys2Proof.Machine

/-- A LatestValueSlot: the three role indices are pairwise different (`10_state.md` R26, `41_latest_value_slot.md`
R166), every value is well formed. -/
structure Lvs.Ok {α : Type} (wf : α → Bool) (q : Lvs α) : Prop where
  producingTransfer : q.producing ≠ q.transfer
  transferConsuming : q.transfer ≠ q.consuming
  producingConsuming : q.producing ≠ q.consuming
  values : ∀ i v, q.cells.get i = some v → wf v = true

/-- A BoundedRing: `N >= 2`, every unread cell has been written (`10_state.md` R29, R30), every value is well
formed. -/
structure Ring.Ok {α : Type} (wf : α → Bool) (q : Ring α) : Prop where
  size : 2 ≤ q.n
  written : ∀ i, i < q.count → (q.cellAt (q.index (q.front + i))).isSome = true
  values : ∀ i v, q.cellAt i = some v → wf v = true
  staged : ∀ v, q.staged = some v → wf v = true

/-- A register file: the sizes are the configuration's (`10_state.md` R37 to R39), no FIFO holds more than
`RX_FIFO_DEPTH` elements, no bit of `XC_TXPEND` at or above `TX_SLOTS` is set. -/
structure Xcvr.Ok (c : Config) (r : Xcvr) : Prop where
  banks : r.fbank.length = c.params.bankCount
  slots : ∀ bank ∈ r.fbank, bank.length = c.params.slotsPerBank
  tx : r.tx.length = c.params.txSlots
  fifos : r.rxfifo.length = c.params.rxFifos
  depth : ∀ q ∈ r.rxfifo, q.length ≤ c.params.rxFifoDepth
  pending : ∀ k, c.params.txSlots ≤ k → r.pending k = false

/-- The law of `30_encoding.md` R112 under a family: for every identifier, kind, length of at most 8 and data, each decoder
gives back what its encoder was given (`mask_id(id, ext)` and `ext`, the length, the data bytes). -/
def EncodingRoundTrip (fam : Family) : Prop :=
  ∀ (id : Word) (ext : Bool) (len : Byte) (d : Bytes8), len.toNat ≤ 8 →
    decH0 fam (encH0 fam (maskId id ext) ext) = (maskId id ext, ext) ∧
    dlcDecode (dlcEncode len) = len ∧ decH1 fam (encH1 fam (len.setWidth 32)) = dlcEncode len ∧
    (∀ i < 8, laneByte (packDl d) (packDh d) i = d.get i) ∧
    ∀ e : Element, e = frameToElement fam (newFrame id len d ext) →
      (fromRx fam e).id = maskId id ext ∧ (fromRx fam e).isExtended = ext ∧ (fromRx fam e).length = len ∧
      ∀ i < len.toNat, (fromRx fam e).data.get i = d.get i

/-- The operation is the producer's. -/
def RingTask.isPush {α : Type} : RingTask α → Bool
  | .pushFront _ => true
  | .pushBack _ _ => true
  | .pushOpen _ _ _ => true
  | .pushWrite _ _ _ => true
  | .pushPublish _ => true
  | .popFront => false
  | .popBack _ => false
  | .popStage _ => false
  | .popPublish _ => false
  | .peekFront => false
  | .peekBack _ => false
  | .peekStage _ => false

/-- The value an operation part-way carries, if any. -/
def RingTask.carried {α : Type} : RingTask α → Option α
  | .pushFront v => some v
  | .pushBack v _ => some v
  | .pushOpen v _ _ => some v
  | .pushWrite v _ _ => some v
  | .pushPublish _ => none
  | .popFront => none
  | .popBack _ => none
  | .popStage _ => none
  | .popPublish _ => none
  | .peekFront => none
  | .peekBack _ => none
  | .peekStage _ => none

/-- What holds of the locals of a ring operation part-way, whatever the other agent has done since its last step:
the producer's cell is still free and still next, the consumer's cell is still the oldest
(`42_bounded_ring.md` R187, R188). -/
def RingTask.Agrees {α : Type} (q : Ring α) : RingTask α → Prop
  | .pushFront _ => True
  | .pushBack _ f => q.next q.back = q.front → q.front = f
  | .pushOpen _ b nb => b = q.back ∧ nb = q.next q.back ∧ q.next q.back ≠ q.front
  | .pushWrite _ b nb => b = q.back ∧ nb = q.next q.back ∧ q.next q.back ≠ q.front
  | .pushPublish nb => nb = q.next q.back ∧ q.next q.back ≠ q.front ∧ (q.cellAt q.back).isSome = true
  | .popFront => True
  | .popBack f => f = q.front
  | .popStage f => f = q.front ∧ q.front ≠ q.back
  | .popPublish f => f = q.front ∧ q.front ≠ q.back ∧ q.staged = q.cellAt q.front
  | .peekFront => True
  | .peekBack f => f = q.front
  | .peekStage f => f = q.front ∧ q.front ≠ q.back

/-- The context fixed for the role of an operation on ring `q`. -/
def RingTask.agent {α : Type} (q : Ring α) (t : RingTask α) : Ctx :=
  if t.isPush then q.roles.producer else q.roles.consumer

/-- A ring operation part-way fits ring `q` and context `c`. -/
structure RingTask.Fits {α : Type} (wf : α → Bool) (c : Ctx) (q : Ring α) (t : RingTask α) : Prop where
  agent : c = t.agent q
  agrees : t.Agrees q
  carried : ∀ v, t.carried = some v → wf v = true

/-- The value a LatestValueSlot operation part-way carries, if any. -/
def LvsTask.carried {α : Type} : LvsTask α → Option α
  | .pushOpen v => some v
  | .pushWrite v => some v
  | .pushSwap => none
  | .pushFlag => none
  | .popTest => none
  | .popSwap => none
  | .popFlag => none

/-- An operation of context `c` part-way fits the state: its values are well formed, a container operation is that of
the role's agent, and its locals agree with the instance. -/
def Task.Fits (c : Ctx) (s : State) : Task → Prop
  | .whole _ => True
  | .lvs _ t => ∀ v, t.carried = some v → v.wf s.cfg = true
  | .ring r t => ∀ q, s.rings[r]? = some q → t.Fits (Value.wf s.cfg) c q
  | .sendGate _ f => f.wf s.cfg = true
  | .sendXcvr k f => f.wf s.cfg = true ∧ ∀ q, s.chans[k]? = some q → c = q.retry.roles.producer
  | .sendPush k t => t.isPush = true ∧ ∀ q, s.chans[k]? = some q → t.Fits (Frame.wf s.cfg) c q.retry
  | .drainPeek k t => t.isPush = false ∧ ∀ q, s.chans[k]? = some q → t.Fits (Frame.wf s.cfg) c q.retry
  | .drainRead k => ∀ q, s.chans[k]? = some q → c = q.retry.roles.consumer
  | .drainTake k => ∀ q, s.chans[k]? = some q → c = q.retry.roles.consumer
  | .drainXcvr k f => f.wf s.cfg = true ∧ ∀ q, s.chans[k]? = some q → c = q.retry.roles.consumer
  | .drainPop k t => t.isPush = false ∧ ∀ q, s.chans[k]? = some q → t.Fits (Frame.wf s.cfg) c q.retry
  | .hex _ _ => True
  | .lvsTest _ => True
  | .lvsTake _ => True
  | .ringTest _ => True
  | .ringTake _ => True
  | .initGate _ _ _ _ => True
  | .initXcvr _ _ _ _ => True
  | .initFilter _ _ => True
  | .startGate _ => True
  | .startXcvr _ => True
  | .setChState _ _ _ => True
  | .sendTxie _ _ => True
  | .sendDrop _ => True
  | .drainGate _ => True
  | .drainTest _ => True
  | .drainTxie _ => True
  | .recvGate _ => True
  | .recvXcvr _ => True

/-- The hook is waiting for the end of the operation it has called. -/
def Hook.calls : Hook → Bool
  | .tx _ => true
  | .rx _ => true
  | .dispatch _ _ => false

/-- The shape of a BoundedRing instance, as its configuration gives it. -/
def Ring.shape {α : Type} (q : Ring α) : RingConfig := { n := q.n, roles := q.roles }

/-- The shape of a Channel, as its configuration gives it. -/
def Chan.shape (k : Chan) : ChanConfig :=
  { xcvr := k.xcvr, fifo := k.fifo, retryN := k.retry.n, sender := k.retry.roles.producer }

/-- The invariant of the block. -/
structure State.Inv (s : State) : Prop where
  config : s.cfg.wf = true
  lvsRoles : s.lvs.map Lvs.roles = s.cfg.lvs
  lvs : ∀ q ∈ s.lvs, q.Ok (Value.wf s.cfg)
  ringShapes : s.rings.map Ring.shape = s.cfg.rings
  rings : ∀ q ∈ s.rings, q.Ok (Value.wf s.cfg)
  xcvrCount : s.xcvrs.length = s.cfg.xcvrs
  xcvrs : ∀ r ∈ s.xcvrs, r.Ok s.cfg
  chanShapes : s.chans.map Chan.shape = s.cfg.chans
  chanConsumers : ∀ k ∈ s.chans, k.retry.roles.consumer = .isr
  chans : ∀ k ∈ s.chans, k.retry.Ok (Frame.wf s.cfg)
  frames : ∀ f ∈ s.frames, f.wf s.cfg = true
  results : ∀ c r, (s.ctx c).result = some r → ∀ f ∈ r.heldFrames, f.wf s.cfg = true
  dispatched : ∀ c f, s.hook = some (.dispatch c f) → f.wf s.cfg = true
  hookCalls : ∀ h, s.hook = some h → h.calls = true → s.isr.task.isSome = true
  tasks : ∀ c t, (s.ctx c).task = some t → t.Fits c s
  memory : s.mem.wf

/-- What no operation of `s.agent` changes, whatever else it does: the configuration, the inputs still to come, whose
turn it is, the hook, the critical sections, the operations the two contexts are part-way through, and everything
of the other context. -/
structure State.SameSetting (s t : State) : Prop where
  cfg : t.cfg = s.cfg
  schedule : t.schedule = s.schedule
  agent : t.agent = s.agent
  hook : t.hook = s.hook
  masked : t.masked = s.masked
  saved : t.saved = s.saved
  task : (t.ctx s.agent).task = (s.ctx s.agent).task
  other : ∀ c, c ≠ s.agent → t.ctx c = s.ctx c

/-- The bytes of caller memory read as before. -/
def State.SameMemory (s t : State) : Prop := ∀ a, t.mem.read a = s.mem.read a

/-- The Frames the callers held are still held, in their places. -/
def State.KeepsFrames (s t : State) : Prop := ∃ l, t.frames = s.frames ++ l

/-- Whole pushes (`some v`) and pops (`none`) one after the other: the accepted values in order, the removed values
in order, the ring left. -/
def Ring.runOps {α : Type} : List (Option α) → Ring α →
    List (Option α) × List (Option α) × Ring α
  | [], q => ([], [], q)
  | some v :: l, q =>
    let r := Ring.runOps l (q.push v).2
    ((if (q.push v).1 then [] else [some v]) ++ r.1, r.2.1, r.2.2)
  | none :: l, q =>
    let r := Ring.runOps l q.pop.2
    (r.1, (if q.pop.1 then [q.pop.2.staged] else []) ++ r.2.1, r.2.2)

/-- The effect of the filter operand of `CHAN.INIT` on a register file (`45_channel.md` R272). -/
def Xcvr.applyFilter (p : FamilyParams) (r : Xcvr) : Filter → Xcvr
  | .all => r.filterAll p
  | .list ids ext => r.filterBy p ext ids

/-- The place of a Channel state in "`Uninitialized -> (init) -> FilterConfigured -> (start) -> Running`", the spec's
`Failed` last. -/
def ChState.rank : ChState → Nat
  | .uninitialized => 0
  | .filterConfigured => 1
  | .running => 2
  | .failed => 3

/-- The resting point of `70_reset_and_hazards.md` R360: no hook is running and no operation is part-way, every retry
ring is empty, no slot is pending, every receive FIFO is empty, `TXIE = 0`. (No refusal mark: a refused run has no
state, log entry 4.) -/
def State.quiescent (s : State) : Bool :=
  s.hook.isNone && s.main.task.isNone && s.isr.task.isNone && s.chans.all (fun k => k.retry.isEmpty) &&
  s.xcvrs.all fun r => r.txpend == 0 && r.rxfifo.all List.isEmpty && !r.ctrl.txie

/-- A run of `k` steps is safe when it ends in a state, not in a refusal. -/
def SafeRun (k : Nat) (s : State) : Prop := ∃ t, Host.Core.run core k s = .next t

end Sys2Proof.Machine
end

