-- ==== Sys2Proof/Certificates/Slice0/Obligations.lean ====
section
/-! DEFINITION. The statements for the provers, from the numbered rules of spec/. "The operation runs" is written
`exec i s = .next …` with the whole next state where the rule gives it; `s.returns r` is `s` with the result `r`
delivered to the caller. -/

section
open Sys2Proof Sys2Proof.Machine

/-! ### Encoding of the operations -/

/-- `30_encoding.md` R91: the command code table, row by row, with every operand by name. -/
def Obligations.CommandCodeTable : Prop := ∀ o : Operands,
  decode 0x00 o = .ok (.frameNew o.id o.length o.data o.extended) ∧
  decode 0x01 o = .ok (.frameFromRx o.h0 o.h1 o.dl o.dh) ∧
  decode 0x02 o = .ok (.frameTxhdr o.frame) ∧
  decode 0x03 o = .ok (.frameHex o.frame o.buf) ∧
  decode 0x04 o = .ok (.frameSetts o.frame o.time) ∧
  decode 0x10 o = .ok (.lvsPush o.inst o.value) ∧
  decode 0x11 o = .ok (.lvsPop o.inst) ∧
  decode 0x12 o = .ok (.lvsRead o.inst) ∧
  decode 0x20 o = .ok (.ringPush o.inst o.value) ∧
  decode 0x21 o = .ok (.ringPop o.inst) ∧
  decode 0x22 o = .ok (.ringPeek o.inst) ∧
  decode 0x23 o = .ok (.ringRead o.inst) ∧
  decode 0x30 o = .ok (.xcvrInit o.inst o.baud o.extended) ∧
  decode 0x31 o = .ok (.xcvrStart o.inst) ∧
  decode 0x32 o = .ok (.xcvrStop o.inst) ∧
  decode 0x33 o = .ok (.xcvrFilterAll o.inst) ∧
  decode 0x34 o = .ok (.xcvrFilterList o.inst o.ids o.extended) ∧
  decode 0x35 o = .ok (.xcvrSend o.inst o.frame) ∧
  decode 0x36 o = .ok (.xcvrReceive o.inst o.fifo) ∧
  decode 0x37 o = .ok (.xcvrTxieOn o.inst) ∧
  decode 0x38 o = .ok (.xcvrTxieOff o.inst) ∧
  decode 0x40 o = .ok (.chanInit o.inst o.baud o.extended o.filter) ∧
  decode 0x41 o = .ok (.chanStart o.inst) ∧
  decode 0x42 o = .ok (.chanSend o.inst o.frame) ∧
  decode 0x43 o = .ok (.chanTxDrain o.inst) ∧
  decode 0x44 o = .ok (.chanReceive o.inst)

/-- `30_encoding.md` R92: the 230 other codes select no operation, and presenting one is refused. -/
def Obligations.UnassignedCodesRefused : Prop :=
  (∀ code : Byte, (∀ i : Instr, (encode i).1 ≠ code) ↔
    code ∉ ([0x00, 0x01, 0x02, 0x03, 0x04, 0x10, 0x11, 0x12, 0x20, 0x21, 0x22, 0x23, 0x30, 0x31, 0x32, 0x33, 0x34,
      0x35, 0x36, 0x37, 0x38, 0x40, 0x41, 0x42, 0x43, 0x44] : List Byte)) ∧
  ∀ (code : Byte) (o : Operands), (∀ i : Instr, (encode i).1 ≠ code) →
    decode code o = .error .unassignedCode ∧
    ∀ (s : State) (c : Ctx) (rest : List Event), s.cfg.wf = true →
      (s.schedule = .invoke c code o :: rest ∨ s.schedule = .start c code o :: rest) →
      ({ s with schedule := rest } : State).mayBegin c = true → step s = .refused .unassignedCode

/-- `30_encoding.md` R90, R91, R93: every operation has one code, which decodes back to it with all its operands. -/
def Obligations.OperationRoundTrip : Prop :=
  (∀ i : Instr, decode (encode i).1 (encode i).2 = .ok i) ∧
  ∀ (code : Byte) (o : Operands) (i : Instr), decode code o = .ok i → (encode i).1 = code

/-! ### Steps -/

/-- A step runs the decoded operation: when the next input is a context's turn to invoke a command whose code and
operands decode to a well-formed operation, the step is `exec` of it, with that context as the agent; when an operand
names an instance or a rate that does not exist, the invocation is refused (log entry 21). The
schedule of inputs is the model's (log entries 2, 15; `00_scope.md` R10, `20_memory.md` R70). No step runs under a
configuration that is not well formed; in a well-formed one every selected rate has an entry in the compiled
family's table (`00_scope.md` R8, `44_transceiver_families.md` R257, `60_exceptions.md` R303, D51; the selection as
a list is log entry 39) and the two agents of a container, a Channel's retry ring among them, are
different (`41_latest_value_slot.md` R167, `42_bounded_ring.md` R187); that a record whose Channel sends from the ISR
context is refused is the model's choice (log entry 9), from `45_channel.md` R275 and `70_reset_and_hazards.md` R345. -/
def Obligations.StepRunsDecodedOperation : Prop :=
  (∀ (s : State) (c : Ctx) (code : Byte) (o : Operands) (rest : List Event) (i : Instr),
    s.cfg.wf = true → s.schedule = .invoke c code o :: rest →
    ({ s with schedule := rest } : State).mayBegin c = true → decode code o = .ok i →
    (i.wf s.cfg = true → step s = exec i (({ s with schedule := rest } : State).setAgent c)) ∧
    (i.wf s.cfg = false → step s = .refused .noSuchOperand)) ∧
  (∀ s : State, s.cfg.wf = false → step s = .refused .illFormedConfig) ∧
  ∀ c : Config, c.wf = true → c.rates ≠ [] ∧ (∀ b ∈ c.rates, c.params.prescalerOf b ≠ none) ∧
    (∀ r ∈ c.lvs, r.producer ≠ r.consumer) ∧ (∀ r ∈ c.rings, r.roles.producer ≠ r.roles.consumer ∧ 2 ≤ r.n) ∧
    ∀ k ∈ c.chans, let q := (Chan.reset k).retry
      q.roles.producer = .main ∧ q.roles.consumer = .isr ∧ q.n = k.retryN ∧ 2 ≤ k.retryN

/-- An operation taken step by step with no other agent's step between, and the operation run whole, end in the same
state or the same refusal (`20_memory.md` R68, R70, `42_bounded_ring.md` R189; log entry 14). -/
def Obligations.StepwiseRunEqualsWholeOperation : Prop :=
  ∀ (i : Instr) (s : State),
    (∀ t, exec i s = .next t → runSteps i s = .done t) ∧ (∀ e, exec i s = .refused e → runSteps i s = .refused e)

/-! ### Frame -/

/-- `30_encoding.md` R101, R102: the length clamp and the identifier mask, and that `FRAME.NEW` applies them silently: it
returns a Frame, and nothing else of the state changes. -/
def Obligations.LengthClampAndIdentifierMask : Prop :=
  (∀ l : Byte, (clampLen l).toNat = min l.toNat 8) ∧
  (∀ id : Word, maskId id false = id &&& 0x000007FF ∧ maskId id true = id &&& 0x1FFFFFFF) ∧
  ∀ (s : State) (id : Word) (l : Byte) (d : Bytes8) (ext : Bool), ∃ f : Frame,
    exec (.frameNew id l d ext) s = .next (s.returns (.frame f)) ∧ f.id = maskId id ext ∧ f.length = clampLen l

/-- `40_frame.md` R131: `FRAME.NEW`. -/
def Obligations.FrameNewResult : Prop :=
  ∀ (s : State) (id : Word) (len : Byte) (d : Bytes8) (ext : Bool), ∃ f : Frame,
    (encode (.frameNew id len d ext)).1 = 0x00 ∧
    exec (.frameNew id len d ext) s = .next (s.returns (.frame f)) ∧
    f.id = (if ext then id &&& 0x1FFFFFFF else id &&& 0x000007FF) ∧ f.length.toNat = min len.toNat 8 ∧
    f.isExtended = ext ∧ f.timestamp = none ∧
    ∀ i < 8, f.data.get i = if i < min len.toNat 8 then d.get i else 0

/-- `40_frame.md` R132: `FRAME.FROM_RX`, under both families. -/
def Obligations.FrameFromRxResult : Prop :=
  ∀ (s : State) (h0 h1 dl dh : Word), ∃ (f : Frame) (code : Nat),
    (encode (.frameFromRx h0 h1 dl dh)).1 = 0x01 ∧
    exec (.frameFromRx h0 h1 dl dh) s = .next (s.returns (.frame f)) ∧
    (s.cfg.family = .classic → f.isExtended = h0.getLsbD 2 ∧
      f.id.toNat = (if h0.getLsbD 2 then h0.toNat / 2 ^ 3 else h0.toNat / 2 ^ 21) ∧ code = h1.toNat % 2 ^ 4) ∧
    (s.cfg.family = .flexible → f.isExtended = h0.getLsbD 30 ∧
      f.id.toNat = (if h0.getLsbD 30 then h0.toNat % 2 ^ 29 else h0.toNat / 2 ^ 18 % 2 ^ 11) ∧
      code = h1.toNat / 2 ^ 16 % 2 ^ 4) ∧
    f.length.toNat = min code 8 ∧ f.timestamp = none ∧
    ∀ i < 8, (f.data.get i).toNat = if i < min code 8 then
        (if i < 4 then dl.toNat / 2 ^ (8 * i) % 2 ^ 8 else dh.toNat / 2 ^ (8 * (i - 4)) % 2 ^ 8) else 0

/-- `40_frame.md` R133: `FRAME.TXHDR`, for a Frame given by value or held by a caller. -/
def Obligations.FrameTxhdrResult : Prop :=
  ∀ (s : State) (r : FrameRef) (f : Frame), s.frameOf r = some f →
    (encode (.frameTxhdr r)).1 = 0x02 ∧
    (s.cfg.family = .classic → exec (.frameTxhdr r) s =
      .next (s.returns (.header (if f.isExtended then (f.id <<< 3) ||| 0b100 else f.id <<< 21)
        (f.length.setWidth 32)))) ∧
    (s.cfg.family = .flexible → exec (.frameTxhdr r) s =
      .next (s.returns (.header (if f.isExtended then f.id ||| 0x40000000 else f.id <<< 18)
        (f.length.setWidth 32 <<< 16))))

/-- `40_frame.md` R138: `FRAME.HEX` writes exactly `2*length+1` bytes of the caller's buffer; a shorter buffer is
refused. The digits are those of `30_encoding.md` R110: `'0'` to `'9'`, then `'A'` to `'F'`. -/
def Obligations.FrameHexResult : Prop :=
  (∀ n : BitVec 4, (n.toNat ≤ 9 → (hexDigit n).toNat = 0x30 + n.toNat) ∧
    (10 ≤ n.toNat → (hexDigit n).toNat = 0x41 + (n.toNat - 10))) ∧
  ∀ (s : State) (r : FrameRef) (f : Frame) (buf : Buffer), s.frameOf r = some f →
    (encode (.frameHex r buf)).1 = 0x03 ∧
    (buf.size < 2 * f.length.toNat + 1 → exec (.frameHex r buf) s = .refused .hexBufferTooSmall) ∧
    (2 * f.length.toNat + 1 ≤ buf.size → ∃ m : Memory,
      exec (.frameHex r buf) s = .next (({ s with mem := m } : State).returns .nothing) ∧
      (∀ i < f.length.toNat,
        m.read (buf.base + 2 * i) = some (hexDigit ((f.data.get i).extractLsb' 4 4)) ∧
        m.read (buf.base + 2 * i + 1) = some (hexDigit ((f.data.get i).extractLsb' 0 4))) ∧
      m.read (buf.base + 2 * f.length.toNat) = some 0x00 ∧
      ∀ a, a < buf.base ∨ buf.base + 2 * f.length.toNat + 1 ≤ a → m.read a = s.mem.read a)

/-- `40_frame.md` R139: `FRAME.SETTS` sets the timestamp once, to an unsigned integer of `TS_WIDTH` bits: the low bits of
the number given (log entry 6). -/
def Obligations.FrameSettsResult : Prop :=
  ∀ (s : State) (r : FrameRef) (f : Frame) (t : Nat), s.frameOf r = some f →
    (encode (.frameSetts r t)).1 = 0x04 ∧
    (f.timestamp = none → exec (.frameSetts r t) s = .next
      (s.returns (.frame { f with timestamp := some (t % 2 ^ s.cfg.tsWidth) }))) ∧
    (f.timestamp ≠ none → exec (.frameSetts r t) s = .refused .timestampAlreadySet)

/-- The frame of the five Frame operations: no register, no container and no draw changes, and no byte of caller
memory but those `FRAME.HEX` writes (`40_frame.md` R130, R138, `20_memory.md` R60, R63). -/
def Obligations.FrameOperationsFrame : Prop :=
  ∀ (s t : State) (i : Instr), (encode i).1.toNat / 16 = 0 → exec i s = .next t →
    s.SameSetting t ∧ t.lvs = s.lvs ∧ t.rings = s.rings ∧ t.xcvrs = s.xcvrs ∧ t.chans = s.chans ∧
    t.draws = s.draws ∧ s.KeepsFrames t ∧
    ((∀ r buf, i ≠ .frameHex r buf) → s.SameMemory t) ∧
    ∀ r buf f, i = .frameHex r buf → s.frameOf r = some f →
      ∀ a, a < buf.base ∨ buf.base + (hexBytes f).length ≤ a → t.mem.read a = s.mem.read a

/-- `30_encoding.md` R112 and `40_frame.md` R136 (laws the spec derives), under both families: the decoders after the
encoders, for every identifier, kind, length of at most 8 and data; and decoding the element that a Frame encodes to
gives the Frame back, but for its timestamp. -/
def Obligations.FrameElementRoundTrip : Prop :=
  (∀ fam : Family, EncodingRoundTrip fam) ∧
  ∀ (c : Config) (fam : Family) (f : Frame), f.wf c = true →
    fromRx fam (frameToElement fam f) = { f with timestamp := none }

/-- `30_encoding.md` R107: on transmit every bit without a value is 0; on receive every such bit is ignored. -/
def Obligations.ReservedHeaderBits : Prop :=
  (∀ (c : Config) (f : Frame), f.wf c = true →
    (∀ j, ((j < 2 ∨ (j < 21 ∧ j ≠ 2 ∧ f.isExtended = false)) →
        (frameToElement .classic f).h0.getLsbD j = false) ∧
      (4 ≤ j → (frameToElement .classic f).h1.getLsbD j = false) ∧
      ((j = 31 ∨ j = 29 ∨ (j < 18 ∧ f.isExtended = false)) →
        (frameToElement .flexible f).h0.getLsbD j = false) ∧
      ((j < 16 ∨ 20 ≤ j) → (frameToElement .flexible f).h1.getLsbD j = false))) ∧
  (∀ e e' : Element, e.dl = e'.dl → e.dh = e'.dh → e.h0.getLsbD 2 = e'.h0.getLsbD 2 →
    (∀ j < 32, 21 ≤ j ∨ (3 ≤ j ∧ e.h0.getLsbD 2 = true) → e.h0.getLsbD j = e'.h0.getLsbD j) →
    (∀ j < 4, e.h1.getLsbD j = e'.h1.getLsbD j) → fromRx .classic e = fromRx .classic e') ∧
  ∀ e e' : Element, e.dl = e'.dl → e.dh = e'.dh → e.h0.getLsbD 30 = e'.h0.getLsbD 30 →
    (∀ j < 29, 18 ≤ j ∨ e.h0.getLsbD 30 = true → e.h0.getLsbD j = e'.h0.getLsbD j) →
    (∀ j, 16 ≤ j → j < 20 → e.h1.getLsbD j = e'.h1.getLsbD j) → fromRx .flexible e = fromRx .flexible e'

/-- `10_state.md` R23: what every Frame that either construction path builds satisfies; and so does the Frame that an
operand gives by its fields, which is the Frame given when that exists (log entry 21). -/
def Obligations.ConstructedFramesAreBounded : Prop :=
  (∀ (s : State) (f : Frame), ∃ g : Frame,
    s.frameOf (.given f) = some g ∧ g.wf s.cfg = true ∧ (f.wf s.cfg = true → g = f)) ∧
  ∀ (s t : State) (i : Instr) (f : Frame),
    ((∃ id len d ext, i = .frameNew id len d ext) ∨ ∃ h0 h1 dl dh, i = .frameFromRx h0 h1 dl dh) →
    exec i s = .next t → (t.ctx s.agent).result = some (.frame f) →
    (f.isExtended = false → f.id.toNat < 2 ^ 11) ∧ (f.isExtended = true → f.id.toNat < 2 ^ 29) ∧
    f.length.toNat ≤ 8 ∧ ∀ i < 8, f.length.toNat ≤ i → f.data.get i = 0

/-! ### LatestValueSlot -/

/-- `41_latest_value_slot.md` R161: `LVS.PUSH` writes the producing cell, exchanges `producing` and `transfer` and
clears `stale`. That the value goes into the producing cell first is the spec's decision D37, that exchange and flag
are one step its decision D36. -/
def Obligations.LvsPushResult : Prop :=
  ∀ (s : State) (l : Nat) (q : Lvs Value) (r : ValueRef) (v : Value), s.lvs[l]? = some q → s.valueOf r = some v →
    (encode (.lvsPush l r)).1 = 0x10 ∧
    (s.agent = q.roles.producer → ∃ p : Lvs Value,
      exec (.lvsPush l r) s = .next ((s.setLvs l p).returns .nothing) ∧
      (∀ j, p.cells.get j = if j = q.producing then some v else q.cells.get j) ∧
      p.producing = q.transfer ∧ p.transfer = q.producing ∧ p.consuming = q.consuming ∧ p.stale = false ∧
      p.roles = q.roles)

/-- `41_latest_value_slot.md` R162: `LVS.POP` by the instance's consumer; a failed pop changes no state. -/
def Obligations.LvsPopResult : Prop :=
  ∀ (s : State) (l : Nat) (q : Lvs Value), s.lvs[l]? = some q →
    (encode (.lvsPop l)).1 = 0x11 ∧
    (s.agent = q.roles.consumer → q.stale = true → exec (.lvsPop l) s = .next (s.returns (.bool false))) ∧
    (s.agent = q.roles.consumer → q.stale = false → exec (.lvsPop l) s =
      .next ((s.setLvs l { q with transfer := q.consuming, consuming := q.transfer, stale := true }).returns
        (.bool true)))

/-- `41_latest_value_slot.md` R163, `42_bounded_ring.md` R184: `LVS.READ` returns the content of the consuming cell,
`RING.READ` the staged value, and neither changes anything. That a read of an unwritten cell, and one with nothing
staged, is refused is the spec's decision D39. -/
def Obligations.ContainerReadResult : Prop :=
  ∀ (s : State) (n : Nat),
    (encode (.lvsRead n)).1 = 0x12 ∧ (encode (.ringRead n)).1 = 0x23 ∧
    (∀ q : Lvs Value, s.lvs[n]? = some q → s.agent = q.roles.consumer →
      (∀ v, q.cells.get q.consuming = some v → exec (.lvsRead n) s = .next (s.returns (.value v))) ∧
      (q.cells.get q.consuming = none → exec (.lvsRead n) s = .refused .readBeforePop)) ∧
    ∀ q : Machine.Ring Value, s.rings[n]? = some q → s.agent = q.roles.consumer →
      (∀ v, q.staged = some v → exec (.ringRead n) s = .next (s.returns (.value v))) ∧
      (q.staged = none → exec (.ringRead n) s = .refused .readBeforeStage)

/-- `41_latest_value_slot.md` R167, `42_bounded_ring.md` R187, `45_channel.md` R274, R275: an operation of a container,
or of a Channel's retry ring, by a context that is not fixed for its role is refused. The refusal is the spec's
decision D39. That the role is tested before anything else (a read before a pop, an inner refusal of the
Transceiver), and in `Running` also when the operation would not have come to the ring, is the model's choice (log
entry 10). -/
def Obligations.ForeignAgentRefused : Prop :=
  ∀ (s : State) (n : Nat) (r : ValueRef) (v : Value) (fr : FrameRef) (f : Frame), s.valueOf r = some v →
    s.frameOf fr = some f →
    (∀ q : Lvs Value, s.lvs[n]? = some q →
      (s.agent ≠ q.roles.producer → exec (.lvsPush n r) s = .refused .spscViolation) ∧
      (s.agent ≠ q.roles.consumer → exec (.lvsPop n) s = .refused .spscViolation ∧
        exec (.lvsRead n) s = .refused .spscViolation)) ∧
    (∀ q : Machine.Ring Value, s.rings[n]? = some q →
      (s.agent ≠ q.roles.producer → exec (.ringPush n r) s = .refused .spscViolation) ∧
      (s.agent ≠ q.roles.consumer → exec (.ringPop n) s = .refused .spscViolation ∧
        exec (.ringPeek n) s = .refused .spscViolation ∧ exec (.ringRead n) s = .refused .spscViolation)) ∧
    ∀ k : Chan, s.chans[n]? = some k → k.state = .running →
      (s.agent ≠ k.retry.roles.producer → exec (.chanSend n fr) s = .refused .spscViolation) ∧
      (s.agent ≠ k.retry.roles.consumer → exec (.chanTxDrain n) s = .refused .spscViolation)

/-- The frame of the three LatestValueSlot operations: one instance changes and nothing else of the block
(`20_memory.md` R60: "No operation reaches more than one container instance"). The producer never touches the
consuming index or its cell, a pop no cell, a read nothing (`10_state.md` R28). -/
def Obligations.LvsOperationsFrame : Prop :=
  ∀ (s t : State) (l : Nat) (i : Instr),
    ((∃ r, i = .lvsPush l r) ∨ i = .lvsPop l ∨ i = .lvsRead l) → exec i s = .next t →
    s.SameSetting t ∧ s.SameMemory t ∧ s.KeepsFrames t ∧ t.rings = s.rings ∧ t.xcvrs = s.xcvrs ∧
    t.chans = s.chans ∧ t.draws = s.draws ∧ (∀ j, j ≠ l → t.lvs[j]? = s.lvs[j]?) ∧
    (i = .lvsRead l → t.lvs = s.lvs) ∧
    ∀ q p, s.lvs[l]? = some q → t.lvs[l]? = some p → p.roles = q.roles ∧
      ((∃ r, i = .lvsPush l r) → q.producing ≠ q.consuming →
        p.consuming = q.consuming ∧ p.cells.get p.consuming = q.cells.get q.consuming) ∧
      (i = .lvsPop l → p.cells = q.cells ∧ p.producing = q.producing)

/-- `41_latest_value_slot.md` R164, R165 (laws the spec derives), for any pushes (`some v`) and pops (`none`) one after
the other: a pop after a push returns `true` and delivers the value of that push, the latest; a second pop
returns `false` and changes nothing; no push changes what is read. -/
def Obligations.LatestValueWins : Prop :=
  ∀ (α : Type) (q : Lvs α) (ops : List (Option α)) (v : α), q.producing ≠ q.transfer → q.transfer ≠ q.consuming →
    q.producing ≠ q.consuming →
    let run := fun l => List.foldl (fun (p : Lvs α) o => match o with | some v => p.push v | none => p.pop.2) q l
    (run (ops ++ [some v])).pop.1 = true ∧ (run (ops ++ [some v])).pop.2.read = some v ∧
    (run (ops ++ [none])).pop = (false, run (ops ++ [none])) ∧
    (run (ops ++ [some v])).read = (run ops).read

/-- `41_latest_value_slot.md` R168, `70_reset_and_hazards.md` R346: under `Split` a whole pop between the exchange and
the flag write of a push makes the next pop succeed though nothing was pushed, and deliver what was in the
consuming cell before; under `Fused` the pop after the same two operations returns `false`. That the cell write is
two steps is the model's (log entry 29). -/
def Obligations.SplitPushHazard : Prop :=
  ∀ (α : Type) (q : Lvs α) (v : α), q.producing ≠ q.transfer → q.transfer ≠ q.consuming →
    q.producing ≠ q.consuming → q.stale = false →
    (∃ q0 q1 q2 q3 q4 q5 : Lvs α,
      (LvsTask.pushOpen v).step .split q = (q0, .inl (.pushWrite v)) ∧
      (LvsTask.pushWrite v).step .split q0 = (q1, .inl .pushSwap) ∧
      (LvsTask.pushSwap : LvsTask α).step .split q1 = (q2, .inl .pushFlag) ∧
      (LvsTask.popTest : LvsTask α).step .split q2 = (q2, .inl .popSwap) ∧
      (LvsTask.popSwap : LvsTask α).step .split q2 = (q3, .inl .popFlag) ∧
      (LvsTask.popFlag : LvsTask α).step .split q3 = (q4, .inr (.bool true)) ∧ q4.read = some v ∧
      (LvsTask.pushFlag : LvsTask α).step .split q4 = (q5, .inr .nothing) ∧
      q5.pop.1 = true ∧ q5.pop.2.read = q.cells.get q.consuming) ∧
    ∃ q0 q1 q2 q3 : Lvs α,
      (LvsTask.pushOpen v).step .fused q = (q0, .inl (.pushWrite v)) ∧
      (LvsTask.pushWrite v).step .fused q0 = (q1, .inl .pushSwap) ∧
      (LvsTask.pushSwap : LvsTask α).step .fused q1 = (q2, .inr .nothing) ∧
      (LvsTask.popTest : LvsTask α).step .fused q2 = (q3, .inr (.bool true)) ∧ q3.read = some v ∧
      q3.pop = (false, q3)

/-! ### BoundedRing -/

/-- `42_bounded_ring.md` R181: `RING.PUSH` by the instance's producer: full, it returns `true` and stores nothing; not
full, it stores the value and returns `false`. That these are the two cases is the spec's reading (`90_conflicts.md`
C2), and which index is written its decision D38 (`10_state.md` R29). -/
def Obligations.RingPushResult : Prop :=
  ∀ (s : State) (n : Nat) (q : Machine.Ring Value) (r : ValueRef) (v : Value), s.rings[n]? = some q →
    s.valueOf r = some v → ∃ nb : Fin q.n, nb.val = (q.back.val + 1) % q.n ∧
    (encode (.ringPush n r)).1 = 0x20 ∧
    (s.agent = q.roles.producer → nb = q.front → exec (.ringPush n r) s = .next (s.returns (.bool true))) ∧
    (s.agent = q.roles.producer → nb ≠ q.front → exec (.ringPush n r) s =
      .next ((s.setRing n { q with cells := q.cells.set q.back (some v), back := nb }).returns (.bool false)))

/-- `42_bounded_ring.md` R182, R183: `RING.POP` and `RING.PEEK` by the instance's consumer: on an empty ring they return
`false` and change nothing; otherwise they stage the content of the cell at `front`, and `RING.POP` alone moves
`front`. Which index is written, and that the cell is copied to `staged`, is the spec's decision D38
(`10_state.md` R29, R31); that a cell without a value stages nothing is the model's (log entry 31). -/
def Obligations.RingConsumerResult : Prop :=
  ∀ (s : State) (n : Nat) (q : Machine.Ring Value), s.rings[n]? = some q →
    ∃ nf : Fin q.n, nf.val = (q.front.val + 1) % q.n ∧
    (encode (.ringPop n)).1 = 0x21 ∧ (encode (.ringPeek n)).1 = 0x22 ∧
    (s.agent = q.roles.consumer → q.front = q.back →
      exec (.ringPop n) s = .next (s.returns (.bool false)) ∧
      exec (.ringPeek n) s = .next (s.returns (.bool false))) ∧
    (s.agent = q.roles.consumer → q.front ≠ q.back →
      exec (.ringPop n) s =
        .next ((s.setRing n { q with staged := q.cells[q.front], front := nf }).returns (.bool true)) ∧
      exec (.ringPeek n) s = .next ((s.setRing n { q with staged := q.cells[q.front] }).returns (.bool true)))

/-- The frame of the four BoundedRing operations: one instance changes; "only the producer writes `back` and cells;
only the consumer writes `front` and `staged`" (`42_bounded_ring.md` R187, `20_memory.md` R60). -/
def Obligations.RingOperationsFrame : Prop :=
  ∀ (s t : State) (n : Nat) (i : Instr),
    ((∃ r, i = .ringPush n r) ∨ i = .ringPop n ∨ i = .ringPeek n ∨ i = .ringRead n) → exec i s = .next t →
    s.SameSetting t ∧ s.SameMemory t ∧ s.KeepsFrames t ∧ t.lvs = s.lvs ∧ t.xcvrs = s.xcvrs ∧ t.chans = s.chans ∧
    t.draws = s.draws ∧ (∀ j, j ≠ n → t.rings[j]? = s.rings[j]?) ∧ (i = .ringRead n → t.rings = s.rings) ∧
    ∀ q p, s.rings[n]? = some q → t.rings[n]? = some p → p.roles = q.roles ∧
      p.n = q.n ∧
      ((∃ r, i = .ringPush n r) → p.front.val = q.front.val ∧ p.staged = q.staged ∧
        ∀ j : Nat, j ≠ q.back.val → p.cells[j]? = q.cells[j]?) ∧
      (i = .ringPop n ∨ i = .ringPeek n → p.cells.toList = q.cells.toList ∧ p.back.val = q.back.val) ∧
      (i = .ringPeek n → p.front.val = q.front.val)

/-- `10_state.md` R30, `42_bounded_ring.md` R185, R186: what each whole operation does to the unread elements, oldest
first: at most `N - 1` of them; a push appends or, at `N - 1`, is rejected and changes nothing; a pop removes and
stages the oldest; a peek stages the oldest and removes nothing. -/
def Obligations.RingContentsLaw : Prop :=
  ∀ (α : Type) (wf : α → Bool) (q : Machine.Ring α) (v : α), q.Ok wf →
    q.contents.length = q.count ∧ q.count ≤ q.n - 1 ∧
    (q.count = q.n - 1 → q.push v = (true, q)) ∧
    (q.count ≠ q.n - 1 → (q.push v).1 = false ∧ (q.push v).2.contents = q.contents ++ [some v]) ∧
    (q.contents = [] → q.pop = (false, q) ∧ q.peek = (false, q)) ∧
    ∀ e l, q.contents = e :: l →
      q.pop.1 = true ∧ q.pop.2.contents = l ∧ q.pop.2.staged = e ∧
      q.peek.1 = true ∧ q.peek.2.contents = e :: l ∧ q.peek.2.staged = e

/-- `42_bounded_ring.md` R185 (a law the spec derives): "Elements are removed in the order their pushes were
accepted", over any sequence of pushes and pops, from any ring. -/
def Obligations.RingFifoOrder : Prop :=
  ∀ (α : Type) (wf : α → Bool) (q : Machine.Ring α) (ops : List (Option α)), q.Ok wf →
    (∀ v, some v ∈ ops → wf v = true) →
    q.contents ++ (Machine.Ring.runOps ops q).1 =
      (Machine.Ring.runOps ops q).2.1 ++ (Machine.Ring.runOps ops q).2.2.contents

/-- `42_bounded_ring.md` R188, R189: taken step by step (the cell write of a push as two steps, log entry 29), whatever
the other agent is part-way through, an operation changes the contents at its step 3 only: the publish of a push
appends the content of the cell it has written, the freeing of a pop removes the oldest element, which it has
staged; every step keeps the instance well formed, its own locals in agreement, and those of the other agent's
operation. -/
def Obligations.RingStepsRefineQueue : Prop :=
  ∀ (α : Type) (wf : α → Bool) (q : Machine.Ring α) (t u : RingTask α), q.Ok wf → t.Agrees q →
    (∀ v, t.carried = some v → wf v = true) → u.Agrees q → u.isPush ≠ t.isPush →
    (t.step q).1.Ok wf ∧ u.Agrees (t.step q).1 ∧ (∀ t', (t.step q).2 = .inl t' → t'.Agrees (t.step q).1) ∧
    match t with
    | .pushPublish _ => (t.step q).1.contents = q.contents ++ [q.cellAt q.back]
    | .popPublish _ => q.contents = q.staged :: (t.step q).1.contents
    | .pushBack _ _ => (t.step q).1 = q
    | .pushOpen _ _ _ => (t.step q).1.contents = q.contents
    | .pushWrite v _ _ => (t.step q).1.contents = q.contents ∧ (t.step q).1.cellAt (t.step q).1.back = some v
    | .popStage _ => (t.step q).1.contents = q.contents ∧ (t.step q).1.staged = q.contents.head?.join
    | .peekStage _ => (t.step q).1.contents = q.contents ∧ (t.step q).1.staged = q.contents.head?.join
    | .pushFront _ => (t.step q).1 = q
    | .popFront => (t.step q).1 = q
    | .popBack _ => (t.step q).1 = q
    | .peekFront => (t.step q).1 = q
    | .peekBack _ => (t.step q).1 = q

/-! ### Transceiver -/

/-- `43_transceiver.md` R201: the cells of the lifecycle gate that do not run. In `Failed` the operation returns `Error`
(or nothing), and "no operation changes any state"; the other cells are refusals. -/
def Obligations.TransceiverGate : Prop :=
  ∀ (s : State) (x : Nat) (r : Xcvr) (baud : Nat) (ext : Bool) (ids : List Word) (fr : FrameRef) (f : Frame) (n : Nat),
    s.xcvrs[x]? = some r → s.cfg.supports baud = true → s.frameOf fr = some f →
    let l := r.ctrl.lifecycle
    (l = .initialized ∨ l = .filterConfigured ∨ l = .running → exec (.xcvrInit x baud ext) s = .refused .initTwice) ∧
    (l = .uninit → exec (.xcvrFilterAll x) s = .refused .notInitialised ∧
      exec (.xcvrFilterList x ids ext) s = .refused .notInitialised ∧
      exec (.xcvrStart x) s = .refused .notInitialised ∧ exec (.xcvrTxieOn x) s = .refused .notInitialised ∧
      exec (.xcvrTxieOff x) s = .refused .notInitialised) ∧
    (l = .running → exec (.xcvrFilterAll x) s = .refused .filterWhileRunning ∧
      exec (.xcvrFilterList x ids ext) s = .refused .filterWhileRunning ∧
      exec (.xcvrStart x) s = .refused .alreadyRunning) ∧
    (l = .initialized → exec (.xcvrStart x) s = .refused .startBeforeFilter) ∧
    (l = .uninit ∨ l = .initialized ∨ l = .filterConfigured → exec (.xcvrStop x) s = .refused .notRunning ∧
      exec (.xcvrSend x fr) s = .refused .notRunning ∧ exec (.xcvrReceive x n) s = .refused .notRunning) ∧
    (l = .failed → exec (.xcvrInit x baud ext) s = .next (s.returns (.status .error)) ∧
      exec (.xcvrFilterAll x) s = .next (s.returns (.status .error)) ∧
      exec (.xcvrFilterList x ids ext) s = .next (s.returns (.status .error)) ∧
      exec (.xcvrStart x) s = .next (s.returns (.status .error)) ∧
      exec (.xcvrStop x) s = .next (s.returns (.status .error)) ∧
      exec (.xcvrSend x fr) s = .next (s.returns (.status .error)) ∧
      exec (.xcvrReceive x n) s = .next (s.returns (.received .error none)) ∧
      exec (.xcvrTxieOn x) s = .next (s.returns .nothing) ∧
      exec (.xcvrTxieOff x) s = .next (s.returns .nothing))

/-- `43_transceiver.md` R202: a configuration operation that runs and draws `hw_ok = false` sets `LIFECYCLE` to
`Failed`, changes nothing else, and returns `Error`; the draw is consumed. -/
def Obligations.HardwareFailureOfConfiguration : Prop :=
  ∀ (s : State) (x : Nat) (r : Xcvr) (i : Instr), s.xcvrs[x]? = some r → s.draws.nextHwOk = false →
    ((∃ baud ext, i = .xcvrInit x baud ext ∧ s.cfg.supports baud = true ∧ r.ctrl.lifecycle = .uninit) ∨
     (i = .xcvrStart x ∧ r.ctrl.lifecycle = .filterConfigured) ∨
     (i = .xcvrStop x ∧ r.ctrl.lifecycle = .running) ∨
     ((i = .xcvrFilterAll x ∨ ∃ ids ext, i = .xcvrFilterList x ids ext) ∧
       (r.ctrl.lifecycle = .initialized ∨ r.ctrl.lifecycle = .filterConfigured))) →
    exec i s = .next (((s.setDraws s.draws.dropHwOk).setXcvr x
      { r with ctrl := { r.ctrl with lifecycle := .failed } }).returns (.status .error))

/-- `43_transceiver.md` R203: `XCVR.INIT` with `hw_ok = true`, at every rate the compiled family supports. -/
def Obligations.XcvrInitResult : Prop :=
  ∀ (s : State) (x : Nat) (r : Xcvr) (baud pre : Nat) (ext : Bool), s.xcvrs[x]? = some r →
    r.ctrl.lifecycle = .uninit → s.cfg.params.prescalerOf baud = some pre →
    s.draws.nextHwOk = true →
    (encode (.xcvrInit x baud ext)).1 = 0x30 ∧
    exec (.xcvrInit x baud ext) s = .next (((s.setDraws s.draws.dropHwOk).setXcvr x
      { r with
        btr := { prescaler := BitVec.ofNat 16 pre, seg1 := BitVec.ofNat 8 s.cfg.params.seg1,
                 seg2 := BitVec.ofNat 8 s.cfg.params.seg2 }
        ctrl := { r.ctrl with baud := BitVec.ofNat 8 baud, ext := ext, abor := true, art := true,
                              lifecycle := .initialized }
        fctrl := { r.fctrl with nbanks := BitVec.ofNat 8 s.cfg.params.bankCount } }).returns (.status .ok))

/-- `43_transceiver.md` R204, R205: `XCVR.START` and `XCVR.STOP` with `hw_ok = true`. -/
def Obligations.XcvrStartStopResult : Prop :=
  ∀ (s : State) (x : Nat) (r : Xcvr), s.xcvrs[x]? = some r → s.draws.nextHwOk = true →
    (encode (.xcvrStart x)).1 = 0x31 ∧ (encode (.xcvrStop x)).1 = 0x32 ∧
    (r.ctrl.lifecycle = .filterConfigured → exec (.xcvrStart x) s =
      .next (((s.setDraws s.draws.dropHwOk).setXcvr x
        { r with ctrl := { r.ctrl with rxie := true, lifecycle := .running } }).returns (.status .ok))) ∧
    (r.ctrl.lifecycle = .running → exec (.xcvrStop x) s =
      .next (((s.setDraws s.draws.dropHwOk).setXcvr x
        { r with ctrl := { r.ctrl with rxie := false, lifecycle := .filterConfigured } }).returns (.status .ok)))

/-- `43_transceiver.md` R206: `XCVR.FILTER_ALL` with `hw_ok = true`. -/
def Obligations.XcvrFilterAllResult : Prop :=
  ∀ (s : State) (x : Nat) (r : Xcvr), s.xcvrs[x]? = some r →
    (r.ctrl.lifecycle = .initialized ∨ r.ctrl.lifecycle = .filterConfigured) → s.draws.nextHwOk = true →
    (encode (.xcvrFilterAll x)).1 = 0x33 ∧ ∃ banks : List (List FSlot),
      exec (.xcvrFilterAll x) s = .next (((s.setDraws s.draws.dropHwOk).setXcvr x
        { r with fbank := banks, fctrl := { r.fctrl with acceptAll := true, banksUsed := 1 },
                 ctrl := { r.ctrl with lifecycle := .filterConfigured } }).returns (.status .ok)) ∧
      banks.length = s.cfg.params.bankCount ∧
      ∀ bank ∈ banks, bank.length = s.cfg.params.slotsPerBank ∧ ∀ f ∈ bank, f.word = 0

/-- `43_transceiver.md` R207, R208: `XCVR.FILTER_LIST` with `hw_ok = true`: within the capacity identifier `j` stands
alone in bank `j div k`, slot `j mod k`, and every other slot is zero; above it, the operation is
`XCVR.FILTER_ALL`. -/
def Obligations.XcvrFilterListResult : Prop :=
  ∀ (s : State) (x : Nat) (r : Xcvr) (ids : List Word) (ext : Bool), s.cfg.wf = true → s.xcvrs[x]? = some r →
    (r.ctrl.lifecycle = .initialized ∨ r.ctrl.lifecycle = .filterConfigured) → s.draws.nextHwOk = true →
    let k := s.cfg.params.idsPerBank ext
    (encode (.xcvrFilterList x ids ext)).1 = 0x34 ∧
    (ids.length > s.cfg.params.bankCount * k → exec (.xcvrFilterList x ids ext) s = exec (.xcvrFilterAll x) s) ∧
    (ids.length ≤ s.cfg.params.bankCount * k → ∃ banks : List (List FSlot),
      exec (.xcvrFilterList x ids ext) s = .next (((s.setDraws s.draws.dropHwOk).setXcvr x
        { r with
          fbank := banks
          fctrl := { r.fctrl with acceptAll := false, banksUsed := BitVec.ofNat 8 ((ids.length + k - 1) / k) }
          ctrl := { r.ctrl with lifecycle := .filterConfigured } }).returns (.status .ok)) ∧
      banks.length = s.cfg.params.bankCount ∧ (∀ bank ∈ banks, bank.length = s.cfg.params.slotsPerBank) ∧
      (∀ j id, ids[j]? = some id → banks[j / k]?.bind (·[j % k]?) =
        some { valid := true, ext := ext,
               id := (if ext then id &&& 0x1FFFFFFF else id &&& 0x000007FF : Word).setWidth 29 }) ∧
      ∀ b n f, banks[b]?.bind (·[n]?) = some f → (∀ j < ids.length, ¬(b = j / k ∧ n = j % k)) → f.word = 0)

/-- `43_transceiver.md` R208, R209: after a successful `XCVR.FILTER_LIST` within the capacity an arriving frame is
accepted exactly when its kind is the list's and its identifier is one of the list's, masked. That unused slots
match nothing is the spec's decision (log entry 25). -/
def Obligations.FilterListAcceptsExactlyTheList : Prop :=
  ∀ (s : State) (x : Nat) (r r' : Xcvr) (ids : List Word) (ext : Bool) (t : State), s.cfg.wf = true →
    s.xcvrs[x]? = some r → (r.ctrl.lifecycle = .initialized ∨ r.ctrl.lifecycle = .filterConfigured) →
    s.draws.nextHwOk = true → ids.length ≤ s.cfg.params.bankCount * s.cfg.params.idsPerBank ext →
    exec (.xcvrFilterList x ids ext) s = .next t → t.xcvrs[x]? = some r' →
    ∀ (id : Word) (ext' : Bool), r'.accepts id ext' = true ↔ ext' = ext ∧ ∃ j ∈ ids, maskId j ext = id

/-- `43_transceiver.md` R210, `44_transceiver_families.md` R256: `XCVR.SEND` in `Running`: fault first, then the least
free slot, which takes the frame's element; on `Error` nothing changes. -/
def Obligations.XcvrSendResult : Prop :=
  ∀ (s : State) (x : Nat) (r : Xcvr) (fr : FrameRef) (f : Frame), s.cfg.wf = true → s.xcvrs[x]? = some r →
    r.ctrl.lifecycle = .running → s.frameOf fr = some f →
    (encode (.xcvrSend x fr)).1 = 0x35 ∧
    (r.stat.fault = true ∨ (∀ k < s.cfg.params.txSlots, r.pending k = true) →
      exec (.xcvrSend x fr) s = .next (s.returns (.status .error))) ∧
    ∀ k, r.stat.fault = false → k < s.cfg.params.txSlots → r.pending k = false →
      (∀ j < k, r.pending j = true) → ∃ r' : Xcvr,
        exec (.xcvrSend x fr) s = .next ((s.setXcvr x r').returns (.status .ok)) ∧
        r' = { r with ctrl := { r.ctrl with lock := if s.cfg.params.clearLockBeforeTx then false else r.ctrl.lock }
                      tx := r.tx.set k
                        { h0 := (txHeader s.cfg.family f).1, h1 := (txHeader s.cfg.family f).2,
                          dl := packDl f.data, dh := packDh f.data }
                      txpend := r'.txpend } ∧
        ∀ j, r'.pending j = (j == k || r.pending j)

/-- `43_transceiver.md` R211: `XCVR.RECEIVE` in `Running`, and `CHAN.RECEIVE` of a Channel in `Running` whose Transceiver
and FIFO these are (`45_channel.md` R276): selector, fault, emptiness, then the oldest element decoded and stamped
with the draw `now`. With the Transceiver in `Failed` they return `Error` and change nothing (R201, decision D21). -/
def Obligations.XcvrReceiveResult : Prop :=
  ∀ (s : State) (x n : Nat) (r : Xcvr) (i : Instr), s.xcvrs[x]? = some r →
    (i = .xcvrReceive x n ∨ ∃ c k, i = .chanReceive c ∧ s.chans[c]? = some k ∧ k.state = .running ∧
      k.xcvr = x ∧ k.fifo = n) →
    (encode (.xcvrReceive x n)).1 = 0x36 ∧
    (r.ctrl.lifecycle = .failed → exec i s = .next (s.returns (.received .error none))) ∧
    (r.ctrl.lifecycle = .running → r.rxfifo.length ≤ n → exec i s = .refused .badFifoSelector) ∧
    (r.ctrl.lifecycle = .running → ∀ q, r.rxfifo[n]? = some q →
      (r.stat.fault = true → exec i s = .next (s.returns (.received .error none))) ∧
      (r.stat.fault = false → q = [] → exec i s = .next (s.returns (.received .empty none))) ∧
      ∀ e l, r.stat.fault = false → q = e :: l → ∃ now < 2 ^ s.cfg.tsWidth,
        exec i s = .next (((s.setDraws s.draws.dropNow).setXcvr x
          { r with rxfifo := r.rxfifo.set n l }).returns
            (.received .ok (some { fromRx s.cfg.family e with timestamp := some now }))))

/-- `43_transceiver.md` R212, R213: `XCVR.TXIE_ON` and `XCVR.TXIE_OFF` in every state but `Uninit` and `Failed`: `TXIE`
is written and `TXC` is not. -/
def Obligations.XcvrTxieResult : Prop :=
  ∀ (s : State) (x : Nat) (r : Xcvr), s.xcvrs[x]? = some r →
    (r.ctrl.lifecycle = .initialized ∨ r.ctrl.lifecycle = .filterConfigured ∨ r.ctrl.lifecycle = .running) →
    (encode (.xcvrTxieOn x)).1 = 0x37 ∧ (encode (.xcvrTxieOff x)).1 = 0x38 ∧
    exec (.xcvrTxieOn x) s =
      .next ((s.setXcvr x { r with ctrl := { r.ctrl with txie := true } }).returns .nothing) ∧
    exec (.xcvrTxieOff x) s =
      .next ((s.setXcvr x { r with ctrl := { r.ctrl with txie := false } }).returns .nothing)

/-- The frame of the nine Transceiver operations: one register file changes, nothing else of the block but the draws,
and of the register file neither the status word nor the wire log; only `XCVR.SEND` writes transmit slots, only
`XCVR.RECEIVE` the FIFOs, only the two filter operations the filter banks, only the five configuration operations
`LIFECYCLE` (`10_state.md` R33 to R39, `43_transceiver.md` R219). -/
def Obligations.TransceiverOperationsFrame : Prop :=
  ∀ (s t : State) (x : Nat) (i : Instr),
    ((∃ b e, i = .xcvrInit x b e) ∨ i = .xcvrStart x ∨ i = .xcvrStop x ∨ i = .xcvrFilterAll x ∨
      (∃ ids e, i = .xcvrFilterList x ids e) ∨ (∃ f, i = .xcvrSend x f) ∨ (∃ n, i = .xcvrReceive x n) ∨
      i = .xcvrTxieOn x ∨ i = .xcvrTxieOff x) → exec i s = .next t →
    s.SameSetting t ∧ s.SameMemory t ∧ s.KeepsFrames t ∧ t.lvs = s.lvs ∧ t.rings = s.rings ∧ t.chans = s.chans ∧
    (∀ y, y ≠ x → t.xcvrs[y]? = s.xcvrs[y]?) ∧
    ((∃ f, i = .xcvrSend x f) ∨ i = .xcvrTxieOn x ∨ i = .xcvrTxieOff x → t.draws = s.draws) ∧
    ∀ r r', s.xcvrs[x]? = some r → t.xcvrs[x]? = some r' →
      r'.stat = r.stat ∧ r'.wireTx = r.wireTx ∧
      ((∀ f, i ≠ .xcvrSend x f) → r'.tx = r.tx ∧ r'.txpend = r.txpend ∧ r'.ctrl.lock = r.ctrl.lock) ∧
      ((∀ n, i ≠ .xcvrReceive x n) → r'.rxfifo = r.rxfifo) ∧
      (i ≠ .xcvrFilterAll x → (∀ ids e, i ≠ .xcvrFilterList x ids e) →
        r'.fbank = r.fbank ∧ r'.fctrl.acceptAll = r.fctrl.acceptAll ∧ r'.fctrl.banksUsed = r.fctrl.banksUsed) ∧
      ((∀ b e, i ≠ .xcvrInit x b e) → r'.btr = r.btr ∧ r'.fctrl.nbanks = r.fctrl.nbanks ∧
        r'.ctrl.ext = r.ctrl.ext ∧ r'.ctrl.baud = r.ctrl.baud ∧ r'.ctrl.abor = r.ctrl.abor ∧
        r'.ctrl.art = r.ctrl.art) ∧
      (i ≠ .xcvrTxieOn x → i ≠ .xcvrTxieOff x → r'.ctrl.txie = r.ctrl.txie) ∧
      (i ≠ .xcvrStart x → i ≠ .xcvrStop x → r'.ctrl.rxie = r.ctrl.rxie) ∧
      ((∃ f, i = .xcvrSend x f) ∨ (∃ n, i = .xcvrReceive x n) ∨ i = .xcvrTxieOn x ∨ i = .xcvrTxieOff x →
        r'.ctrl.lifecycle = r.ctrl.lifecycle)

/-- `10_state.md` R33 to R37: where each field stands in its 32-bit register, and that the bits not named are 0. -/
def Obligations.RegisterLayout : Prop :=
  (∀ r : XcCtrl, r.word.extractLsb' 0 3 = r.lifecycle.code ∧ r.word.getLsbD 3 = r.ext ∧ r.word.getLsbD 4 = r.txie ∧
    r.word.getLsbD 5 = r.rxie ∧ r.word.getLsbD 6 = r.abor ∧ r.word.getLsbD 7 = r.art ∧ r.word.getLsbD 8 = r.lock ∧
    r.word.extractLsb' 9 7 = 0 ∧ r.word.extractLsb' 16 8 = r.baud ∧ r.word.extractLsb' 24 8 = 0) ∧
  (∀ r : XcStat, r.word.getLsbD 0 = r.fault ∧ r.word.getLsbD 1 = r.txc ∧ r.word.extractLsb' 2 30 = 0) ∧
  (∀ r : XcBtr, r.word.extractLsb' 0 16 = r.prescaler ∧ r.word.extractLsb' 16 8 = r.seg1 ∧
    r.word.extractLsb' 24 8 = r.seg2) ∧
  (∀ r : XcFctrl, r.word.getLsbD 0 = r.acceptAll ∧ r.word.extractLsb' 1 7 = 0 ∧
    r.word.extractLsb' 8 8 = r.banksUsed ∧ r.word.extractLsb' 16 8 = r.nbanks ∧ r.word.extractLsb' 24 8 = 0) ∧
  (∀ r : FSlot, r.word.extractLsb' 0 29 = r.id ∧ r.word.getLsbD 29 = false ∧ r.word.getLsbD 30 = r.ext ∧
    r.word.getLsbD 31 = r.valid) ∧
  Lifecycle.uninit.code = 0 ∧ Lifecycle.initialized.code = 1 ∧ Lifecycle.filterConfigured.code = 2 ∧
  Lifecycle.running.code = 3 ∧ Lifecycle.failed.code = 4

/-! ### Channel -/

/-- `45_channel.md` R271: the cells of the Channel's gate that do not run; in `Failed` nothing changes. -/
def Obligations.ChannelGate : Prop :=
  ∀ (s : State) (c : Nat) (k : Chan) (baud : Nat) (ext : Bool) (fl : Filter) (fr : FrameRef) (f : Frame),
    s.chans[c]? = some k → s.frameOf fr = some f →
    (k.state = .filterConfigured ∨ k.state = .running →
      exec (.chanInit c baud ext fl) s = .refused .channelInitTwice) ∧
    (k.state = .uninitialized → exec (.chanStart c) s = .refused .channelNotInitialised) ∧
    (k.state = .running → exec (.chanStart c) s = .refused .channelAlreadyRunning) ∧
    (k.state = .uninitialized ∨ k.state = .filterConfigured →
      exec (.chanSend c fr) s = .refused .channelNotRunning ∧
      exec (.chanReceive c) s = .refused .channelNotRunning ∧
      exec (.chanTxDrain c) s = .refused .channelNotRunning) ∧
    (k.state = .failed → exec (.chanInit c baud ext fl) s = .next (s.returns (.status .error)) ∧
      exec (.chanStart c) s = .next (s.returns (.status .error)) ∧
      exec (.chanSend c fr) s = .next (s.returns (.status .error)) ∧
      exec (.chanReceive c) s = .next (s.returns (.received .error none)) ∧
      exec (.chanTxDrain c) s = .next (s.returns .nothing))

/-- `45_channel.md` R272: `CHAN.INIT` on an uninitialised Channel and Transceiver, at every rate the compiled family
supports, by the two draws of `hw_ok`. -/
def Obligations.ChanInitResult : Prop :=
  ∀ (s : State) (c : Nat) (k : Chan) (r : Xcvr) (baud pre : Nat) (ext : Bool) (fl : Filter),
    s.chans[c]? = some k → k.state = .uninitialized → s.xcvrs[k.xcvr]? = some r → r.ctrl.lifecycle = .uninit →
    s.cfg.params.prescalerOf baud = some pre →
    let d1 := s.draws.dropHwOk
    let r1 := r.init s.cfg.params pre baud ext
    (encode (.chanInit c baud ext fl)).1 = 0x40 ∧
    (s.draws.nextHwOk = false → exec (.chanInit c baud ext fl) s =
      .next ((((s.setDraws d1).setXcvr k.xcvr (r.setLifecycle .failed)).setChan c { k with state := .failed }).returns
        (.status .error))) ∧
    (s.draws.nextHwOk = true → d1.nextHwOk = false → exec (.chanInit c baud ext fl) s =
      .next ((((s.setDraws d1.dropHwOk).setXcvr k.xcvr (r1.setLifecycle .failed)).setChan c
        { k with state := .failed }).returns (.status .error))) ∧
    (s.draws.nextHwOk = true → d1.nextHwOk = true → exec (.chanInit c baud ext fl) s =
      .next ((((s.setDraws d1.dropHwOk).setXcvr k.xcvr (r1.applyFilter s.cfg.params fl)).setChan c
        { k with state := .filterConfigured }).returns (.status .ok)))

/-- `45_channel.md` R273: `CHAN.START` on a configured Channel and Transceiver, by the draw of `hw_ok`. -/
def Obligations.ChanStartResult : Prop :=
  ∀ (s : State) (c : Nat) (k : Chan) (r : Xcvr), s.chans[c]? = some k → k.state = .filterConfigured →
    s.xcvrs[k.xcvr]? = some r → r.ctrl.lifecycle = .filterConfigured →
    (encode (.chanStart c)).1 = 0x41 ∧
    (s.draws.nextHwOk = true → exec (.chanStart c) s =
      .next ((((s.setDraws s.draws.dropHwOk).setXcvr k.xcvr
        { r with ctrl := { r.ctrl with rxie := true, lifecycle := .running } }).setChan c
          { k with state := .running }).returns (.status .ok))) ∧
    (s.draws.nextHwOk = false → exec (.chanStart c) s =
      .next ((((s.setDraws s.draws.dropHwOk).setXcvr k.xcvr
        { r with ctrl := { r.ctrl with lifecycle := .failed } }).setChan c
          { k with state := .failed }).returns (.status .error)))

/-- `45_channel.md` R274: `CHAN.SEND` in `Running`: into a slot; or queued for retry with the interrupt enabled; or, the
ring full, dropped, counted and reported `Full`. A Transceiver in `Failed` sends nothing and keeps `TXIE`
(`43_transceiver.md` R201, the spec's decision D21). -/
def Obligations.ChanSendResult : Prop :=
  ∀ (s : State) (c : Nat) (k : Chan) (r : Xcvr) (fr : FrameRef) (f : Frame), s.chans[c]? = some k →
    k.state = .running → s.xcvrs[k.xcvr]? = some r →
    (r.ctrl.lifecycle = .running ∨ r.ctrl.lifecycle = .failed) → s.frameOf fr = some f →
    let free := fun n => r.ctrl.lifecycle = .running ∧ r.stat.fault = false ∧ n < s.cfg.params.txSlots ∧
      r.pending n = false ∧ ∀ j < n, r.pending j = true
    let armed := if r.ctrl.lifecycle = .running then { r with ctrl := { r.ctrl with txie := true } } else r
    ∃ nb : Fin k.retry.n, nb.val = (k.retry.back.val + 1) % k.retry.n ∧ (encode (.chanSend c fr)).1 = 0x42 ∧
    (s.agent = k.retry.roles.producer →
      (∀ n, free n → exec (.chanSend c fr) s =
        .next ((s.setXcvr k.xcvr (r.fillSlot s.cfg n f)).returns (.status .ok))) ∧
      ((∀ n, ¬free n) → nb ≠ k.retry.front → exec (.chanSend c fr) s =
        .next (((s.setChan c { k with retry := { k.retry with
            cells := k.retry.cells.set k.retry.back (some f), back := nb } }).setXcvr k.xcvr armed).returns
          (.status .ok))) ∧
      ((∀ n, ¬free n) → nb = k.retry.front → exec (.chanSend c fr) s =
        .next (((s.setChan c { k with dropCount := k.dropCount + 1 }).setXcvr k.xcvr armed).returns
          (.status .full))))

/-- `45_channel.md` R275: `CHAN.TX_DRAIN` in `Running`: an empty ring turns the interrupt off; otherwise the oldest frame
is tried once, popped only when it is in a slot, and the interrupt is turned off only when the ring is then empty. With
the Transceiver in `Failed` the frame stays, staged, and the interrupt enable is not written (`43_transceiver.md` R201,
decision D21). -/
def Obligations.ChanTxDrainResult : Prop :=
  ∀ (s : State) (c : Nat) (k : Chan) (r : Xcvr), s.chans[c]? = some k → k.state = .running →
    s.xcvrs[k.xcvr]? = some r → (r.ctrl.lifecycle = .running ∨ r.ctrl.lifecycle = .failed) →
    let quiet := fun v : Xcvr => if r.ctrl.lifecycle = .running then { v with ctrl := { v.ctrl with txie := false } } else v
    ∃ next : Fin k.retry.n, next.val = (k.retry.front.val + 1) % k.retry.n ∧ (encode (.chanTxDrain c)).1 = 0x43 ∧
    (s.agent = k.retry.roles.consumer →
      (k.retry.front = k.retry.back → exec (.chanTxDrain c) s =
        .next ((s.setXcvr k.xcvr (quiet r)).returns .nothing)) ∧
      ∀ f, k.retry.front ≠ k.retry.back → k.retry.cells[k.retry.front] = some f →
        ((r.ctrl.lifecycle = .failed ∨ r.stat.fault = true ∨ ∀ n < s.cfg.params.txSlots, r.pending n = true) → exec (.chanTxDrain c) s =
          .next ((s.setChan c { k with retry := { k.retry with staged := some f } }).returns .nothing)) ∧
        ∀ n, r.ctrl.lifecycle = .running → r.stat.fault = false → n < s.cfg.params.txSlots → r.pending n = false →
          (∀ j < n, r.pending j = true) → exec (.chanTxDrain c) s =
          .next (((s.setChan c { k with retry := { k.retry with staged := some f, front := next } }).setXcvr k.xcvr
            (if next = k.retry.back then quiet (r.fillSlot s.cfg n f) else r.fillSlot s.cfg n f)).returns .nothing))

/-- `45_channel.md` R276: `CHAN.RECEIVE` in `Running` is `XCVR.RECEIVE` on the Channel's fixed FIFO. -/
def Obligations.ChanReceiveResult : Prop :=
  ∀ (s : State) (c : Nat) (k : Chan), s.chans[c]? = some k → k.state = .running →
    (encode (.chanReceive c)).1 = 0x44 ∧ exec (.chanReceive c) s = exec (.xcvrReceive k.xcvr k.fifo) s

/-- The frame of the five Channel operations: the Channel itself, its Transceiver's register file and the draws, and
nothing else (`45_channel.md` R272 to R276, `20_memory.md` R60). -/
def Obligations.ChannelOperationsFrame : Prop :=
  ∀ (s t : State) (c : Nat) (i : Instr),
    ((∃ b e fl, i = .chanInit c b e fl) ∨ i = .chanStart c ∨ (∃ f, i = .chanSend c f) ∨ i = .chanTxDrain c ∨
      i = .chanReceive c) → exec i s = .next t →
    s.SameSetting t ∧ s.SameMemory t ∧ s.KeepsFrames t ∧ t.lvs = s.lvs ∧ t.rings = s.rings ∧
    (∀ j, j ≠ c → t.chans[j]? = s.chans[j]?) ∧
    ((∃ f, i = .chanSend c f) ∨ i = .chanTxDrain c → t.draws = s.draws) ∧
    ∀ k k', s.chans[c]? = some k → t.chans[c]? = some k' →
      k'.xcvr = k.xcvr ∧ k'.fifo = k.fifo ∧ (∀ y, y ≠ k.xcvr → t.xcvrs[y]? = s.xcvrs[y]?) ∧
      ((∀ f, i ≠ .chanSend c f) → k'.dropCount = k.dropCount) ∧
      ((∀ f, i ≠ .chanSend c f) → i ≠ .chanTxDrain c → k'.retry = k.retry) ∧
      ((∀ b e fl, i ≠ .chanInit c b e fl) → i ≠ .chanStart c → k'.state = k.state) ∧
      ∀ r r', s.xcvrs[k.xcvr]? = some r → t.xcvrs[k.xcvr]? = some r' → r'.stat = r.stat ∧ r'.wireTx = r.wireTx

/-- `45_channel.md` R271, `10_state.md` R42: no operation takes a Channel backward, none leaves `Failed`, and
`DROP_COUNT` never falls. -/
def Obligations.ChannelHasNoBackwardTransition : Prop :=
  ∀ (s t : State) (i : Instr) (c : Nat) (k k' : Chan), exec i s = .next t → s.chans[c]? = some k →
    t.chans[c]? = some k' →
    k.state.rank ≤ k'.state.rank ∧ (k.state = .failed → k'.state = .failed) ∧ k.dropCount ≤ k'.dropCount

/-- `60_exceptions.md` R302: which result each operation can return. -/
def Obligations.StatusTable : Prop :=
  ∀ (s t : State) (i : Instr), exec i s = .next t → ∃ res, (t.ctx s.agent).result = some res ∧
    match i with
    | .frameNew _ _ _ _ => ∃ f, res = .frame f
    | .frameFromRx _ _ _ _ => ∃ f, res = .frame f
    | .frameTxhdr _ => ∃ h0 h1, res = .header h0 h1
    | .frameHex _ _ => res = .nothing
    | .frameSetts _ _ => ∃ f, res = .frame f
    | .lvsPush _ _ => res = .nothing
    | .lvsPop l => ∃ q, s.lvs[l]? = some q ∧ res = .bool !q.stale
    | .lvsRead _ => ∃ v, res = .value v
    | .ringPush r _ => ∃ q, s.rings[r]? = some q ∧ res = .bool q.isFull
    | .ringPop r => ∃ q, s.rings[r]? = some q ∧ res = .bool !q.isEmpty
    | .ringPeek r => ∃ q, s.rings[r]? = some q ∧ res = .bool !q.isEmpty
    | .ringRead _ => ∃ v, res = .value v
    | .xcvrInit _ _ _ => res = .status .ok ∨ res = .status .error
    | .xcvrStart _ => res = .status .ok ∨ res = .status .error
    | .xcvrStop _ => res = .status .ok ∨ res = .status .error
    | .xcvrFilterAll _ => res = .status .ok ∨ res = .status .error
    | .xcvrFilterList _ _ _ => res = .status .ok ∨ res = .status .error
    | .xcvrSend _ _ => res = .status .ok ∨ res = .status .error
    | .xcvrReceive _ _ => (∃ f, res = .received .ok (some f)) ∨ res = .received .empty none ∨
        res = .received .error none
    | .xcvrTxieOn _ => res = .nothing
    | .xcvrTxieOff _ => res = .nothing
    | .chanInit _ _ _ _ => res = .status .ok ∨ res = .status .error
    | .chanStart _ => res = .status .ok ∨ res = .status .error
    | .chanSend c _ => res = .status .ok ∨ res = .status .full ∨
        (res = .status .error ∧ ∃ k, s.chans[c]? = some k ∧ k.state = .failed)
    | .chanTxDrain _ => res = .nothing
    | .chanReceive _ => (∃ f, res = .received .ok (some f)) ∨ res = .received .empty none ∨
        res = .received .error none

/-! ### The bus agent -/

/-- `43_transceiver.md` R214: `BUS.TX_COMPLETE(k)`: the wire record is appended, the slot freed, `TXC` set. That a bus
step whose condition does not hold, or whose `k` is no slot, is dropped is the model's (log entry 16); so is that the
freed slot keeps its words, which `10_state.md` R38 and U13 leave open (log entry 11), and that there is a wire log per
Transceiver (log entry 20). -/
def Obligations.BusTransmitCompletes : Prop :=
  (∀ (s : State) (rest : List Event) (x k : Nat) (r : Xcvr), s.cfg.wf = true →
    s.schedule = .bus x (.txComplete k) :: rest → s.xcvrs[x]? = some r → r.tx[k]? = none →
    step s = .next { s with schedule := rest }) ∧
  ∀ (s : State) (rest : List Event) (x k : Nat) (r : Xcvr) (e : Element), s.cfg.wf = true →
    s.schedule = .bus x (.txComplete k) :: rest → s.xcvrs[x]? = some r → r.tx[k]? = some e →
    let u : State := { s with schedule := rest }
    let f := fromRx s.cfg.family e
    (¬(r.ctrl.lifecycle = .running ∧ r.stat.fault = false ∧ r.pending k = true) → step s = .next u) ∧
    (r.ctrl.lifecycle = .running → r.stat.fault = false → r.pending k = true → ∃ r' : Xcvr,
      step s = .next (u.setXcvr x r') ∧
      r' = { r with stat := { r.stat with txc := true }, txpend := r'.txpend,
                    wireTx := r.wireTx ++ [{ id := f.id, isExtended := f.isExtended, length := f.length,
                                             data := (List.range f.length.toNat).map fun i => f.data.get i }] } ∧
      ∀ j, r'.pending j = (j != k && r.pending j))

/-- `43_transceiver.md` R215, R209: `BUS.RX_ARRIVE(w)`: a frame that is not accepted, or that finds `FILTER_FIFO` full,
leaves no trace; any other is appended as an element that holds the length code on the wire and decodes to the frame,
whatever its ignored header bits. While not `Running` or with `FAULT = 1`, and for what is no frame on the wire, the arrival is no step of the
bus (R215, R216); that such an input is dropped is the model's (log entry 16). -/
def Obligations.BusFrameArrives : Prop :=
  ∀ (s : State) (rest : List Event) (x : Nat) (w : WireFrame) (j0 j1 : Word) (r : Xcvr) (q : List Element),
    s.cfg.wf = true → s.schedule = .bus x (.rxArrive w j0 j1) :: rest → s.xcvrs[x]? = some r →
    r.rxfifo[s.cfg.params.filterFifo]? = some q →
    let u : State := { s with schedule := rest }
    let enabled := r.ctrl.lifecycle = .running ∧ r.stat.fault = false ∧ w.wf = true
    (¬enabled → step s = .next u) ∧
    (enabled → r.accepts w.id w.isExtended = false ∨ s.cfg.params.rxFifoDepth ≤ q.length → step s = .next u) ∧
    (enabled → r.accepts w.id w.isExtended = true → q.length < s.cfg.params.rxFifoDepth → ∃ e : Element,
      step s = .next (u.setXcvr x { r with rxfifo := r.rxfifo.set s.cfg.params.filterFifo (q ++ [e]) }) ∧
      fromRx s.cfg.family e = { id := w.id, length := BitVec.ofNat 8 (min w.dlc.toNat 8), isExtended := w.isExtended,
                                data := Bytes8.ofFn fun i => w.data.getD i 0, timestamp := none } ∧
      (if s.cfg.family = .classic then e.h1.extractLsb' 0 4 else e.h1.extractLsb' 16 4) = w.dlc ∧
      (∀ j, (if s.cfg.family = .classic then j < 2 ∨ (j < 21 ∧ j ≠ 2 ∧ w.isExtended = false)
          else j = 31 ∨ j = 29 ∨ (j < 18 ∧ w.isExtended = false)) → e.h0.getLsbD j = j0.getLsbD j) ∧
      ∀ j, (if s.cfg.family = .classic then 4 ≤ j else j < 16 ∨ 20 ≤ j) → e.h1.getLsbD j = j1.getLsbD j)

/-- `43_transceiver.md` R216, R217, R218: the fault flag is set only while running and cleared only with automatic
recovery configured; `LOCK` may be written at any time; nothing else changes. That it is cleared only while running
too is R205 and `70_reset_and_hazards.md` R341 against R217's own condition: the model's choice (log entry 38). -/
def Obligations.BusFaultAndLock : Prop :=
  ∀ (s : State) (rest : List Event) (x : Nat) (r : Xcvr), s.cfg.wf = true → s.xcvrs[x]? = some r →
    let u : State := { s with schedule := rest }
    (s.schedule = .bus x .faultSet :: rest →
      (r.ctrl.lifecycle = .running ∧ r.stat.fault = false →
        step s = .next (u.setXcvr x { r with stat := { r.stat with fault := true } })) ∧
      (¬(r.ctrl.lifecycle = .running ∧ r.stat.fault = false) → step s = .next u)) ∧
    (s.schedule = .bus x .faultClear :: rest →
      (r.ctrl.lifecycle = .running ∧ r.stat.fault = true ∧ r.ctrl.abor = true →
        step s = .next (u.setXcvr x { r with stat := { r.stat with fault := false } })) ∧
      (¬(r.ctrl.lifecycle = .running ∧ r.stat.fault = true ∧ r.ctrl.abor = true) → step s = .next u)) ∧
    ∀ b, s.schedule = .bus x (.setLock b) :: rest →
      step s = .next (u.setXcvr x { r with ctrl := { r.ctrl with lock := b } })

/-! ### Interrupts and contexts -/

/-- `60_exceptions.md` R307, R310, R311: the transmit-complete request is served only when asserted and no ISR and no
critical section runs; the entry clears `TXC` under `CompletionEvent` only, begins `CHAN.TX_DRAIN` in the ISR
context, and leaves the main context, part-way or not, and everything else as it was. Dropping a request that is
not served is the model's (log entry 16). -/
def Obligations.TxHookEntry : Prop :=
  ∀ (s : State) (rest : List Event) (c : Nat) (k : Chan) (r : Xcvr), s.cfg.wf = true →
    s.schedule = .irqTx c :: rest → s.chans[c]? = some k → s.xcvrs[k.xcvr]? = some r →
    let u : State := { s with schedule := rest }
    let asserted := r.ctrl.lifecycle = .running ∧ r.ctrl.txie = true ∧
      match s.cfg.txIrqKind with
      | .completionEvent => r.stat.txc = true
      | .slotFreeLevel => ∃ n < s.cfg.params.txSlots, r.pending n = false
    let free := s.hook = none ∧ s.isr.task = none ∧ s.masked = false
    (¬(asserted ∧ free) → step s = .next u) ∧
    (asserted → free → step s =
      .next { u with
        hook := some (.tx c)
        isr := { s.isr with task := some (.drainGate c) }
        xcvrs := s.xcvrs.set k.xcvr { r with stat := { r.stat with
          txc := match s.cfg.txIrqKind with
            | .completionEvent => false
            | .slotFreeLevel => r.stat.txc } } })

/-- `60_exceptions.md` R306, R310, R312: the receive request of a FIFO is served only when asserted and no ISR and no
critical section runs; the entry begins `CHAN.RECEIVE` in the ISR context and changes nothing else. How both hooks
end (R311, R312, R314): when the operation of the ISR context is over, the TX hook ends; the RX hook goes on to
`app_dispatch` when the result was `Ok`, and otherwise ends; `app_dispatch` goes on until its own end, which is the
end of the hook. The inputs `advance`, `finish` and `hookReturn`, and dropping one whose condition does not hold, are
the model's (log entries 14, 16, 17); so are `app_dispatch` as a hook that an input ends (log entry 18) and the entry for
the request of any FIFO with `CHAN.RECEIVE` as its body (log entry 35). -/
def Obligations.RxHookEntryAndHookEnds : Prop :=
  (∀ (s : State) (rest : List Event) (c n : Nat) (k : Chan) (r : Xcvr) (q : List Element), s.cfg.wf = true →
    s.schedule = .irqRx c n :: rest → s.chans[c]? = some k → s.xcvrs[k.xcvr]? = some r → r.rxfifo[n]? = some q →
    let u : State := { s with schedule := rest }
    let asserted := r.ctrl.lifecycle = .running ∧ r.ctrl.rxie = true ∧ q ≠ []
    let free := s.hook = none ∧ s.isr.task = none ∧ s.masked = false
    (¬(asserted ∧ free) → step s = .next u) ∧
    (asserted → free → step s =
      .next { u with hook := some (.rx c), isr := { s.isr with task := some (.recvGate c) } })) ∧
  (∀ (s t : State) (rest : List Event) (w : Task), s.cfg.wf = true →
    (s.schedule = .advance .isr :: rest ∨ s.schedule = .finish .isr :: rest) → s.isr.task = some w →
    step s = .next t → t.main = s.main ∧
      ((∃ c, s.schedule = .finish .isr :: rest ∧ w = .recvGate c) → t.isr.task = none) ∧
      (t.isr.task ≠ none → t.hook = s.hook) ∧
      (t.isr.task = none → t.isr.result ≠ none ∧
        (∀ c, s.hook = some (.tx c) → t.hook = none) ∧
        (∀ c, s.hook = some (.rx c) →
          (∀ f, t.isr.result = some (.received .ok (some f)) → t.hook = some (.dispatch c f)) ∧
          ((∀ f, t.isr.result ≠ some (.received .ok (some f))) → t.hook = none)) ∧
        ((∀ c, s.hook ≠ some (.tx c) ∧ s.hook ≠ some (.rx c)) → t.hook = s.hook))) ∧
  ∀ (s : State) (rest : List Event), s.cfg.wf = true → s.schedule = .hookReturn :: rest →
    let u : State := { s with schedule := rest }
    let ended := s.isr.task = none ∧ ∃ c f, s.hook = some (.dispatch c f)
    (ended → step s = .next { u with hook := none }) ∧ (¬ended → step s = .next u)

/-- `20_memory.md` R71, `60_exceptions.md` R308, R314: while a hook or an operation of the ISR context runs, the main
context takes no step and no hook is entered; inside a critical section no hook is entered and no operation of
the ISR context begins (R72: "no ISR starts"). Dropping an input whose condition does not hold is the model's (log
entry 16), and so are operations of the ISR context outside the hooks (log entry 17). -/
def Obligations.MainWaitsAndHooksDoNotNest : Prop :=
  ∀ (s : State) (rest : List Event), s.cfg.wf = true →
    let u : State := { s with schedule := rest }
    ((s.hook ≠ none ∨ s.isr.task ≠ none) →
      (∀ code o, s.schedule = .invoke .main code o :: rest ∨ s.schedule = .start .main code o :: rest →
        step s = .next u) ∧
      (s.schedule = .advance .main :: rest ∨ s.schedule = .finish .main :: rest → step s = .next u) ∧
      (∀ c n, s.schedule = .irqTx c :: rest ∨ s.schedule = .irqRx c n :: rest → step s = .next u)) ∧
    (s.masked = true → s.hook = none →
      (∀ c n, s.schedule = .irqTx c :: rest ∨ s.schedule = .irqRx c n :: rest → step s = .next u) ∧
      ∀ code o, s.schedule = .invoke .isr code o :: rest ∨ s.schedule = .start .isr code o :: rest → step s = .next u)

/-- `20_memory.md` R72: a critical section masks hooks, and its end restores the mask state before it, whatever that
was; nothing else changes. -/
def Obligations.CriticalSectionRestores : Prop :=
  ∀ (s : State) (rest : List Event), s.cfg.wf = true → s.hook = none → s.isr.task = none → s.main.task = none →
    s.schedule = .enterCritical :: rest →
    let u : State := { s with schedule := rest }
    step s = .next { u with masked := true, saved := s.masked :: s.saved } ∧
    ∀ rest', rest = .leaveCritical :: rest' →
      step { u with masked := true, saved := s.masked :: s.saved } = .next { s with schedule := rest' }

/-! ### Reset, the invariant, whole-machine rules -/

/-- `10_state.md` R47, `70_reset_and_hazards.md` R341: what power-on leaves, under every configuration: every register
word zero (the transmit slots are unspecified and not claimed), every container and queue empty, every Channel
uninitialised. Power-on is the one reset (R340, R342): as an input it leaves exactly that state; the configuration, the
inputs still to come and the draws not yet made are not state of the block (log entry 19). -/
def Obligations.ResetValues : Prop :=
  (∀ (s : State) (rest : List Event), s.cfg.wf = true → s.schedule = .powerOn :: rest →
    step s = .next { State.resetWith s.cfg with schedule := rest, draws := s.draws }) ∧
  ∀ c : Config,
  let s := State.resetWith c
  s.frames = [] ∧ s.hook = none ∧ s.main.task = none ∧ s.isr.task = none ∧
  (s.lvs.length = c.lvs.length ∧ ∀ q ∈ s.lvs, q.cells = { c0 := none, c1 := none, c2 := none } ∧ q.producing = 0 ∧
    q.transfer = 1 ∧ q.consuming = 2 ∧ q.stale = true) ∧
  (s.rings.length = c.rings.length ∧ ∀ q ∈ s.rings, (∀ e ∈ q.cells, e = none) ∧ q.front.val = 0 ∧ q.back.val = 0 ∧
    q.staged = none) ∧
  (s.xcvrs.length = c.xcvrs ∧ ∀ r ∈ s.xcvrs, r.ctrl.word = 0 ∧ r.stat.word = 0 ∧ r.btr.word = 0 ∧
    r.fctrl.word = 0 ∧ (∀ bank ∈ r.fbank, ∀ f ∈ bank, f.word = 0) ∧ r.txpend = 0 ∧ (∀ q ∈ r.rxfifo, q = []) ∧
    r.wireTx = []) ∧
  s.chans.length = c.chans.length ∧ ∀ k ∈ s.chans, k.state = .uninitialized ∧ k.dropCount = 0 ∧
    (∀ e ∈ k.retry.cells, e = none) ∧ k.retry.front.val = 0 ∧ k.retry.back.val = 0 ∧ k.retry.staged = none

/-- The invariant holds after power-on under every well-formed configuration, and so in the machine's reset state,
whose configuration is the model's (log entry 1). -/
def Obligations.ResetMeetsInvariant : Prop :=
  (∀ c : Config, c.wf = true → (State.resetWith c).Inv) ∧ State.reset.Inv

/-- The invariant of the block is kept by every step, under every input and every interleaving of the contexts and the
bus agent: Frames stay masked, clamped and zero filled (`10_state.md` R23), role indices stay a permutation (R26,
`41_latest_value_slot.md` R166), unread ring cells stay written (R29, R30), FIFOs within
their depth and pending bits below `TX_SLOTS` (R38, R39), caller memory in canonical form. -/
def Obligations.EveryStepKeepsInvariant : Prop := ∀ s t : State, s.Inv → step s = .next t → t.Inv

/-- `00_scope.md` R5, `44_transceiver_families.md` R250, `43_transceiver.md` R201, `10_state.md` R44: no step changes the
configuration (the family in particular); no step but power-on takes a Transceiver out of `Failed` or shortens or
rewrites the wire log. -/
def Obligations.FamilyFixedFailedAbsorbingWireLogGrows : Prop :=
  ∀ s t : State, step s = .next t → t.cfg = s.cfg ∧
    ((∀ rest, s.schedule ≠ .powerOn :: rest) → ∀ (x : Nat) (r : Xcvr), s.xcvrs[x]? = some r →
      ∃ r' : Xcvr, t.xcvrs[x]? = some r' ∧
      (r.ctrl.lifecycle = .failed → r'.ctrl.lifecycle = .failed) ∧ ∃ l, r'.wireTx = r.wireTx ++ l)

end
end

