-- ==== Sys2Proof/Laws/Codec.lean ====
section
/-! SUPPORT. The encodings of a frame: the eight bytes, the clamp and the mask as numbers, what both construction paths
give (`10_state.md` R23), and the decoders after the encoders (`30_encoding.md` R112). -/

namespace Sys2Proof

theorem Bytes8.get_ofFn (f : Nat → Byte) {i : Nat} (h : i < 8) : (Bytes8.ofFn f).get i = f i := by
  interval_cases i <;> rfl

/-- A `[u8;8]` is its eight bytes (`10_state.md` R22). -/
theorem Bytes8.ofFn_get (d : Bytes8) : Bytes8.ofFn d.get = d := rfl

/-- Eight bytes that read alike are the same. -/
theorem Bytes8.ext_get {a b : Bytes8} (h : ∀ i < 8, a.get i = b.get i) : a = b := by
  rw [← a.ofFn_get, ← b.ofFn_get]
  simp [Bytes8.ofFn, h]

/-- `Frame.wf` as a proposition (`10_state.md` R22, R23). -/
theorem Frame.wf_iff {c : Config} {f : Frame} : f.wf c = true ↔
    f.id.toNat < (if f.isExtended then 2 ^ 29 else 2 ^ 11) ∧ f.length.toNat ≤ 8 ∧
      (∀ i < 8, f.length.toNat ≤ i → f.data.get i = 0) ∧ ∀ t, f.timestamp = some t → t < 2 ^ c.tsWidth := by
  simp only [Frame.wf, Bool.and_eq_true, decide_eq_true_eq, List.all_eq_true, List.mem_range, Bool.or_eq_true,
    beq_iff_eq, and_assoc]
  refine and_congr Iff.rfl (and_congr Iff.rfl (and_congr (forall₂_congr fun i _ => ?_) ?_))
  · constructor
    · rintro (h | h) hi
      · omega
      · exact h
    · intro h
      by_cases hi : i < f.length.toNat
      · exact .inl hi
      · exact .inr (h (by omega))
  · cases f.timestamp <;> simp

namespace Machine

theorem clampLen_toNat (l : Byte) : (clampLen l).toNat = min l.toNat 8 := by
  unfold clampLen
  split
  · omega
  · rename_i h; rw [Nat.min_eq_right (by omega)]; rfl

theorem clampLen_of_le {l : Byte} (h : l.toNat ≤ 8) : clampLen l = l := if_pos h

/-- `mask_id` wraps modulo `2^11` or `2^29` (`30_encoding.md` R113 (a)). -/
theorem maskId_toNat (id : Word) (ext : Bool) :
    (maskId id ext).toNat = id.toNat % if ext then 2 ^ 29 else 2 ^ 11 := by
  unfold maskId
  cases ext
  · have h := Nat.and_two_pow_sub_one_eq_mod id.toNat 11
    simpa [BitVec.toNat_and] using h
  · have h := Nat.and_two_pow_sub_one_eq_mod id.toNat 29
    simpa [BitVec.toNat_and] using h

theorem maskId_lt (id : Word) (ext : Bool) : (maskId id ext).toNat < if ext then 2 ^ 29 else 2 ^ 11 := by
  rw [maskId_toNat]; cases ext <;> exact Nat.mod_lt _ (by decide)

theorem maskId_of_lt {id : Word} {ext : Bool} (h : id.toNat < if ext then 2 ^ 29 else 2 ^ 11) :
    maskId id ext = id := by
  apply BitVec.eq_of_toNat_eq; rw [maskId_toNat, Nat.mod_eq_of_lt h]

theorem keepBytes_get (len : Byte) (d : Nat → Byte) {i : Nat} (h : i < 8) :
    (keepBytes len d).get i = if i < len.toNat then d i else 0 := Bytes8.get_ofFn _ h

/-- What `FRAME.NEW` builds satisfies R23. -/
theorem newFrame_wf (c : Config) (id : Word) (len : Byte) (d : Bytes8) (ext : Bool) :
    (newFrame id len d ext).wf c = true := by
  refine Frame.wf_iff.2 ⟨maskId_lt id ext, ?_, fun i hi hl => ?_, fun t h => nomatch h⟩
  · simp only [newFrame, clampLen_toNat]; omega
  · simp only [newFrame] at hl ⊢; rw [keepBytes_get _ _ hi, if_neg (by omega)]

/-- What `FRAME.FROM_RX` builds satisfies R23. -/
theorem fromRx_wf (c : Config) (fam : Family) (e : Element) : (fromRx fam e).wf c = true := by
  refine Frame.wf_iff.2 ⟨maskId_lt _ _, ?_, fun i hi hl => ?_, fun t h => nomatch h⟩
  · simp only [fromRx, dlcDecode, clampLen_toNat]; omega
  · simp only [fromRx] at hl ⊢; rw [keepBytes_get _ _ hi, if_neg (by omega)]

/-- Setting a timestamp that fits keeps R23. -/
theorem Frame.wf_stamp {c : Config} {f : Frame} (h : f.wf c = true) {t : Nat} (ht : t < 2 ^ c.tsWidth) :
    ({ f with timestamp := some t } : Frame).wf c = true := by
  have h' := Frame.wf_iff.1 h
  exact Frame.wf_iff.2 ⟨h'.1, h'.2.1, h'.2.2.1, fun u hu => by cases hu; exact ht⟩

theorem timestampOf_lt (c : Config) (t : Nat) : timestampOf c t < 2 ^ c.tsWidth := Nat.mod_lt _ (Nat.two_pow_pos _)

/-- A Frame given by its fields is one that can exist. -/
theorem givenFrame_wf (c : Config) (f : Frame) : (givenFrame c f).wf c = true := by
  have h := Frame.wf_iff.1 (newFrame_wf c f.id f.length f.data f.isExtended)
  refine Frame.wf_iff.2 ⟨h.1, h.2.1, h.2.2.1, fun t ht => ?_⟩
  obtain ⟨u, -, rfl⟩ := Option.map_eq_some_iff.1 ht
  exact timestampOf_lt c u

/-- A Frame that exists denotes itself. -/
theorem givenFrame_of_wf {c : Config} {f : Frame} (h : f.wf c = true) : givenFrame c f = f := by
  obtain ⟨hid, hlen, hdata, hts⟩ := Frame.wf_iff.1 h
  have hl := clampLen_of_le hlen
  have hd : keepBytes f.length f.data.get = f.data := Bytes8.ext_get fun i hi => by
    rw [keepBytes_get _ _ hi]; split
    · rfl
    · exact (hdata i hi (by omega)).symm
  have ht : f.timestamp.map (timestampOf c) = f.timestamp := by
    cases hf : f.timestamp with
    | none => rfl
    | some t => simp [timestampOf, Nat.mod_eq_of_lt (hts t hf)]
  simp only [givenFrame, newFrame, hl, hd, ht, maskId_of_lt hid]

/-! ### Decoders after encoders (`30_encoding.md` R112) -/

theorem getLsbD_high {w : Word} {k i : Nat} (h : w.toNat < 2 ^ k) (hi : k ≤ i) : w.getLsbD i = false := by
  rw [BitVec.getLsbD]
  exact Nat.testBit_lt_two_pow (Nat.lt_of_lt_of_le h (Nat.pow_le_pow_right (by decide) hi))

/-- A field read back from where it was put. -/
theorem extract_setWidth {w v : Word} {k n : Nat} (h : w.toNat < 2 ^ n)
    (hv : ∀ i < n, v.getLsbD (k + i) = w.getLsbD i) : (v.extractLsb' k n).setWidth 32 = w := by
  apply BitVec.eq_of_getLsbD_eq
  intro i hi
  rw [BitVec.getLsbD_setWidth, BitVec.getLsbD_extractLsb']
  by_cases hin : i < n
  · simp [hin, hi, hv i hin]
  · rw [getLsbD_high h (by omega)]; simp [hin]

theorem decH0_encH0 (fam : Family) {id : Word} {ext : Bool} (h : id.toNat < if ext then 2 ^ 29 else 2 ^ 11) :
    decH0 fam (encH0 fam id ext) = (id, ext) := by
  cases fam <;> cases ext
  · have hb : (id <<< 21).getLsbD 2 = false := by simp
    have hf : ((id <<< 21).extractLsb' 21 11).setWidth 32 = id :=
      extract_setWidth (by simpa using h) fun i hi => by simp; omega
    simp only [decH0, encH0, if_false, Bool.false_eq_true, hb, hf]
  · have hb : ((id <<< 3) ||| 0b100).getLsbD 2 = true := by simp
    have hc : ∀ i < 29, (0b100 : Word).getLsbD (3 + i) = false := by decide
    have hf : (((id <<< 3) ||| 0b100).extractLsb' 3 29).setWidth 32 = id :=
      extract_setWidth (by simpa using h) fun i hi => by
        rw [BitVec.getLsbD_or, hc i hi, Bool.or_false]; simp; omega
    simp only [decH0, encH0, if_true, hb, hf]
  · have hb : (id <<< 18).getLsbD 30 = false := by
      have : id.getLsbD 12 = false := getLsbD_high (k := 11) (by simpa using h) (by decide)
      simpa using this
    have hf : ((id <<< 18).extractLsb' 18 11).setWidth 32 = id :=
      extract_setWidth (by simpa using h) fun i hi => by simp; omega
    simp only [decH0, encH0, if_false, Bool.false_eq_true, hb, hf]
  · have hb : (id ||| 0x40000000).getLsbD 30 = true := by simp
    have hc : ∀ i < 29, (0x40000000 : Word).getLsbD (0 + i) = false := by decide
    have hf : ((id ||| 0x40000000).extractLsb' 0 29).setWidth 32 = id :=
      extract_setWidth (by simpa using h) fun i hi => by
        rw [BitVec.getLsbD_or, hc i hi, Bool.or_false, Nat.zero_add]
    simp only [decH0, encH0, if_true, hb, hf]

theorem decH1_encH1 (fam : Family) (code : BitVec 4) : decH1 fam (encH1 fam (code.setWidth 32)) = code := by
  cases fam <;> revert code <;> decide

/-- The length code of a Frame's length (`30_encoding.md` R103, R104). -/
theorem dlcDecode_length {fam : Family} {len : Byte} (h : len.toNat ≤ 8) :
    dlcDecode (decH1 fam (encH1 fam (len.setWidth 32))) = len := by
  have hl : ∀ len : Byte, len.toNat ≤ 8 → len.setWidth 32 = (len.setWidth 4).setWidth 32 ∧
      clampLen ((len.setWidth 4).setWidth 8) = len := by decide
  rw [(hl len h).1, decH1_encH1]; exact (hl len h).2

theorem packWord_extract (a b c d : Byte) :
    (packWord a b c d).extractLsb' 0 8 = a ∧ (packWord a b c d).extractLsb' 8 8 = b ∧
    (packWord a b c d).extractLsb' 16 8 = c ∧ (packWord a b c d).extractLsb' 24 8 = d := by
  refine ⟨?_, ?_, ?_, ?_⟩ <;> apply BitVec.eq_of_getLsbD_eq <;> intro i hi <;>
    rw [BitVec.getLsbD_extractLsb'] <;>
    simp only [packWord, BitVec.getLsbD_or, BitVec.getLsbD_shiftLeft, BitVec.getLsbD_setWidth] <;>
    interval_cases i <;> simp

theorem laneByte_pack (d : Bytes8) {i : Nat} (h : i < 8) : laneByte (packDl d) (packDh d) i = d.get i := by
  have l := packWord_extract (d.get 0) (d.get 1) (d.get 2) (d.get 3)
  have u := packWord_extract (d.get 4) (d.get 5) (d.get 6) (d.get 7)
  interval_cases i
  exacts [l.1, l.2.1, l.2.2.1, l.2.2.2, u.1, u.2.1, u.2.2.1, u.2.2.2]

end Machine
end Sys2Proof
end

