-- ==== Sys2Proof/Laws/State.lean ====
section
/-! SUPPORT. What each update of the state does to each field: one lemma per field per update. -/

namespace Sys2Proof.Machine

variable (s : State)

/-! ### `State.setLvs` -/

@[simp] theorem State.setLvs_cfg (l : Nat) (v : Lvs Value) : (s.setLvs l v).cfg = s.cfg := rfl
@[simp] theorem State.setLvs_schedule (l : Nat) (v : Lvs Value) : (s.setLvs l v).schedule = s.schedule := rfl
@[simp] theorem State.setLvs_agent (l : Nat) (v : Lvs Value) : (s.setLvs l v).agent = s.agent := rfl
@[simp] theorem State.setLvs_main (l : Nat) (v : Lvs Value) : (s.setLvs l v).main = s.main := rfl
@[simp] theorem State.setLvs_isr (l : Nat) (v : Lvs Value) : (s.setLvs l v).isr = s.isr := rfl
@[simp] theorem State.setLvs_hook (l : Nat) (v : Lvs Value) : (s.setLvs l v).hook = s.hook := rfl
@[simp] theorem State.setLvs_masked (l : Nat) (v : Lvs Value) : (s.setLvs l v).masked = s.masked := rfl
@[simp] theorem State.setLvs_saved (l : Nat) (v : Lvs Value) : (s.setLvs l v).saved = s.saved := rfl
@[simp] theorem State.setLvs_frames (l : Nat) (v : Lvs Value) : (s.setLvs l v).frames = s.frames := rfl
@[simp] theorem State.setLvs_lvs (l : Nat) (v : Lvs Value) : (s.setLvs l v).lvs = s.lvs.set l v := rfl
@[simp] theorem State.setLvs_rings (l : Nat) (v : Lvs Value) : (s.setLvs l v).rings = s.rings := rfl
@[simp] theorem State.setLvs_xcvrs (l : Nat) (v : Lvs Value) : (s.setLvs l v).xcvrs = s.xcvrs := rfl
@[simp] theorem State.setLvs_chans (l : Nat) (v : Lvs Value) : (s.setLvs l v).chans = s.chans := rfl
@[simp] theorem State.setLvs_mem (l : Nat) (v : Lvs Value) : (s.setLvs l v).mem = s.mem := rfl
@[simp] theorem State.setLvs_draws (l : Nat) (v : Lvs Value) : (s.setLvs l v).draws = s.draws := rfl
@[simp] theorem State.setLvs_ctx (l : Nat) (v : Lvs Value) (e : Ctx) : (s.setLvs l v).ctx e = s.ctx e := by cases e <;> rfl

/-! ### `State.setRing` -/

@[simp] theorem State.setRing_cfg (r : Nat) (v : Ring Value) : (s.setRing r v).cfg = s.cfg := rfl
@[simp] theorem State.setRing_schedule (r : Nat) (v : Ring Value) : (s.setRing r v).schedule = s.schedule := rfl
@[simp] theorem State.setRing_agent (r : Nat) (v : Ring Value) : (s.setRing r v).agent = s.agent := rfl
@[simp] theorem State.setRing_main (r : Nat) (v : Ring Value) : (s.setRing r v).main = s.main := rfl
@[simp] theorem State.setRing_isr (r : Nat) (v : Ring Value) : (s.setRing r v).isr = s.isr := rfl
@[simp] theorem State.setRing_hook (r : Nat) (v : Ring Value) : (s.setRing r v).hook = s.hook := rfl
@[simp] theorem State.setRing_masked (r : Nat) (v : Ring Value) : (s.setRing r v).masked = s.masked := rfl
@[simp] theorem State.setRing_saved (r : Nat) (v : Ring Value) : (s.setRing r v).saved = s.saved := rfl
@[simp] theorem State.setRing_frames (r : Nat) (v : Ring Value) : (s.setRing r v).frames = s.frames := rfl
@[simp] theorem State.setRing_lvs (r : Nat) (v : Ring Value) : (s.setRing r v).lvs = s.lvs := rfl
@[simp] theorem State.setRing_rings (r : Nat) (v : Ring Value) : (s.setRing r v).rings = s.rings.set r v := rfl
@[simp] theorem State.setRing_xcvrs (r : Nat) (v : Ring Value) : (s.setRing r v).xcvrs = s.xcvrs := rfl
@[simp] theorem State.setRing_chans (r : Nat) (v : Ring Value) : (s.setRing r v).chans = s.chans := rfl
@[simp] theorem State.setRing_mem (r : Nat) (v : Ring Value) : (s.setRing r v).mem = s.mem := rfl
@[simp] theorem State.setRing_draws (r : Nat) (v : Ring Value) : (s.setRing r v).draws = s.draws := rfl
@[simp] theorem State.setRing_ctx (r : Nat) (v : Ring Value) (e : Ctx) : (s.setRing r v).ctx e = s.ctx e := by cases e <;> rfl

/-! ### `State.setXcvr` -/

@[simp] theorem State.setXcvr_cfg (x : Nat) (v : Xcvr) : (s.setXcvr x v).cfg = s.cfg := rfl
@[simp] theorem State.setXcvr_schedule (x : Nat) (v : Xcvr) : (s.setXcvr x v).schedule = s.schedule := rfl
@[simp] theorem State.setXcvr_agent (x : Nat) (v : Xcvr) : (s.setXcvr x v).agent = s.agent := rfl
@[simp] theorem State.setXcvr_main (x : Nat) (v : Xcvr) : (s.setXcvr x v).main = s.main := rfl
@[simp] theorem State.setXcvr_isr (x : Nat) (v : Xcvr) : (s.setXcvr x v).isr = s.isr := rfl
@[simp] theorem State.setXcvr_hook (x : Nat) (v : Xcvr) : (s.setXcvr x v).hook = s.hook := rfl
@[simp] theorem State.setXcvr_masked (x : Nat) (v : Xcvr) : (s.setXcvr x v).masked = s.masked := rfl
@[simp] theorem State.setXcvr_saved (x : Nat) (v : Xcvr) : (s.setXcvr x v).saved = s.saved := rfl
@[simp] theorem State.setXcvr_frames (x : Nat) (v : Xcvr) : (s.setXcvr x v).frames = s.frames := rfl
@[simp] theorem State.setXcvr_lvs (x : Nat) (v : Xcvr) : (s.setXcvr x v).lvs = s.lvs := rfl
@[simp] theorem State.setXcvr_rings (x : Nat) (v : Xcvr) : (s.setXcvr x v).rings = s.rings := rfl
@[simp] theorem State.setXcvr_xcvrs (x : Nat) (v : Xcvr) : (s.setXcvr x v).xcvrs = s.xcvrs.set x v := rfl
@[simp] theorem State.setXcvr_chans (x : Nat) (v : Xcvr) : (s.setXcvr x v).chans = s.chans := rfl
@[simp] theorem State.setXcvr_mem (x : Nat) (v : Xcvr) : (s.setXcvr x v).mem = s.mem := rfl
@[simp] theorem State.setXcvr_draws (x : Nat) (v : Xcvr) : (s.setXcvr x v).draws = s.draws := rfl
@[simp] theorem State.setXcvr_ctx (x : Nat) (v : Xcvr) (e : Ctx) : (s.setXcvr x v).ctx e = s.ctx e := by cases e <;> rfl

/-! ### `State.setChan` -/

@[simp] theorem State.setChan_cfg (c : Nat) (v : Chan) : (s.setChan c v).cfg = s.cfg := rfl
@[simp] theorem State.setChan_schedule (c : Nat) (v : Chan) : (s.setChan c v).schedule = s.schedule := rfl
@[simp] theorem State.setChan_agent (c : Nat) (v : Chan) : (s.setChan c v).agent = s.agent := rfl
@[simp] theorem State.setChan_main (c : Nat) (v : Chan) : (s.setChan c v).main = s.main := rfl
@[simp] theorem State.setChan_isr (c : Nat) (v : Chan) : (s.setChan c v).isr = s.isr := rfl
@[simp] theorem State.setChan_hook (c : Nat) (v : Chan) : (s.setChan c v).hook = s.hook := rfl
@[simp] theorem State.setChan_masked (c : Nat) (v : Chan) : (s.setChan c v).masked = s.masked := rfl
@[simp] theorem State.setChan_saved (c : Nat) (v : Chan) : (s.setChan c v).saved = s.saved := rfl
@[simp] theorem State.setChan_frames (c : Nat) (v : Chan) : (s.setChan c v).frames = s.frames := rfl
@[simp] theorem State.setChan_lvs (c : Nat) (v : Chan) : (s.setChan c v).lvs = s.lvs := rfl
@[simp] theorem State.setChan_rings (c : Nat) (v : Chan) : (s.setChan c v).rings = s.rings := rfl
@[simp] theorem State.setChan_xcvrs (c : Nat) (v : Chan) : (s.setChan c v).xcvrs = s.xcvrs := rfl
@[simp] theorem State.setChan_chans (c : Nat) (v : Chan) : (s.setChan c v).chans = s.chans.set c v := rfl
@[simp] theorem State.setChan_mem (c : Nat) (v : Chan) : (s.setChan c v).mem = s.mem := rfl
@[simp] theorem State.setChan_draws (c : Nat) (v : Chan) : (s.setChan c v).draws = s.draws := rfl
@[simp] theorem State.setChan_ctx (c : Nat) (v : Chan) (e : Ctx) : (s.setChan c v).ctx e = s.ctx e := by cases e <;> rfl

/-! ### `State.setMem` -/

@[simp] theorem State.setMem_cfg (m : Memory) : (s.setMem m).cfg = s.cfg := rfl
@[simp] theorem State.setMem_schedule (m : Memory) : (s.setMem m).schedule = s.schedule := rfl
@[simp] theorem State.setMem_agent (m : Memory) : (s.setMem m).agent = s.agent := rfl
@[simp] theorem State.setMem_main (m : Memory) : (s.setMem m).main = s.main := rfl
@[simp] theorem State.setMem_isr (m : Memory) : (s.setMem m).isr = s.isr := rfl
@[simp] theorem State.setMem_hook (m : Memory) : (s.setMem m).hook = s.hook := rfl
@[simp] theorem State.setMem_masked (m : Memory) : (s.setMem m).masked = s.masked := rfl
@[simp] theorem State.setMem_saved (m : Memory) : (s.setMem m).saved = s.saved := rfl
@[simp] theorem State.setMem_frames (m : Memory) : (s.setMem m).frames = s.frames := rfl
@[simp] theorem State.setMem_lvs (m : Memory) : (s.setMem m).lvs = s.lvs := rfl
@[simp] theorem State.setMem_rings (m : Memory) : (s.setMem m).rings = s.rings := rfl
@[simp] theorem State.setMem_xcvrs (m : Memory) : (s.setMem m).xcvrs = s.xcvrs := rfl
@[simp] theorem State.setMem_chans (m : Memory) : (s.setMem m).chans = s.chans := rfl
@[simp] theorem State.setMem_mem (m : Memory) : (s.setMem m).mem = m := rfl
@[simp] theorem State.setMem_draws (m : Memory) : (s.setMem m).draws = s.draws := rfl
@[simp] theorem State.setMem_ctx (m : Memory) (e : Ctx) : (s.setMem m).ctx e = s.ctx e := by cases e <;> rfl

/-! ### `State.setDraws` -/

@[simp] theorem State.setDraws_cfg (d : Draws) : (s.setDraws d).cfg = s.cfg := rfl
@[simp] theorem State.setDraws_schedule (d : Draws) : (s.setDraws d).schedule = s.schedule := rfl
@[simp] theorem State.setDraws_agent (d : Draws) : (s.setDraws d).agent = s.agent := rfl
@[simp] theorem State.setDraws_main (d : Draws) : (s.setDraws d).main = s.main := rfl
@[simp] theorem State.setDraws_isr (d : Draws) : (s.setDraws d).isr = s.isr := rfl
@[simp] theorem State.setDraws_hook (d : Draws) : (s.setDraws d).hook = s.hook := rfl
@[simp] theorem State.setDraws_masked (d : Draws) : (s.setDraws d).masked = s.masked := rfl
@[simp] theorem State.setDraws_saved (d : Draws) : (s.setDraws d).saved = s.saved := rfl
@[simp] theorem State.setDraws_frames (d : Draws) : (s.setDraws d).frames = s.frames := rfl
@[simp] theorem State.setDraws_lvs (d : Draws) : (s.setDraws d).lvs = s.lvs := rfl
@[simp] theorem State.setDraws_rings (d : Draws) : (s.setDraws d).rings = s.rings := rfl
@[simp] theorem State.setDraws_xcvrs (d : Draws) : (s.setDraws d).xcvrs = s.xcvrs := rfl
@[simp] theorem State.setDraws_chans (d : Draws) : (s.setDraws d).chans = s.chans := rfl
@[simp] theorem State.setDraws_mem (d : Draws) : (s.setDraws d).mem = s.mem := rfl
@[simp] theorem State.setDraws_draws (d : Draws) : (s.setDraws d).draws = d := rfl
@[simp] theorem State.setDraws_ctx (d : Draws) (e : Ctx) : (s.setDraws d).ctx e = s.ctx e := by cases e <;> rfl

/-! ### `State.setAgent` -/

@[simp] theorem State.setAgent_cfg (c : Ctx) : (s.setAgent c).cfg = s.cfg := rfl
@[simp] theorem State.setAgent_schedule (c : Ctx) : (s.setAgent c).schedule = s.schedule := rfl
@[simp] theorem State.setAgent_agent (c : Ctx) : (s.setAgent c).agent = c := rfl
@[simp] theorem State.setAgent_main (c : Ctx) : (s.setAgent c).main = s.main := rfl
@[simp] theorem State.setAgent_isr (c : Ctx) : (s.setAgent c).isr = s.isr := rfl
@[simp] theorem State.setAgent_hook (c : Ctx) : (s.setAgent c).hook = s.hook := rfl
@[simp] theorem State.setAgent_masked (c : Ctx) : (s.setAgent c).masked = s.masked := rfl
@[simp] theorem State.setAgent_saved (c : Ctx) : (s.setAgent c).saved = s.saved := rfl
@[simp] theorem State.setAgent_frames (c : Ctx) : (s.setAgent c).frames = s.frames := rfl
@[simp] theorem State.setAgent_lvs (c : Ctx) : (s.setAgent c).lvs = s.lvs := rfl
@[simp] theorem State.setAgent_rings (c : Ctx) : (s.setAgent c).rings = s.rings := rfl
@[simp] theorem State.setAgent_xcvrs (c : Ctx) : (s.setAgent c).xcvrs = s.xcvrs := rfl
@[simp] theorem State.setAgent_chans (c : Ctx) : (s.setAgent c).chans = s.chans := rfl
@[simp] theorem State.setAgent_mem (c : Ctx) : (s.setAgent c).mem = s.mem := rfl
@[simp] theorem State.setAgent_draws (c : Ctx) : (s.setAgent c).draws = s.draws := rfl
@[simp] theorem State.setAgent_ctx (c : Ctx) (e : Ctx) : (s.setAgent c).ctx e = s.ctx e := by cases e <;> rfl

/-! ### `State.setCtx` -/

@[simp] theorem State.setCtx_cfg (c : Ctx) (k : Context) : (s.setCtx c k).cfg = s.cfg := by cases c <;> rfl
@[simp] theorem State.setCtx_schedule (c : Ctx) (k : Context) : (s.setCtx c k).schedule = s.schedule := by cases c <;> rfl
@[simp] theorem State.setCtx_agent (c : Ctx) (k : Context) : (s.setCtx c k).agent = s.agent := by cases c <;> rfl
@[simp] theorem State.setCtx_hook (c : Ctx) (k : Context) : (s.setCtx c k).hook = s.hook := by cases c <;> rfl
@[simp] theorem State.setCtx_masked (c : Ctx) (k : Context) : (s.setCtx c k).masked = s.masked := by cases c <;> rfl
@[simp] theorem State.setCtx_saved (c : Ctx) (k : Context) : (s.setCtx c k).saved = s.saved := by cases c <;> rfl
@[simp] theorem State.setCtx_frames (c : Ctx) (k : Context) : (s.setCtx c k).frames = s.frames := by cases c <;> rfl
@[simp] theorem State.setCtx_lvs (c : Ctx) (k : Context) : (s.setCtx c k).lvs = s.lvs := by cases c <;> rfl
@[simp] theorem State.setCtx_rings (c : Ctx) (k : Context) : (s.setCtx c k).rings = s.rings := by cases c <;> rfl
@[simp] theorem State.setCtx_xcvrs (c : Ctx) (k : Context) : (s.setCtx c k).xcvrs = s.xcvrs := by cases c <;> rfl
@[simp] theorem State.setCtx_chans (c : Ctx) (k : Context) : (s.setCtx c k).chans = s.chans := by cases c <;> rfl
@[simp] theorem State.setCtx_mem (c : Ctx) (k : Context) : (s.setCtx c k).mem = s.mem := by cases c <;> rfl
@[simp] theorem State.setCtx_draws (c : Ctx) (k : Context) : (s.setCtx c k).draws = s.draws := by cases c <;> rfl

/-! ### `State.setTask` -/

@[simp] theorem State.setTask_cfg (c : Ctx) (t : Option Task) : (s.setTask c t).cfg = s.cfg := by cases c <;> rfl
@[simp] theorem State.setTask_schedule (c : Ctx) (t : Option Task) : (s.setTask c t).schedule = s.schedule := by cases c <;> rfl
@[simp] theorem State.setTask_agent (c : Ctx) (t : Option Task) : (s.setTask c t).agent = s.agent := by cases c <;> rfl
@[simp] theorem State.setTask_hook (c : Ctx) (t : Option Task) : (s.setTask c t).hook = s.hook := by cases c <;> rfl
@[simp] theorem State.setTask_masked (c : Ctx) (t : Option Task) : (s.setTask c t).masked = s.masked := by cases c <;> rfl
@[simp] theorem State.setTask_saved (c : Ctx) (t : Option Task) : (s.setTask c t).saved = s.saved := by cases c <;> rfl
@[simp] theorem State.setTask_frames (c : Ctx) (t : Option Task) : (s.setTask c t).frames = s.frames := by cases c <;> rfl
@[simp] theorem State.setTask_lvs (c : Ctx) (t : Option Task) : (s.setTask c t).lvs = s.lvs := by cases c <;> rfl
@[simp] theorem State.setTask_rings (c : Ctx) (t : Option Task) : (s.setTask c t).rings = s.rings := by cases c <;> rfl
@[simp] theorem State.setTask_xcvrs (c : Ctx) (t : Option Task) : (s.setTask c t).xcvrs = s.xcvrs := by cases c <;> rfl
@[simp] theorem State.setTask_chans (c : Ctx) (t : Option Task) : (s.setTask c t).chans = s.chans := by cases c <;> rfl
@[simp] theorem State.setTask_mem (c : Ctx) (t : Option Task) : (s.setTask c t).mem = s.mem := by cases c <;> rfl
@[simp] theorem State.setTask_draws (c : Ctx) (t : Option Task) : (s.setTask c t).draws = s.draws := by cases c <;> rfl

@[simp] theorem State.ctx_main : s.ctx .main = s.main := rfl
@[simp] theorem State.ctx_isr : s.ctx .isr = s.isr := rfl

@[simp] theorem State.setCtx_ctx (c d : Ctx) (k : Context) : (s.setCtx c k).ctx d = if d = c then k else s.ctx d := by
  cases c <;> cases d <;> rfl

@[simp] theorem State.setTask_ctx (c d : Ctx) (t : Option Task) :
    (s.setTask c t).ctx d = if d = c then { s.ctx c with task := t } else s.ctx d := by
  cases c <;> cases d <;> rfl

@[simp] theorem State.setTask_main_main (t : Option Task) : (s.setTask .main t).main = { s.main with task := t } := rfl
@[simp] theorem State.setTask_main_isr (t : Option Task) : (s.setTask .main t).isr = s.isr := rfl
@[simp] theorem State.setTask_isr_main (t : Option Task) : (s.setTask .isr t).main = s.main := rfl
@[simp] theorem State.setTask_isr_isr (t : Option Task) : (s.setTask .isr t).isr = { s.isr with task := t } := rfl

/-! ### `State.returns` -/

@[simp] theorem State.returns_cfg (r : OpResult) : (s.returns r).cfg = s.cfg := by simp [State.returns]
@[simp] theorem State.returns_schedule (r : OpResult) : (s.returns r).schedule = s.schedule := by simp [State.returns]
@[simp] theorem State.returns_agent (r : OpResult) : (s.returns r).agent = s.agent := by simp [State.returns]
@[simp] theorem State.returns_hook (r : OpResult) : (s.returns r).hook = s.hook := by simp [State.returns]
@[simp] theorem State.returns_masked (r : OpResult) : (s.returns r).masked = s.masked := by simp [State.returns]
@[simp] theorem State.returns_saved (r : OpResult) : (s.returns r).saved = s.saved := by simp [State.returns]
@[simp] theorem State.returns_lvs (r : OpResult) : (s.returns r).lvs = s.lvs := by simp [State.returns]
@[simp] theorem State.returns_rings (r : OpResult) : (s.returns r).rings = s.rings := by simp [State.returns]
@[simp] theorem State.returns_xcvrs (r : OpResult) : (s.returns r).xcvrs = s.xcvrs := by simp [State.returns]
@[simp] theorem State.returns_chans (r : OpResult) : (s.returns r).chans = s.chans := by simp [State.returns]
@[simp] theorem State.returns_mem (r : OpResult) : (s.returns r).mem = s.mem := by simp [State.returns]
@[simp] theorem State.returns_draws (r : OpResult) : (s.returns r).draws = s.draws := by simp [State.returns]

@[simp] theorem State.returns_frames (r : OpResult) : (s.returns r).frames = s.frames ++ r.heldFrames := by
  simp [State.returns]

@[simp] theorem State.returns_ctx (r : OpResult) (d : Ctx) :
    (s.returns r).ctx d = if d = s.agent then { s.ctx s.agent with result := some r } else s.ctx d := by
  simp only [State.returns]
  cases h : s.agent <;> cases d <;> simp_all [State.setCtx, State.ctx]

theorem State.returns_task (r : OpResult) (d : Ctx) : ((s.returns r).ctx d).task = (s.ctx d).task := by
  rw [State.returns_ctx]; split <;> simp_all

@[simp] theorem State.returns_main_task (r : OpResult) : (s.returns r).main.task = s.main.task := s.returns_task r .main
@[simp] theorem State.returns_isr_task (r : OpResult) : (s.returns r).isr.task = s.isr.task := s.returns_task r .isr

/-! ### Hooks -/

@[simp] theorem State.enterHook_cfg (h : Hook) (t : Task) : (s.enterHook h t).cfg = s.cfg := rfl
@[simp] theorem State.enterHook_schedule (h : Hook) (t : Task) : (s.enterHook h t).schedule = s.schedule := rfl
@[simp] theorem State.enterHook_agent (h : Hook) (t : Task) : (s.enterHook h t).agent = s.agent := rfl
@[simp] theorem State.enterHook_main (h : Hook) (t : Task) : (s.enterHook h t).main = s.main := rfl
@[simp] theorem State.enterHook_masked (h : Hook) (t : Task) : (s.enterHook h t).masked = s.masked := rfl
@[simp] theorem State.enterHook_saved (h : Hook) (t : Task) : (s.enterHook h t).saved = s.saved := rfl
@[simp] theorem State.enterHook_frames (h : Hook) (t : Task) : (s.enterHook h t).frames = s.frames := rfl
@[simp] theorem State.enterHook_lvs (h : Hook) (t : Task) : (s.enterHook h t).lvs = s.lvs := rfl
@[simp] theorem State.enterHook_rings (h : Hook) (t : Task) : (s.enterHook h t).rings = s.rings := rfl
@[simp] theorem State.enterHook_xcvrs (h : Hook) (t : Task) : (s.enterHook h t).xcvrs = s.xcvrs := rfl
@[simp] theorem State.enterHook_chans (h : Hook) (t : Task) : (s.enterHook h t).chans = s.chans := rfl
@[simp] theorem State.enterHook_mem (h : Hook) (t : Task) : (s.enterHook h t).mem = s.mem := rfl
@[simp] theorem State.enterHook_draws (h : Hook) (t : Task) : (s.enterHook h t).draws = s.draws := rfl
@[simp] theorem State.enterHook_hook (h : Hook) (t : Task) : (s.enterHook h t).hook = some h := rfl
@[simp] theorem State.enterHook_isr (h : Hook) (t : Task) : (s.enterHook h t).isr = { s.isr with task := some t } := rfl

@[simp] theorem State.leaveHook_cfg : s.leaveHook.cfg = s.cfg := rfl
@[simp] theorem State.leaveHook_schedule : s.leaveHook.schedule = s.schedule := rfl
@[simp] theorem State.leaveHook_agent : s.leaveHook.agent = s.agent := rfl
@[simp] theorem State.leaveHook_main : s.leaveHook.main = s.main := rfl
@[simp] theorem State.leaveHook_isr : s.leaveHook.isr = s.isr := rfl
@[simp] theorem State.leaveHook_masked : s.leaveHook.masked = s.masked := rfl
@[simp] theorem State.leaveHook_saved : s.leaveHook.saved = s.saved := rfl
@[simp] theorem State.leaveHook_frames : s.leaveHook.frames = s.frames := rfl
@[simp] theorem State.leaveHook_lvs : s.leaveHook.lvs = s.lvs := rfl
@[simp] theorem State.leaveHook_rings : s.leaveHook.rings = s.rings := rfl
@[simp] theorem State.leaveHook_xcvrs : s.leaveHook.xcvrs = s.xcvrs := rfl
@[simp] theorem State.leaveHook_chans : s.leaveHook.chans = s.chans := rfl
@[simp] theorem State.leaveHook_mem : s.leaveHook.mem = s.mem := rfl
@[simp] theorem State.leaveHook_draws : s.leaveHook.draws = s.draws := rfl
@[simp] theorem State.leaveHook_hook : s.leaveHook.hook = none := rfl

@[simp] theorem State.continueHook_cfg : s.continueHook.cfg = s.cfg := by
  unfold State.continueHook; split <;> (try split) <;> rfl
@[simp] theorem State.continueHook_schedule : s.continueHook.schedule = s.schedule := by
  unfold State.continueHook; split <;> (try split) <;> rfl
@[simp] theorem State.continueHook_agent : s.continueHook.agent = s.agent := by
  unfold State.continueHook; split <;> (try split) <;> rfl
@[simp] theorem State.continueHook_main : s.continueHook.main = s.main := by
  unfold State.continueHook; split <;> (try split) <;> rfl
@[simp] theorem State.continueHook_isr : s.continueHook.isr = s.isr := by
  unfold State.continueHook; split <;> (try split) <;> rfl
@[simp] theorem State.continueHook_masked : s.continueHook.masked = s.masked := by
  unfold State.continueHook; split <;> (try split) <;> rfl
@[simp] theorem State.continueHook_saved : s.continueHook.saved = s.saved := by
  unfold State.continueHook; split <;> (try split) <;> rfl
@[simp] theorem State.continueHook_frames : s.continueHook.frames = s.frames := by
  unfold State.continueHook; split <;> (try split) <;> rfl
@[simp] theorem State.continueHook_lvs : s.continueHook.lvs = s.lvs := by
  unfold State.continueHook; split <;> (try split) <;> rfl
@[simp] theorem State.continueHook_rings : s.continueHook.rings = s.rings := by
  unfold State.continueHook; split <;> (try split) <;> rfl
@[simp] theorem State.continueHook_xcvrs : s.continueHook.xcvrs = s.xcvrs := by
  unfold State.continueHook; split <;> (try split) <;> rfl
@[simp] theorem State.continueHook_chans : s.continueHook.chans = s.chans := by
  unfold State.continueHook; split <;> (try split) <;> rfl
@[simp] theorem State.continueHook_mem : s.continueHook.mem = s.mem := by
  unfold State.continueHook; split <;> (try split) <;> rfl
@[simp] theorem State.continueHook_draws : s.continueHook.draws = s.draws := by
  unfold State.continueHook; split <;> (try split) <;> rfl

/-- What `continueHook` can do to the hook: the RX hook goes on to `app_dispatch`, a finished hook ends, any other
stays (`60_exceptions.md` R311, R312, R314). -/
theorem State.continueHook_hook_cases :
    (∃ c f, s.hook = some (.rx c) ∧ s.isr.result = some (.received .ok (some f)) ∧
      s.continueHook.hook = some (.dispatch c f)) ∨
    s.continueHook.hook = none ∨
    (s.continueHook.hook = s.hook ∧ ∀ h, s.hook = some h → h.calls = false) := by
  unfold State.continueHook
  split
  · exact .inr (.inl rfl)
  · split
    · rename_i c h _ f h'; exact .inl ⟨c, f, h, h', rfl⟩
    · exact .inr (.inl rfl)
  · rename_i h1 h2
    refine .inr (.inr ⟨rfl, fun h hh => ?_⟩)
    cases h with
    | tx c => exact absurd hh (h1 c)
    | rx c => exact absurd hh (h2 c)
    | dispatch c f => rfl

end Sys2Proof.Machine
end

