-- ==== Sys2Proof/Laws/Xcvr.lean ====
section
/-! SUPPORT. The register file: the bits of `XC_TXPEND`, and that every effect on a register file keeps `Xcvr.Ok`
(`10_state.md` R37 to R39). -/

namespace Sys2Proof.Machine

theorem getLsbD_setBit (w : Word) {k : Nat} (hk : k < 32) (i : Nat) :
    (setBit w k).getLsbD i = (i == k || w.getLsbD i) := by
  simp only [setBit, BitVec.getLsbD_or, BitVec.getLsbD_twoPow]
  by_cases h : i = k
  · subst h; simp [hk]
  · simp [h, Ne.symm h]

theorem getLsbD_clearBit (w : Word) (k i : Nat) : (clearBit w k).getLsbD i = (i != k && w.getLsbD i) := by
  simp only [clearBit, BitVec.getLsbD_and, BitVec.getLsbD_not, BitVec.getLsbD_twoPow]
  by_cases h : i = k
  · subst h
    by_cases hi : i < 32
    · simp [hi]
    · simp [BitVec.getLsbD_of_ge _ _ (Nat.le_of_not_lt hi)]
  · by_cases hi : i < 32
    · simp [h, Ne.symm h, hi]
    · simp [BitVec.getLsbD_of_ge _ _ (Nat.le_of_not_lt hi)]

/-- The slot `XCVR.SEND` takes is free and is the least free one (`43_transceiver.md` R210). -/
theorem Xcvr.freeSlot_eq_some {p : FamilyParams} {r : Xcvr} {k : Nat} :
    r.freeSlot p = some k ↔ k < p.txSlots ∧ r.pending k = false ∧ ∀ j < k, r.pending j = true := by
  unfold Xcvr.freeSlot
  rw [List.find?_range_eq_some]
  simp only [Bool.not_eq_eq_eq_not, Bool.not_true, Bool.not_false, List.mem_range]
  tauto

/-- No slot is free: every slot below `TX_SLOTS` is pending. -/
theorem Xcvr.freeSlot_eq_none {p : FamilyParams} {r : Xcvr} :
    r.freeSlot p = none ↔ ∀ k < p.txSlots, r.pending k = true := by
  simp [Xcvr.freeSlot]

/-! ### `Xcvr.Ok` -/

variable {c : Config} {r : Xcvr}

theorem clearBanks_ok (p : FamilyParams) :
    (clearBanks p).length = p.bankCount ∧ ∀ bank ∈ clearBanks p, bank.length = p.slotsPerBank := by
  simp [clearBanks, List.mem_replicate]

theorem partitionBanks_ok (p : FamilyParams) (ext : Bool) (ids : List Word) :
    (partitionBanks p ext ids).length = p.bankCount ∧
      ∀ bank ∈ partitionBanks p ext ids, bank.length = p.slotsPerBank := by
  refine ⟨by simp [partitionBanks], fun bank hb => ?_⟩
  simp only [partitionBanks, List.mem_map] at hb
  obtain ⟨b, _, rfl⟩ := hb
  simp

theorem Xcvr.reset_ok (c : Config) : (Xcvr.reset c.params).Ok c where
  banks := by simp [Xcvr.reset]
  slots := fun bank hb => by simp [Xcvr.reset] at hb; simp [hb.2]
  tx := by simp [Xcvr.reset]
  fifos := by simp [Xcvr.reset]
  depth := fun q hq => by simp [Xcvr.reset] at hq; simp [hq.2]
  pending := fun k _ => by simp [Xcvr.pending, Xcvr.reset]

/-- An update of the control, status, timing and filter control words and of the wire log. -/
theorem Xcvr.Ok.setWords (h : r.Ok c) (ctrl : XcCtrl) (stat : XcStat) (btr : XcBtr) (fctrl : XcFctrl)
    (wireTx : List WireRecord) :
    Xcvr.Ok c { r with ctrl := ctrl, stat := stat, btr := btr, fctrl := fctrl, wireTx := wireTx } :=
  ⟨h.banks, h.slots, h.tx, h.fifos, h.depth, h.pending⟩

theorem Xcvr.Ok.setLifecycle (h : r.Ok c) (l : Lifecycle) : (r.setLifecycle l).Ok c :=
  h.setWords _ r.stat r.btr r.fctrl r.wireTx

theorem Xcvr.Ok.init (h : r.Ok c) (pre baud : Nat) (ext : Bool) : (r.init c.params pre baud ext).Ok c :=
  h.setWords _ r.stat _ _ r.wireTx

theorem Xcvr.Ok.start (h : r.Ok c) : r.start.Ok c := h.setWords _ r.stat r.btr r.fctrl r.wireTx

theorem Xcvr.Ok.stop (h : r.Ok c) : r.stop.Ok c := h.setWords _ r.stat r.btr r.fctrl r.wireTx

theorem Xcvr.Ok.setTxie (h : r.Ok c) (b : Bool) : (r.setTxie b).Ok c := h.setWords _ r.stat r.btr r.fctrl r.wireTx

theorem Xcvr.Ok.filterAll (h : r.Ok c) : (r.filterAll c.params).Ok c :=
  ⟨(clearBanks_ok _).1, (clearBanks_ok _).2, h.tx, h.fifos, h.depth, h.pending⟩

theorem Xcvr.Ok.filterBy (h : r.Ok c) (ext : Bool) (ids : List Word) : (r.filterBy c.params ext ids).Ok c := by
  unfold Xcvr.filterBy
  split
  · exact h.filterAll
  · exact ⟨(partitionBanks_ok _ _ _).1, (partitionBanks_ok _ _ _).2, h.tx, h.fifos, h.depth, h.pending⟩

theorem Xcvr.Ok.fillSlot (h : r.Ok c) (hs : c.params.txSlots ≤ 32) {k : Nat} (hk : k < c.params.txSlots)
    (f : Frame) : (r.fillSlot c k f).Ok c where
  banks := h.banks
  slots := h.slots
  tx := by simpa [Xcvr.fillSlot] using h.tx
  fifos := h.fifos
  depth := h.depth
  pending := fun j hj => by
    have := h.pending j hj
    simp only [Xcvr.pending, Xcvr.fillSlot] at this ⊢
    rw [getLsbD_setBit _ (by omega), this]
    simp; omega

theorem Xcvr.Ok.send (h : r.Ok c) (hs : c.params.txSlots ≤ 32) (f : Frame) : (r.send c f).2.Ok c := by
  unfold Xcvr.send
  split
  · exact h
  · split
    · exact h
    · rename_i k hk; exact h.fillSlot hs (Xcvr.freeSlot_eq_some.1 hk).1 f

/-- The answer of `XCVR.SEND` is `Ok` or `Error` (`60_exceptions.md` R302). -/
theorem Xcvr.send_status (c : Config) (f : Frame) (r : Xcvr) : (r.send c f).1 = .ok ∨ (r.send c f).1 = .error := by
  unfold Xcvr.send
  split
  · exact .inr rfl
  · split
    · exact .inr rfl
    · exact .inl rfl

/-- Replacing one FIFO by one that is not too long. -/
theorem Xcvr.Ok.setFifo (h : r.Ok c) (f : Nat) {q : List Element} (hq : q.length ≤ c.params.rxFifoDepth) :
    Xcvr.Ok c { r with rxfifo := r.rxfifo.set f q } where
  banks := h.banks
  slots := h.slots
  tx := h.tx
  fifos := by simpa using h.fifos
  depth := fun p hp => by
    rcases List.mem_or_eq_of_mem_set hp with hp | rfl
    · exact h.depth p hp
    · exact hq
  pending := h.pending

theorem Xcvr.Ok.receive (h : r.Ok c) {f : Nat} {e : Element} {q : List Element} (hq : r.rxfifo[f]? = some (e :: q)) :
    Xcvr.Ok c { r with rxfifo := r.rxfifo.set f q } :=
  h.setFifo f (by have := h.depth _ (List.mem_of_getElem? hq); simp at this; omega)

theorem Xcvr.Ok.arrive (h : r.Ok c) (w : WireFrame) (j0 j1 : Word) : (r.arrive c w j0 j1).Ok c := by
  unfold Xcvr.arrive
  split
  · split
    · exact h
    · split
      · exact h.setFifo _ (by simp; omega)
      · split; exact h
  · exact h

theorem Xcvr.Ok.complete (h : r.Ok c) (k : Nat) (e : Element) : (r.complete c k e).Ok c where
  banks := h.banks
  slots := h.slots
  tx := h.tx
  fifos := h.fifos
  depth := h.depth
  pending := fun j hj => by
    have := h.pending j hj
    simp only [Xcvr.pending, Xcvr.complete] at this ⊢
    rw [getLsbD_clearBit, this, Bool.and_false]

theorem Xcvr.Ok.busStep (h : r.Ok c) {b : BusStep} {r' : Xcvr} (hb : busStep c b r = some r') : r'.Ok c := by
  cases b <;> simp only [Machine.busStep] at hb
  · split at hb
    · split at hb
      · exact nomatch hb
      · cases hb; exact h.complete _ _
    · exact nomatch hb
  · split at hb
    · cases hb; exact h.arrive _ _ _
    · exact nomatch hb
  · split at hb
    · cases hb; exact h.setWords r.ctrl _ r.btr r.fctrl r.wireTx
    · exact nomatch hb
  · split at hb
    · cases hb; exact h.setWords r.ctrl _ r.btr r.fctrl r.wireTx
    · exact nomatch hb
  · cases hb; exact h.setWords _ r.stat r.btr r.fctrl r.wireTx

theorem Xcvr.Ok.acknowledgeTx (h : r.Ok c) : (r.acknowledgeTx c).Ok c := by
  unfold Xcvr.acknowledgeTx
  split
  · exact h.setWords r.ctrl _ r.btr r.fctrl r.wireTx
  · exact h

end Sys2Proof.Machine
end

