-- ==== Sys2Proof/Laws/Calls.lean ====
section
/-! SUPPORT. What each Transceiver call can answer, said once (`43_transceiver.md` R201 to R213): the callers and the
claims cite these and never unfold the calls. -/

namespace Sys2Proof.Machine

@[simp] theorem Reply.andThen_ok {α β : Type} (a : α) (s : State) (k : α → State → Reply β) :
    Reply.andThen (.ok (a, s)) k = k a s := rfl

@[simp] theorem Reply.andThen_error {α β : Type} (e : Refusal) (k : α → State → Reply β) :
    Reply.andThen (.error e) k = .error e := rfl

theorem Reply.andThen_eq_ok {α β : Type} {r : Reply α} {k : α → State → Reply β} {b : β} {t : State}
    (h : Reply.andThen r k = .ok (b, t)) : ∃ a u, r = .ok (a, u) ∧ k a u = .ok (b, t) := by
  match r, h with
  | .ok p, h => exact ⟨p.1, p.2, rfl, h⟩
  | .error e, h => exact nomatch h

@[simp] theorem answer_ok {α : Type} (a : α) (s : State) (f : α → OpResult) :
    answer (.ok (a, s)) f = .next (s.returns (f a)) := rfl

@[simp] theorem answer_error {α : Type} (e : Refusal) (f : α → OpResult) : answer (.error e) f = .refused e := rfl

theorem answer_eq_next {α : Type} {r : Reply α} {f : α → OpResult} {t : State} (h : answer r f = .next t) :
    ∃ a u, r = .ok (a, u) ∧ t = u.returns (f a) := by
  match r, h with
  | .ok p, h => cases h; exact ⟨p.1, p.2, rfl, rfl⟩

variable {s t : State} {x : Nat}

/-- A configuration operation, by the gate and the draw (`43_transceiver.md` R201, R202). -/
theorem configure_run {op : XcvrOp} {effect : Xcvr → Xcvr} {r : Xcvr} (hr : s.xcvrs[x]? = some r)
    (hg : xcvrGate op r.ctrl.lifecycle = .run) :
    configure op x effect s =
      .ok (if s.draws.nextHwOk then (.ok, (s.setDraws s.draws.dropHwOk).setXcvr x (effect r))
           else (.error, (s.setDraws s.draws.dropHwOk).setXcvr x (r.setLifecycle .failed))) := by
  simp [configure, hr, hg]

theorem configure_failed {op : XcvrOp} {effect : Xcvr → Xcvr} {r : Xcvr} (hr : s.xcvrs[x]? = some r)
    (hg : xcvrGate op r.ctrl.lifecycle = .failed) : configure op x effect s = .ok (.error, s) := by
  simp [configure, hr, hg]

theorem configure_refuse {op : XcvrOp} {effect : Xcvr → Xcvr} {r : Xcvr} {e : Refusal} (hr : s.xcvrs[x]? = some r)
    (hg : xcvrGate op r.ctrl.lifecycle = .refuse e) : configure op x effect s = .error e := by
  simp [configure, hr, hg]

/-- Everything a configuration operation can answer. -/
theorem configure_cases {op : XcvrOp} {effect : Xcvr → Xcvr} {st : Status}
    (h : configure op x effect s = .ok (st, t)) : ∃ r, s.xcvrs[x]? = some r ∧
      ((xcvrGate op r.ctrl.lifecycle = .failed ∧ st = .error ∧ t = s) ∨
       (xcvrGate op r.ctrl.lifecycle = .run ∧ s.draws.nextHwOk = true ∧ st = .ok ∧
          t = (s.setDraws s.draws.dropHwOk).setXcvr x (effect r)) ∨
       (xcvrGate op r.ctrl.lifecycle = .run ∧ s.draws.nextHwOk = false ∧ st = .error ∧
          t = (s.setDraws s.draws.dropHwOk).setXcvr x (r.setLifecycle .failed))) := by
  cases hr : s.xcvrs[x]? with
  | none => simp [configure, hr] at h
  | some r =>
    refine ⟨r, rfl, ?_⟩
    cases hg : xcvrGate op r.ctrl.lifecycle with
    | refuse e => rw [configure_refuse hr hg] at h; exact nomatch h
    | failed => rw [configure_failed hr hg] at h; cases h; exact .inl ⟨rfl, rfl, rfl⟩
    | run =>
      rw [configure_run hr hg] at h
      cases hd : s.draws.nextHwOk
      · rw [hd] at h; cases h; exact .inr (.inr ⟨rfl, rfl, rfl, rfl⟩)
      · rw [hd] at h; cases h; exact .inr (.inl ⟨rfl, rfl, rfl, rfl⟩)

/-- Everything `XCVR.SEND` can answer (`43_transceiver.md` R210). -/
theorem callXcvrSend_cases {f : Frame} {st : Status} (h : callXcvrSend x f s = .ok (st, t)) :
    ∃ r, s.xcvrs[x]? = some r ∧
      ((r.ctrl.lifecycle = .failed ∧ st = .error ∧ t = s) ∨
       (r.ctrl.lifecycle = .running ∧ st = (r.send s.cfg f).1 ∧ t = s.setXcvr x (r.send s.cfg f).2)) := by
  cases hr : s.xcvrs[x]? with
  | none => simp [callXcvrSend, hr] at h
  | some r =>
    refine ⟨r, rfl, ?_⟩
    cases hl : r.ctrl.lifecycle <;> simp [callXcvrSend, hr, hl, xcvrGate] at h
    · exact .inr ⟨rfl, h.1.symm, h.2.symm⟩
    · exact .inl ⟨rfl, h.1.symm, h.2.symm⟩

/-- Everything `XCVR.RECEIVE` can answer (`43_transceiver.md` R211). -/
theorem callXcvrReceive_cases {n : Nat} {p : Status × Option Frame} (h : callXcvrReceive x n s = .ok (p, t)) :
    ∃ r, s.xcvrs[x]? = some r ∧
      ((r.ctrl.lifecycle = .failed ∧ p = (.error, none) ∧ t = s) ∨
       (r.ctrl.lifecycle = .running ∧ ∃ q, r.rxfifo[n]? = some q ∧
         ((r.stat.fault = true ∧ p = (.error, none) ∧ t = s) ∨
          (r.stat.fault = false ∧ q = [] ∧ p = (.empty, none) ∧ t = s) ∨
          (r.stat.fault = false ∧ ∃ e l, q = e :: l ∧
            p = (.ok, some { fromRx s.cfg.family e with timestamp := some (s.draws.nextNow s.cfg.tsWidth) }) ∧
            t = (s.setDraws s.draws.dropNow).setXcvr x { r with rxfifo := r.rxfifo.set n l })))) := by
  cases hr : s.xcvrs[x]? with
  | none => simp [callXcvrReceive, hr] at h
  | some r =>
    refine ⟨r, rfl, ?_⟩
    simp only [callXcvrReceive, hr] at h
    cases hl : r.ctrl.lifecycle with
    | uninit => rw [hl] at h; exact nomatch h
    | initialized => rw [hl] at h; exact nomatch h
    | filterConfigured => rw [hl] at h; exact nomatch h
    | failed => rw [hl] at h; cases h; exact .inl ⟨rfl, rfl, rfl⟩
    | running =>
      refine .inr ⟨rfl, ?_⟩
      rw [hl] at h
      cases hq : r.rxfifo[n]? with
      | none => simp [hq, xcvrGate] at h
      | some q =>
        refine ⟨q, rfl, ?_⟩
        cases hf : r.stat.fault
        · cases q with
          | nil => simp [hq, hf, xcvrGate] at h; exact .inr (.inl ⟨rfl, rfl, h.1.symm, h.2.symm⟩)
          | cons e l => simp [hq, hf, xcvrGate] at h; exact .inr (.inr ⟨rfl, e, l, rfl, h.1.symm, h.2.symm⟩)
        · simp [hq, hf, xcvrGate] at h; exact .inl ⟨rfl, h.1.symm, h.2.symm⟩

/-- Everything `XCVR.TXIE_ON` and `XCVR.TXIE_OFF` can answer (`43_transceiver.md` R212, R213). -/
theorem callXcvrTxie_cases {b : Bool} {u : Unit} (h : callXcvrTxie b x s = .ok (u, t)) :
    ∃ r, s.xcvrs[x]? = some r ∧
      ((r.ctrl.lifecycle = .failed ∧ t = s) ∨
       (r.ctrl.lifecycle ≠ .failed ∧ r.ctrl.lifecycle ≠ .uninit ∧ t = s.setXcvr x (r.setTxie b))) := by
  cases hr : s.xcvrs[x]? with
  | none => simp [callXcvrTxie, hr] at h
  | some r =>
    refine ⟨r, rfl, ?_⟩
    cases hl : r.ctrl.lifecycle <;> simp [callXcvrTxie, hr, hl, xcvrGate] at h <;> simp [h]

/-- What a Transceiver call leaves alone: everything but one register file and the draws. -/
structure OnlyXcvr (c : Config) (s t : State) : Prop where
  rest : t = { s with xcvrs := t.xcvrs, draws := t.draws }
  count : t.xcvrs.length = s.xcvrs.length
  ok : (∀ r ∈ s.xcvrs, r.Ok c) → ∀ r ∈ t.xcvrs, r.Ok c

theorem OnlyXcvr.refl (c : Config) (s : State) : OnlyXcvr c s s := ⟨rfl, rfl, fun h => h⟩

theorem OnlyXcvr.set {c : Config} {r : Xcvr} (d : Draws) (v : Xcvr) (hr : s.xcvrs[x]? = some r)
    (hv : r.Ok c → v.Ok c) : OnlyXcvr c s ((s.setDraws d).setXcvr x v) where
  rest := rfl
  count := by simp
  ok := fun h r' hr' => by
    rcases List.mem_or_eq_of_mem_set hr' with h' | rfl
    · exact h r' h'
    · exact hv (h r (List.mem_of_getElem? hr))

theorem OnlyXcvr.setXcvr {c : Config} {r v : Xcvr} (hr : s.xcvrs[x]? = some r) (hv : r.Ok c → v.Ok c) :
    OnlyXcvr c s (s.setXcvr x v) := OnlyXcvr.set s.draws v hr hv

theorem OnlyXcvr.configure {op : XcvrOp} {effect : Xcvr → Xcvr} {st : Status}
    (he : ∀ r : Xcvr, r.Ok s.cfg → (effect r).Ok s.cfg) (h : configure op x effect s = .ok (st, t)) :
    OnlyXcvr s.cfg s t := by
  obtain ⟨r, hr, ⟨-, -, rfl⟩ | ⟨-, -, -, rfl⟩ | ⟨-, -, -, rfl⟩⟩ := configure_cases h
  · exact .refl _ _
  · exact .set _ _ hr (he r)
  · exact .set _ _ hr fun h => h.setLifecycle _

/-- `XCVR.INIT` at a supported rate is the configuration with its table entry (`43_transceiver.md` R203). -/
theorem callXcvrInit_of_entry {baud pre : Nat} {ext : Bool} (h : s.cfg.params.prescalerOf baud = some pre) :
    callXcvrInit x baud ext s = configure .init x (Xcvr.init s.cfg.params pre baud ext) s := by
  simp only [callXcvrInit, h]

theorem OnlyXcvr.callXcvrInit {baud : Nat} {ext : Bool} {st : Status} (h : callXcvrInit x baud ext s = .ok (st, t)) :
    OnlyXcvr s.cfg s t := by
  unfold Machine.callXcvrInit at h
  split at h
  · exact nomatch h
  · exact .configure (fun r hr => hr.init _ _ _) h

theorem OnlyXcvr.callXcvrStart {st : Status} (h : callXcvrStart x s = .ok (st, t)) : OnlyXcvr s.cfg s t :=
  .configure (fun _ hr => hr.start) h

theorem OnlyXcvr.callXcvrStop {st : Status} (h : callXcvrStop x s = .ok (st, t)) : OnlyXcvr s.cfg s t :=
  .configure (fun _ hr => hr.stop) h

theorem OnlyXcvr.callXcvrFilterAll {st : Status} (h : callXcvrFilterAll x s = .ok (st, t)) : OnlyXcvr s.cfg s t :=
  .configure (fun _ hr => hr.filterAll) h

theorem OnlyXcvr.callXcvrFilterList {ids : List Word} {ext : Bool} {st : Status}
    (h : callXcvrFilterList x ids ext s = .ok (st, t)) : OnlyXcvr s.cfg s t :=
  .configure (fun _ hr => hr.filterBy _ _) h

theorem OnlyXcvr.callFilter {f : Filter} {st : Status} (h : callFilter x f s = .ok (st, t)) : OnlyXcvr s.cfg s t := by
  cases f with
  | all => exact .callXcvrFilterAll h
  | list ids ext => exact .callXcvrFilterList h

/-- The bound `TX_SLOTS <= 32` of a well-formed configuration (`10_state.md` R38). -/
theorem Config.txSlots_le {c : Config} (h : c.wf = true) : c.params.txSlots ≤ 32 := by
  simp only [Config.wf, FamilyParams.wf, Bool.and_eq_true, decide_eq_true_eq] at h
  omega

theorem OnlyXcvr.callXcvrSend {f : Frame} {st : Status} (hc : s.cfg.wf = true)
    (h : callXcvrSend x f s = .ok (st, t)) : OnlyXcvr s.cfg s t := by
  obtain ⟨r, hr, ⟨-, -, rfl⟩ | ⟨-, -, rfl⟩⟩ := callXcvrSend_cases h
  · exact .refl _ _
  · exact .setXcvr hr fun h => h.send (Config.txSlots_le hc) f

theorem OnlyXcvr.callXcvrReceive {n : Nat} {p : Status × Option Frame} (h : callXcvrReceive x n s = .ok (p, t)) :
    OnlyXcvr s.cfg s t := by
  obtain ⟨r, hr, ⟨-, -, rfl⟩ | ⟨-, q, hq, ⟨-, -, rfl⟩ | ⟨-, -, -, rfl⟩ | ⟨-, e, l, rfl, -, rfl⟩⟩⟩ :=
    callXcvrReceive_cases h
  · exact .refl _ _
  · exact .refl _ _
  · exact .refl _ _
  · exact .set _ _ hr fun h => h.receive hq

theorem OnlyXcvr.callXcvrTxie {b : Bool} {u : Unit} (h : callXcvrTxie b x s = .ok (u, t)) : OnlyXcvr s.cfg s t := by
  obtain ⟨r, hr, ⟨-, rfl⟩ | ⟨-, -, rfl⟩⟩ := callXcvrTxie_cases h
  · exact .refl _ _
  · exact .setXcvr hr fun h => h.setTxie b

/-- A received Frame is one that can exist (`10_state.md` R23): its timestamp is a draw of `TS_WIDTH` bits. -/
theorem callXcvrReceive_frame_wf {n : Nat} {p : Status × Option Frame} {f : Frame}
    (h : callXcvrReceive x n s = .ok (p, t)) (hf : p.2 = some f) : f.wf s.cfg = true := by
  obtain ⟨r, hr, ⟨-, rfl, -⟩ | ⟨-, q, hq, ⟨-, rfl, -⟩ | ⟨-, -, rfl, -⟩ | ⟨-, e, l, -, rfl, -⟩⟩⟩ :=
    callXcvrReceive_cases h
  · exact nomatch hf
  · exact nomatch hf
  · exact nomatch hf
  · cases hf
    exact Frame.wf_stamp (fromRx_wf _ _ _) (Nat.mod_lt _ (Nat.two_pow_pos _))

end Sys2Proof.Machine
end

