-- ==== Sys2Proof/Laws/Instances.lean ====
section
/-! SUPPORT. Reading an instance after one was replaced, replacing twice, replacing an instance by itself; and what
delivering a result leaves alone. -/

namespace Sys2Proof.Machine

theorem getElem?_set_of_some {α : Type} {l : List α} {i : Nat} {a : α} (h : l[i]? = some a) (b : α) :
    (l.set i b)[i]? = some b := by
  have := (List.getElem?_eq_some_iff.1 h).1
  simp [this]

theorem getElem?_set_other {α : Type} {l : List α} {i j : Nat} {b : α} (h : j ≠ i) : (l.set i b)[j]? = l[j]? := by
  rw [List.getElem?_set, if_neg fun e => h e.symm]

theorem set_of_getElem? {α : Type} {l : List α} {i : Nat} {a : α} (h : l[i]? = some a) : l.set i a = l := by
  apply List.ext_getElem?
  intro j
  by_cases hj : j = i
  · rw [hj, getElem?_set_of_some h, h]
  · rw [getElem?_set_other hj]

variable {s t : State}

/-! ### `State.setLvs` -/

theorem State.setLvs_get {i : Nat} {a b : Lvs Value} (h : s.lvs[i]? = some a) : (s.setLvs i b).lvs[i]? = some b :=
  getElem?_set_of_some h b

theorem State.setLvs_get_other {i j : Nat} (b : Lvs Value) (h : j ≠ i) : (s.setLvs i b).lvs[j]? = s.lvs[j]? :=
  getElem?_set_other h

@[simp] theorem State.setLvs_setLvs (i : Nat) (a b : Lvs Value) : (s.setLvs i a).setLvs i b = s.setLvs i b := by
  simp [State.setLvs]

theorem State.setLvs_self {i : Nat} {a : Lvs Value} (h : s.lvs[i]? = some a) : s.setLvs i a = s := by
  simp [State.setLvs, set_of_getElem? h]

/-! ### `State.setRing` -/

theorem State.setRing_get {i : Nat} {a b : Ring Value} (h : s.rings[i]? = some a) : (s.setRing i b).rings[i]? = some b :=
  getElem?_set_of_some h b

theorem State.setRing_get_other {i j : Nat} (b : Ring Value) (h : j ≠ i) : (s.setRing i b).rings[j]? = s.rings[j]? :=
  getElem?_set_other h

@[simp] theorem State.setRing_setRing (i : Nat) (a b : Ring Value) : (s.setRing i a).setRing i b = s.setRing i b := by
  simp [State.setRing]

theorem State.setRing_self {i : Nat} {a : Ring Value} (h : s.rings[i]? = some a) : s.setRing i a = s := by
  simp [State.setRing, set_of_getElem? h]

/-! ### `State.setXcvr` -/

theorem State.setXcvr_get {i : Nat} {a b : Xcvr} (h : s.xcvrs[i]? = some a) : (s.setXcvr i b).xcvrs[i]? = some b :=
  getElem?_set_of_some h b

theorem State.setXcvr_get_other {i j : Nat} (b : Xcvr) (h : j ≠ i) : (s.setXcvr i b).xcvrs[j]? = s.xcvrs[j]? :=
  getElem?_set_other h

@[simp] theorem State.setXcvr_setXcvr (i : Nat) (a b : Xcvr) : (s.setXcvr i a).setXcvr i b = s.setXcvr i b := by
  simp [State.setXcvr]

theorem State.setXcvr_self {i : Nat} {a : Xcvr} (h : s.xcvrs[i]? = some a) : s.setXcvr i a = s := by
  simp [State.setXcvr, set_of_getElem? h]

/-! ### `State.setChan` -/

theorem State.setChan_get {i : Nat} {a b : Chan} (h : s.chans[i]? = some a) : (s.setChan i b).chans[i]? = some b :=
  getElem?_set_of_some h b

theorem State.setChan_get_other {i j : Nat} (b : Chan) (h : j ≠ i) : (s.setChan i b).chans[j]? = s.chans[j]? :=
  getElem?_set_other h

@[simp] theorem State.setChan_setChan (i : Nat) (a b : Chan) : (s.setChan i a).setChan i b = s.setChan i b := by
  simp [State.setChan]

theorem State.setChan_self {i : Nat} {a : Chan} (h : s.chans[i]? = some a) : s.setChan i a = s := by
  simp [State.setChan, set_of_getElem? h]

@[simp] theorem State.setDraws_setDraws (d e : Draws) : (s.setDraws d).setDraws e = s.setDraws e := rfl

theorem State.setXcvr_setDraws (x : Nat) (v : Xcvr) (d : Draws) :
    (s.setXcvr x v).setDraws d = (s.setDraws d).setXcvr x v := rfl

theorem State.setXcvr_setChan (x c : Nat) (v : Xcvr) (k : Chan) :
    (s.setXcvr x v).setChan c k = (s.setChan c k).setXcvr x v := rfl

/-! ### What an operation leaves alone -/

theorem State.returns_result (r : OpResult) (h : t.agent = s.agent) : ((t.returns r).ctx s.agent).result = some r := by
  rw [State.returns_ctx, if_pos h.symm]

/-- Delivering a result changes nothing of the setting. -/
theorem State.SameSetting.returns (h : s.SameSetting t) (r : OpResult) : s.SameSetting (t.returns r) where
  cfg := by simp [h.cfg]
  schedule := by simp [h.schedule]
  agent := by simp [h.agent]
  hook := by simp [h.hook]
  masked := by simp [h.masked]
  saved := by simp [h.saved]
  task := by rw [State.returns_task, h.task]
  other := fun c hc => by rw [State.returns_ctx, h.agent, if_neg hc, h.other c hc]

/-- A change of the block, of caller memory or of the draws changes nothing of the setting. -/
theorem State.SameSetting.of_block
    (h : t = { s with lvs := t.lvs, rings := t.rings, xcvrs := t.xcvrs, chans := t.chans, mem := t.mem,
                      draws := t.draws, frames := t.frames }) : s.SameSetting t := by
  rw [h]
  exact ⟨rfl, rfl, rfl, rfl, rfl, rfl, by cases s.agent <;> rfl, fun c _ => by cases c <;> rfl⟩

theorem State.KeepsFrames.returns (h : t.frames = s.frames) (r : OpResult) : s.KeepsFrames (t.returns r) :=
  ⟨r.heldFrames, by rw [State.returns_frames, h]⟩

theorem State.SameMemory.returns (h : t.mem = s.mem) (r : OpResult) : s.SameMemory (t.returns r) :=
  fun a => by rw [State.returns_mem, h]

end Sys2Proof.Machine
end

