-- ==== Sys2Proof/Laws/Chan.lean ====
section
/-! SUPPORT. What a Channel operation leaves alone, said once for each (`45_channel.md` R272 to R276). -/

namespace Sys2Proof.Machine

/-- Which parts an operation of Channel `c` may write besides its Transceiver's register file. -/
structure ChanWrites where
  draws : Bool
  drop  : Bool
  retry : Bool
  state : Bool
deriving DecidableEq, Repr

/-- From `s` to `t` only Channel `c`, its Transceiver's register file (but for the status word and the wire log) and
the draws change, and of Channel `c` and the draws only what `w` allows. -/
structure OnlyChan (w : ChanWrites) (c : Nat) (s t : State) : Prop where
  rest : t = { s with xcvrs := t.xcvrs, chans := t.chans, draws := t.draws }
  other : ∀ j, j ≠ c → t.chans[j]? = s.chans[j]?
  draws : w.draws = false → t.draws = s.draws
  self : ∀ k, s.chans[c]? = some k → ∃ k', t.chans[c]? = some k' ∧ k'.xcvr = k.xcvr ∧ k'.fifo = k.fifo ∧
    (w.drop = false → k'.dropCount = k.dropCount) ∧ (w.retry = false → k'.retry = k.retry) ∧
    (w.state = false → k'.state = k.state) ∧ (∀ y, y ≠ k.xcvr → t.xcvrs[y]? = s.xcvrs[y]?) ∧
    ∀ r, s.xcvrs[k.xcvr]? = some r → ∃ r', t.xcvrs[k.xcvr]? = some r' ∧ r'.stat = r.stat ∧ r'.wireTx = r.wireTx

namespace OnlyChan

variable {w : ChanWrites} {c : Nat} {s t u : State} {k : Chan}

theorem refl : OnlyChan w c s s :=
  ⟨rfl, fun _ _ => rfl, fun _ => rfl, fun k hk => ⟨k, hk, rfl, rfl, fun _ => rfl, fun _ => rfl, fun _ => rfl,
    fun _ _ => rfl, fun r hr => ⟨r, hr, rfl, rfl⟩⟩⟩

theorem trans (h : OnlyChan w c s t) (g : OnlyChan w c t u) : OnlyChan w c s u where
  rest := by rw [g.rest, h.rest]
  other := fun j hj => by rw [g.other j hj, h.other j hj]
  draws := fun hw => by rw [g.draws hw, h.draws hw]
  self := fun k hk => by
    obtain ⟨k', h1, h2, h3, h4, h5, h6, h7, h8⟩ := h.self k hk
    obtain ⟨k'', g1, g2, g3, g4, g5, g6, g7, g8⟩ := g.self k' h1
    refine ⟨k'', g1, g2.trans h2, g3.trans h3, fun x => (g4 x).trans (h4 x), fun x => (g5 x).trans (h5 x),
      fun x => (g6 x).trans (h6 x), fun y hy => ?_, fun r hr => ?_⟩
    · rw [g7 y (by rw [h2]; exact hy), h7 y hy]
    · obtain ⟨r', i1, i2, i3⟩ := h8 r hr
      obtain ⟨r'', j1, j2, j3⟩ := g8 r' (by rw [h2]; exact i1)
      rw [h2] at j1
      exact ⟨r'', j1, j2.trans i2, j3.trans i3⟩

/-- Replacing the Channel. -/
theorem setChan {v : Chan} (hk : s.chans[c]? = some k) (h2 : v.xcvr = k.xcvr) (h3 : v.fifo = k.fifo)
    (h4 : w.drop = false → v.dropCount = k.dropCount) (h5 : w.retry = false → v.retry = k.retry)
    (h6 : w.state = false → v.state = k.state) : OnlyChan w c s (s.setChan c v) where
  rest := rfl
  other := fun j hj => State.setChan_get_other v hj
  draws := fun _ => rfl
  self := fun k0 hk0 => by
    rw [hk] at hk0; cases hk0
    exact ⟨v, State.setChan_get hk, h2, h3, h4, h5, h6, fun _ _ => rfl, fun r hr => ⟨r, hr, rfl, rfl⟩⟩

/-- Replacing the register file of the Channel's Transceiver. -/
theorem setXcvr {r v : Xcvr} {d : Draws} (hk : s.chans[c]? = some k) (hr : s.xcvrs[k.xcvr]? = some r)
    (hd : w.draws = false → d = s.draws) (h1 : v.stat = r.stat) (h2 : v.wireTx = r.wireTx) :
    OnlyChan w c s ((s.setDraws d).setXcvr k.xcvr v) where
  rest := rfl
  other := fun _ _ => rfl
  draws := hd
  self := fun k0 hk0 => by
    rw [hk] at hk0; cases hk0
    refine ⟨k, hk, rfl, rfl, fun _ => rfl, fun _ => rfl, fun _ => rfl,
      fun y hy => State.setXcvr_get_other (s := s.setDraws d) v hy, fun r0 hr0 => ?_⟩
    rw [hr] at hr0; cases hr0
    exact ⟨v, State.setXcvr_get (s := s.setDraws d) hr, h1, h2⟩

theorem configure {op : XcvrOp} {effect : Xcvr → Xcvr} {st : Status} (hw : w.draws = true)
    (hk : s.chans[c]? = some k) (h : configure op k.xcvr effect s = .ok (st, t))
    (he : ∀ r : Xcvr, (effect r).stat = r.stat ∧ (effect r).wireTx = r.wireTx) : OnlyChan w c s t := by
  have hd : w.draws = false → s.draws.dropHwOk = s.draws := by simp [hw]
  obtain ⟨r, hr, ⟨-, -, rfl⟩ | ⟨-, -, -, rfl⟩ | ⟨-, -, -, rfl⟩⟩ := configure_cases h
  · exact refl
  · exact setXcvr hk hr hd (he r).1 (he r).2
  · exact setXcvr hk hr hd rfl rfl

theorem callXcvrInit {baud : Nat} {ext : Bool} {st : Status} (hw : w.draws = true) (hk : s.chans[c]? = some k)
    (h : callXcvrInit k.xcvr baud ext s = .ok (st, t)) : OnlyChan w c s t := by
  unfold Machine.callXcvrInit at h
  split at h
  · exact nomatch h
  · exact configure hw hk h fun _ => ⟨rfl, rfl⟩

theorem callXcvrStart {st : Status} (hw : w.draws = true) (hk : s.chans[c]? = some k)
    (h : callXcvrStart k.xcvr s = .ok (st, t)) : OnlyChan w c s t := configure hw hk h fun _ => ⟨rfl, rfl⟩

theorem callFilter {f : Filter} {st : Status} (hw : w.draws = true) (hk : s.chans[c]? = some k)
    (h : callFilter k.xcvr f s = .ok (st, t)) : OnlyChan w c s t := by
  cases f with
  | all => exact configure hw hk h fun _ => ⟨rfl, rfl⟩
  | list ids ext =>
    exact configure hw hk h fun r => by unfold Xcvr.filterBy; split <;> exact ⟨rfl, rfl⟩

theorem callXcvrSend {f : Frame} {st : Status} (hk : s.chans[c]? = some k)
    (h : callXcvrSend k.xcvr f s = .ok (st, t)) : OnlyChan w c s t := by
  obtain ⟨r, hr, ⟨-, -, rfl⟩ | ⟨-, -, rfl⟩⟩ := callXcvrSend_cases h
  · exact refl
  · have hs : (r.send s.cfg f).2.stat = r.stat ∧ (r.send s.cfg f).2.wireTx = r.wireTx := by
      unfold Xcvr.send
      split
      · exact ⟨rfl, rfl⟩
      · split <;> exact ⟨rfl, rfl⟩
    exact setXcvr (d := s.draws) hk hr (fun _ => rfl) hs.1 hs.2

theorem callXcvrTxie {b : Bool} {x : Unit} (hk : s.chans[c]? = some k)
    (h : callXcvrTxie b k.xcvr s = .ok (x, t)) : OnlyChan w c s t := by
  obtain ⟨r, hr, ⟨-, rfl⟩ | ⟨-, -, rfl⟩⟩ := callXcvrTxie_cases h
  · exact refl
  · exact setXcvr (d := s.draws) hk hr (fun _ => rfl) rfl rfl

theorem callXcvrReceive {n : Nat} {p : Status × Option Frame} (hw : w.draws = true) (hk : s.chans[c]? = some k)
    (h : callXcvrReceive k.xcvr n s = .ok (p, t)) : OnlyChan w c s t := by
  obtain ⟨r, hr, ⟨-, -, rfl⟩ | ⟨-, q, hq, ⟨-, -, rfl⟩ | ⟨-, -, -, rfl⟩ | ⟨-, x, l, -, -, rfl⟩⟩⟩ :=
    callXcvrReceive_cases h
  · exact refl
  · exact refl
  · exact refl
  · exact setXcvr hk hr (by simp [hw]) rfl rfl

end OnlyChan

variable {c : Nat} {s t : State}

/-- `CHAN.INIT` (`45_channel.md` R272) changes a Channel only from `Uninitialized`. -/
theorem callChanInit_only {baud : Nat} {ext : Bool} {fl : Filter} {st : Status}
    (h : callChanInit c baud ext fl s = .ok (st, t)) :
    OnlyChan { draws := true, drop := false, retry := false, state := true } c s t ∧
    (st = .ok ∨ st = .error) ∧
    ∀ k k', s.chans[c]? = some k → t.chans[c]? = some k' → k' = k ∨ k.state = .uninitialized := by
  unfold callChanInit at h
  split at h
  · exact nomatch h
  rename_i k hk
  split at h
  · exact nomatch h
  · cases h
    exact ⟨.refl, .inr rfl, fun a b h1 h2 => by rw [h1] at h2; cases h2; exact .inl rfl⟩
  · rename_i hg
    have hst : k.state = .uninitialized := by cases hx : k.state <;> simp [hx, chanGate] at hg ⊢
    obtain ⟨st1, u, hu, h⟩ := Reply.andThen_eq_ok h
    have r1 := OnlyChan.callXcvrInit (w := { draws := true, drop := false, retry := false, state := true }) rfl hk hu
    have k1 : u.chans[c]? = some k := by rw [(OnlyXcvr.callXcvrInit hu).rest]; exact hk
    refine (fun hh => ⟨hh.1, hh.2, fun a b h1 h2 => by rw [hk] at h1; cases h1; exact .inr hst⟩ :
      (OnlyChan _ c s t ∧ (st = .ok ∨ st = .error)) → _) ?_
    split at h
    · obtain ⟨st2, v, hv, h⟩ := Reply.andThen_eq_ok h
      have r2 := r1.trans (OnlyChan.callFilter rfl k1 hv)
      have k2 : v.chans[c]? = some k := by rw [(OnlyXcvr.callFilter hv).rest]; exact k1
      split at h <;> cases h
      · exact ⟨r2.trans (.setChan k2 rfl rfl (fun _ => rfl) (fun _ => rfl) (by simp)), .inl rfl⟩
      · exact ⟨r2.trans (.setChan k2 rfl rfl (fun _ => rfl) (fun _ => rfl) (by simp)), .inr rfl⟩
    · cases h
      exact ⟨r1.trans (.setChan k1 rfl rfl (fun _ => rfl) (fun _ => rfl) (by simp)), .inr rfl⟩

/-- `CHAN.START` (`45_channel.md` R273) takes a Channel from `FilterConfigured` to `Running` or `Failed`. -/
theorem callChanStart_only {st : Status} (h : callChanStart c s = .ok (st, t)) :
    OnlyChan { draws := true, drop := false, retry := false, state := true } c s t ∧
    (st = .ok ∨ st = .error) ∧
    ∀ k k', s.chans[c]? = some k → t.chans[c]? = some k' →
      k' = k ∨ (k.state = .filterConfigured ∧ (k'.state = .running ∨ k'.state = .failed)) := by
  unfold callChanStart at h
  split at h
  · exact nomatch h
  rename_i k hk
  split at h
  · exact nomatch h
  · cases h
    exact ⟨.refl, .inr rfl, fun a b h1 h2 => by rw [h1] at h2; cases h2; exact .inl rfl⟩
  · rename_i hg
    have hst : k.state = .filterConfigured := by cases hx : k.state <;> simp [hx, chanGate] at hg ⊢
    obtain ⟨st1, u, hu, h⟩ := Reply.andThen_eq_ok h
    have r1 := OnlyChan.callXcvrStart (w := { draws := true, drop := false, retry := false, state := true }) rfl hk hu
    have k1 : u.chans[c]? = some k := by rw [(OnlyXcvr.callXcvrStart hu).rest]; exact hk
    split at h <;> cases h
    · refine ⟨r1.trans (.setChan k1 rfl rfl (fun _ => rfl) (fun _ => rfl) (by simp)), .inl rfl, fun a b h1 h2 => ?_⟩
      rw [State.setChan_get k1] at h2; rw [hk] at h1; cases h1; cases h2
      exact .inr ⟨hst, .inl rfl⟩
    · refine ⟨r1.trans (.setChan k1 rfl rfl (fun _ => rfl) (fun _ => rfl) (by simp)), .inr rfl, fun a b h1 h2 => ?_⟩
      rw [State.setChan_get k1] at h2; rw [hk] at h1; cases h1; cases h2
      exact .inr ⟨hst, .inr rfl⟩

/-- `CHAN.SEND` (`45_channel.md` R274): `DROP_COUNT` never falls, `Error` only in `Failed`. -/
theorem callChanSend_only {f : Frame} {st : Status} (h : callChanSend c f s = .ok (st, t)) :
    OnlyChan { draws := false, drop := true, retry := true, state := false } c s t ∧
    (∀ k k', s.chans[c]? = some k → t.chans[c]? = some k' → k.dropCount ≤ k'.dropCount) ∧
    (st = .ok ∨ st = .full ∨ (st = .error ∧ ∃ k, s.chans[c]? = some k ∧ k.state = .failed)) := by
  unfold callChanSend at h
  split at h
  · exact nomatch h
  rename_i k hk
  split at h
  · exact nomatch h
  · rename_i hg
    cases h
    refine ⟨.refl, fun a b h1 h2 => by rw [h1] at h2; cases h2; exact Nat.le_refl _, .inr (.inr ⟨rfl, k, hk, ?_⟩)⟩
    cases hx : k.state <;> simp [hx, chanGate] at hg ⊢
  · split at h
    · obtain ⟨st1, u, hu, h⟩ := Reply.andThen_eq_ok h
      have r1 := OnlyChan.callXcvrSend (w := { draws := false, drop := true, retry := true, state := false }) hk hu
      have k1 : u.chans[c]? = some k := by
        obtain ⟨r, hr, ⟨-, -, rfl⟩ | ⟨-, -, rfl⟩⟩ := callXcvrSend_cases hu <;> exact hk
      split at h
      · cases h
        exact ⟨r1, fun a b h1 h2 => by rw [hk] at h1; rw [k1] at h2; cases h1; cases h2; exact Nat.le_refl _, .inl rfl⟩
      · unfold queueForRetry at h
        obtain ⟨x, v, hv, h⟩ := Reply.andThen_eq_ok h
        have k2 := State.setChan_get (b := { k with retry := (k.retry.push f).2 }) k1
        have r2 := r1.trans (.setChan (v := { k with retry := (k.retry.push f).2 }) k1 rfl rfl (by simp) (by simp)
          (fun _ => rfl))
        have r3 := r2.trans (.callXcvrTxie k2 hv)
        have k3 : v.chans[c]? = some { k with retry := (k.retry.push f).2 } := by
          obtain ⟨r, hr, ⟨-, rfl⟩ | ⟨-, -, rfl⟩⟩ := callXcvrTxie_cases hv <;> exact k2
        split at h <;> cases h
        · refine ⟨r3.trans (.setChan k3 rfl rfl (by simp) (by simp) (fun _ => rfl)), fun a b h1 h2 => ?_, .inr (.inl rfl)⟩
          rw [State.setChan_get k3] at h2; rw [hk] at h1; cases h1; cases h2
          exact Nat.le_succ _
        · refine ⟨r3, fun a b h1 h2 => ?_, .inl rfl⟩
          rw [k3] at h2; rw [hk] at h1; cases h1; cases h2
          exact Nat.le_refl _
    · exact nomatch h

/-- `CHAN.TX_DRAIN` (`45_channel.md` R275). -/
theorem callChanTxDrain_only {x : Unit} (h : callChanTxDrain c s = .ok (x, t)) :
    OnlyChan { draws := false, drop := false, retry := true, state := false } c s t := by
  have quiet : ∀ {k : Chan} {u : State}, u.chans[c]? = some k → quietWhenDrained k u = .ok (x, t) →
      OnlyChan { draws := false, drop := false, retry := true, state := false } c u t := by
    intro k u hk h
    unfold quietWhenDrained at h
    split at h
    · exact .callXcvrTxie hk h
    · cases h; exact .refl
  unfold callChanTxDrain at h
  split at h
  · exact nomatch h
  rename_i k hk
  split at h
  · exact nomatch h
  · cases h; exact .refl
  · split at h
    · simp only at h
      have r1 : OnlyChan { draws := false, drop := false, retry := true, state := false } c s
          (s.setChan c { k with retry := k.retry.peek.2 }) :=
        .setChan hk rfl rfl (fun _ => rfl) (by simp) (fun _ => rfl)
      have k1 := State.setChan_get (b := { k with retry := k.retry.peek.2 }) hk
      split at h
      · split at h
        · exact nomatch h
        · obtain ⟨st1, u, hu, h⟩ := Reply.andThen_eq_ok h
          have r2 := r1.trans (.callXcvrSend k1 hu)
          have k2 : u.chans[c]? = some { k with retry := k.retry.peek.2 } := by
            obtain ⟨r, hr, ⟨-, -, rfl⟩ | ⟨-, -, rfl⟩⟩ := callXcvrSend_cases hu <;> exact k1
          split at h
          · have r3 := r2.trans (.setChan (v := { k with retry := k.retry.peek.2.pop.2 }) k2 rfl rfl (fun _ => rfl)
              (by simp) (fun _ => rfl))
            exact r3.trans (quiet (State.setChan_get k2) h)
          · exact r2.trans (quiet k2 h)
      · exact r1.trans (quiet k1 h)
    · exact nomatch h

/-- `CHAN.RECEIVE` (`45_channel.md` R276). -/
theorem callChanReceive_only {p : Status × Option Frame} (h : callChanReceive c s = .ok (p, t)) :
    OnlyChan { draws := true, drop := false, retry := false, state := false } c s t := by
  unfold callChanReceive at h
  split at h
  · exact nomatch h
  rename_i k hk
  split at h
  · exact nomatch h
  · cases h; exact .refl
  · exact .callXcvrReceive rfl hk h

end Sys2Proof.Machine
end

