-- ==== Sys2Proof/Laws/Lvs.lean ====
section
/-! SUPPORT. The LatestValueSlot: a read of a cell after a write, and that each step keeps `Lvs.Ok`
(`10_state.md` R26, `41_latest_value_slot.md` R166). -/

namespace Sys2Proof.Machine

variable {α : Type}

theorem Cells3.get_set (c : Cells3 α) (i j : Fin 3) (e : Option α) :
    (c.set i e).get j = if j = i then e else c.get j := by
  by_cases h : j = i
  · subst h; rw [if_pos rfl]; unfold Cells3.get Cells3.set; split <;> rfl
  · rw [if_neg h]; unfold Cells3.get Cells3.set; split <;> split <;> first | rfl | exact absurd rfl h

@[simp] theorem Cells3.get_set_same (c : Cells3 α) (i : Fin 3) (e : Option α) : (c.set i e).get i = e := by
  simp [Cells3.get_set]

variable {wf : α → Bool} {q : Lvs α}

theorem Lvs.Ok.setProducing (h : q.Ok wf) {e : Option α} (he : ∀ v, e = some v → wf v = true) :
    (q.setProducing e).Ok wf where
  producingTransfer := h.producingTransfer
  transferConsuming := h.transferConsuming
  producingConsuming := h.producingConsuming
  values := fun i w hw => by
    simp only [Lvs.setProducing, Cells3.get_set] at hw
    split at hw
    · exact he w hw
    · exact h.values i w hw

theorem Lvs.Ok.swapProducing (h : q.Ok wf) : q.swapProducing.Ok wf where
  producingTransfer := h.producingTransfer.symm
  transferConsuming := h.producingConsuming
  producingConsuming := h.transferConsuming
  values := h.values

theorem Lvs.Ok.swapConsuming (h : q.Ok wf) : q.swapConsuming.Ok wf where
  producingTransfer := h.producingConsuming
  transferConsuming := h.transferConsuming.symm
  producingConsuming := h.producingTransfer
  values := h.values

theorem Lvs.Ok.setStale (h : q.Ok wf) (b : Bool) : (q.setStale b).Ok wf where
  producingTransfer := h.producingTransfer
  transferConsuming := h.transferConsuming
  producingConsuming := h.producingConsuming
  values := h.values

theorem Lvs.Ok.push (h : q.Ok wf) {v : α} (hv : wf v = true) : (q.push v).Ok wf :=
  (h.setProducing fun _ hw => by cases hw; exact hv).swapProducing.setStale false

theorem Lvs.Ok.pop (h : q.Ok wf) : q.pop.2.Ok wf := by
  unfold Lvs.pop
  split
  · exact h
  · exact h.swapConsuming.setStale true

theorem Lvs.reset_ok (roles : Roles) : (Lvs.reset (α := α) roles).Ok wf where
  producingTransfer := by simp [Lvs.reset]
  transferConsuming := by simp [Lvs.reset]
  producingConsuming := by simp [Lvs.reset]
  values := fun i v hv => by
    match i, hv with
    | 0, hv => exact nomatch hv
    | 1, hv => exact nomatch hv
    | 2, hv => exact nomatch hv

/-- No step changes the roles. -/
theorem LvsTask.step_roles (a : LvsAtomicity) (t : LvsTask α) (q : Lvs α) : (t.step a q).1.roles = q.roles := by
  cases t <;> cases a <;> simp only [LvsTask.step, Lvs.pop] <;> (try split) <;> rfl

/-- A step of an operation whose value is well formed keeps the instance well formed; what is left to do carries
that value or none, and a result hands out none. -/
theorem LvsTask.step_ok {t : LvsTask α} (a : LvsAtomicity) (h : q.Ok wf)
    (hv : ∀ v, t.carried = some v → wf v = true) :
    (t.step a q).1.Ok wf ∧ (∀ u, (t.step a q).2 = .inl u → ∀ v, u.carried = some v → wf v = true) ∧
      ∀ r, (t.step a q).2 = .inr r → r.heldFrames = [] := by
  cases t with
  | pushOpen v =>
    exact ⟨h.setProducing (fun w hw => nomatch hw), fun u hu => (by cases hu; exact hv), fun r hr => nomatch hr⟩
  | pushWrite v =>
    exact ⟨h.setProducing hv, fun u hu => (by cases hu; exact fun w hw => nomatch hw), fun r hr => nomatch hr⟩
  | pushSwap =>
    cases a
    · exact ⟨h.swapProducing.setStale false, fun u hu => (by cases hu), fun r hr => by cases hr; rfl⟩
    · exact ⟨h.swapProducing, fun u hu => (by cases hu; exact fun w hw => nomatch hw), fun r hr => nomatch hr⟩
  | pushFlag => exact ⟨h.setStale false, fun u hu => (by cases hu), fun r hr => by cases hr; rfl⟩
  | popTest =>
    cases a
    · exact ⟨h.pop, fun u hu => (by cases hu), fun r hr => by cases hr; rfl⟩
    · simp only [LvsTask.step]
      split
      · exact ⟨h, fun u hu => (by cases hu), fun r hr => by cases hr; rfl⟩
      · exact ⟨h, fun u hu => (by cases hu; exact fun w hw => nomatch hw), fun r hr => nomatch hr⟩
  | popSwap =>
    exact ⟨h.swapConsuming, fun u hu => (by cases hu; exact fun w hw => nomatch hw), fun r hr => nomatch hr⟩
  | popFlag => exact ⟨h.setStale true, fun u hu => (by cases hu), fun r hr => by cases hr; rfl⟩

end Sys2Proof.Machine
end

