-- ==== Sys2Proof/Laws/Memory.lean ====
section
/-! SUPPORT. Caller memory: a read after a write, and the canonical form kept (`20_memory.md` R63). -/

namespace Sys2Proof.Machine

theorem Memory.read_write (m : Memory) (a b : Nat) (v : Byte) :
    (m.write a v).read b = if b = a then some v else m.read b := by
  induction m with
  | nil => simp [Memory.write, Memory.read]
  | cons e m ih =>
    obtain ⟨x, w⟩ := e
    simp only [Memory.write]
    split
    · simp only [Memory.read]
    · split
      · rename_i h; subst h; simp only [Memory.read]; split <;> simp_all
      · simp only [Memory.read, ih]; split
        · rename_i h; subst h; simp_all [eq_comm]
        · rfl

@[simp] theorem Memory.read_write_same (m : Memory) (a : Nat) (v : Byte) : (m.write a v).read a = some v := by
  simp [Memory.read_write]

theorem Memory.read_write_other (m : Memory) {a b : Nat} (v : Byte) (h : b ≠ a) : (m.write a v).read b = m.read b := by
  simp [Memory.read_write, h]

/-- What a run of byte writes does to one byte. -/
theorem Memory.read_writeBytes (m : Memory) (a : Nat) (l : List Byte) (b : Nat) :
    (m.writeBytes a l).read b = if a ≤ b ∧ b < a + l.length then l[b - a]? else m.read b := by
  induction l generalizing m a with
  | nil => simp only [Memory.writeBytes, List.length_nil]; split <;> first | omega | rfl
  | cons v l ih =>
    rw [Memory.writeBytes, ih, Memory.read_write]
    simp only [List.length_cons]
    by_cases h : b = a
    · subst h; simp
    · by_cases h1 : a + 1 ≤ b ∧ b < a + 1 + l.length
      · have h2 : a ≤ b ∧ b < a + (l.length + 1) := by omega
        obtain ⟨k, rfl⟩ : ∃ k, b = a + 1 + k := ⟨b - (a + 1), by omega⟩
        have h3 : a + 1 + k - a = k + 1 := by omega
        rw [if_pos h1, if_pos h2, h3]; simp
      · have h2 : ¬(a ≤ b ∧ b < a + (l.length + 1)) := by omega
        rw [if_neg h1, if_neg h2, if_neg h]

/-- A byte outside the written ones reads as before. -/
theorem Memory.read_writeBytes_outside (m : Memory) {a : Nat} {l : List Byte} {b : Nat}
    (h : b < a ∨ a + l.length ≤ b) : (m.writeBytes a l).read b = m.read b := by
  rw [Memory.read_writeBytes, if_neg (by omega)]

/-- Every address of a memory after a write is the written one or was there. -/
theorem Memory.mem_write {m : Memory} {a : Nat} {v : Byte} {e : Host.Cell} (h : e ∈ m.write a v) :
    e.1 = a ∨ e ∈ m := by
  induction m with
  | nil => simp_all [Memory.write]
  | cons x m ih =>
    obtain ⟨y, w⟩ := x
    simp only [Memory.write] at h
    split at h
    · simp only [List.mem_cons] at h ⊢; rcases h with rfl | h | h <;> simp_all
    · split at h
      · simp only [List.mem_cons] at h ⊢; rcases h with rfl | h <;> simp_all
      · simp only [List.mem_cons] at h ⊢
        rcases h with rfl | h
        · simp
        · rcases ih h with h | h <;> simp_all

theorem Memory.write_wf {m : Memory} (h : m.wf) (a : Nat) (v : Byte) : (m.write a v).wf := by
  induction m with
  | nil => simp [Memory.write, Memory.wf]
  | cons x m ih =>
    obtain ⟨y, w⟩ := x
    have hx := List.pairwise_cons.1 h
    simp only [Memory.write]
    split
    · refine List.pairwise_cons.2 ⟨fun e he => ?_, h⟩
      rcases List.mem_cons.1 he with rfl | he
      · assumption
      · exact Nat.lt_trans ‹a < y› (hx.1 e he)
    · split
      · rename_i _ h1; subst h1; exact List.pairwise_cons.2 ⟨fun e he => hx.1 e he, hx.2⟩
      · refine List.pairwise_cons.2 ⟨fun e he => ?_, ih hx.2⟩
        rcases Memory.mem_write he with h1 | h1
        · simp only [h1]; omega
        · exact hx.1 e h1

theorem Memory.writeBytes_wf {m : Memory} (h : m.wf) (a : Nat) (l : List Byte) : (m.writeBytes a l).wf := by
  induction l generalizing m a with
  | nil => exact h
  | cons v l ih => exact ih (Memory.write_wf h a v) (a + 1)

/-- The memory of the reset state has the canonical form. -/
theorem Memory.reset_wf : State.reset.mem.wf := List.Pairwise.nil

/-- Equal memories are equal data: two memories in canonical form that read alike are the same list. -/
theorem Memory.ext_read {m n : Memory} (hm : m.wf) (hn : n.wf) (h : ∀ a, m.read a = n.read a) : m = n := by
  have above : ∀ (m : Memory) (a : Nat), (∀ e ∈ m, a < e.1) → m.read a = none := by
    intro m a hm
    induction m with
    | nil => rfl
    | cons x m ih =>
      have := hm x (by simp)
      simp only [Memory.read]
      rw [if_neg (by omega), ih fun e he => hm e (by simp [he])]
  induction m generalizing n with
  | nil =>
    cases n with
    | nil => rfl
    | cons y n => have := h y.1; simp [Memory.read] at this
  | cons x m ih =>
    cases n with
    | nil => have := h x.1; simp [Memory.read] at this
    | cons y n =>
      obtain ⟨a, v⟩ := x; obtain ⟨b, w⟩ := y
      have hm' := List.pairwise_cons.1 hm
      have hn' := List.pairwise_cons.1 hn
      have hab : a = b := by
        rcases Nat.lt_trichotomy a b with h1 | h1 | h1
        · have h2 := h a
          rw [above ((b, w) :: n) a (by
            intro e he; rcases List.mem_cons.1 he with rfl | he
            · exact h1
            · exact Nat.lt_trans h1 (hn'.1 e he))] at h2
          simp [Memory.read] at h2
        · exact h1
        · have h2 := h b
          rw [above ((a, v) :: m) b (by
            intro e he; rcases List.mem_cons.1 he with rfl | he
            · exact h1
            · exact Nat.lt_trans h1 (hm'.1 e he))] at h2
          simp [Memory.read] at h2
      subst hab
      have hv : v = w := by have := h a; simpa [Memory.read] using this
      subst hv
      rw [ih hm'.2 hn'.2 fun c => ?_]
      by_cases hc : c = a
      · subst hc; rw [above m c hm'.1, above n c hn'.1]
      · have := h c; simpa [Memory.read, hc] using this

end Sys2Proof.Machine
end

