-- ==== Sys2Proof/Laws/Ring.lean ====
section
/-! SUPPORT. The BoundedRing: its occupancy as arithmetic (`10_state.md` R30), what each step does to the contents, and
that each step keeps `Ring.Ok` and the locals of the other agent's operation (`42_bounded_ring.md` R187, R188). -/

namespace Sys2Proof.Machine

variable {α : Type}

@[simp] theorem Ring.setCell_n (q : Ring α) (b : Fin q.n) (e : Option α) : (q.setCell b e).n = q.n := rfl
@[simp] theorem Ring.setCell_front (q : Ring α) (b : Fin q.n) (e : Option α) : (q.setCell b e).front = q.front := rfl
@[simp] theorem Ring.setCell_back (q : Ring α) (b : Fin q.n) (e : Option α) : (q.setCell b e).back = q.back := rfl
@[simp] theorem Ring.setCell_staged (q : Ring α) (b : Fin q.n) (e : Option α) : (q.setCell b e).staged = q.staged := rfl
@[simp] theorem Ring.setCell_roles (q : Ring α) (b : Fin q.n) (e : Option α) : (q.setCell b e).roles = q.roles := rfl
@[simp] theorem Ring.setCell_count (q : Ring α) (b : Fin q.n) (e : Option α) : (q.setCell b e).count = q.count := rfl
@[simp] theorem Ring.setCell_index (q : Ring α) (b : Fin q.n) (e : Option α) (i : Nat) :
    (q.setCell b e).index i = q.index i := rfl
@[simp] theorem Ring.setCell_next (q : Ring α) (b : Fin q.n) (e : Option α) (i : Fin q.n) :
    (q.setCell b e).next i = q.next i := rfl
@[simp] theorem Ring.setBack_n (q : Ring α) (i : Fin q.n) : (q.setBack i).n = q.n := rfl
@[simp] theorem Ring.setBack_front (q : Ring α) (i : Fin q.n) : (q.setBack i).front = q.front := rfl
@[simp] theorem Ring.setBack_back (q : Ring α) (i : Fin q.n) : (q.setBack i).back = i := rfl
@[simp] theorem Ring.setBack_cells (q : Ring α) (i : Fin q.n) : (q.setBack i).cells = q.cells := rfl
@[simp] theorem Ring.setBack_staged (q : Ring α) (i : Fin q.n) : (q.setBack i).staged = q.staged := rfl
@[simp] theorem Ring.setBack_roles (q : Ring α) (i : Fin q.n) : (q.setBack i).roles = q.roles := rfl
@[simp] theorem Ring.setBack_cellAt (q : Ring α) (i j : Fin q.n) : (q.setBack i).cellAt j = q.cellAt j := rfl
@[simp] theorem Ring.setBack_next (q : Ring α) (i j : Fin q.n) : (q.setBack i).next j = q.next j := rfl
@[simp] theorem Ring.setBack_index (q : Ring α) (i : Fin q.n) (j : Nat) : (q.setBack i).index j = q.index j := rfl
@[simp] theorem Ring.setFront_n (q : Ring α) (i : Fin q.n) : (q.setFront i).n = q.n := rfl
@[simp] theorem Ring.setFront_front (q : Ring α) (i : Fin q.n) : (q.setFront i).front = i := rfl
@[simp] theorem Ring.setFront_back (q : Ring α) (i : Fin q.n) : (q.setFront i).back = q.back := rfl
@[simp] theorem Ring.setFront_cells (q : Ring α) (i : Fin q.n) : (q.setFront i).cells = q.cells := rfl
@[simp] theorem Ring.setFront_staged (q : Ring α) (i : Fin q.n) : (q.setFront i).staged = q.staged := rfl
@[simp] theorem Ring.setFront_roles (q : Ring α) (i : Fin q.n) : (q.setFront i).roles = q.roles := rfl
@[simp] theorem Ring.setFront_cellAt (q : Ring α) (i j : Fin q.n) : (q.setFront i).cellAt j = q.cellAt j := rfl
@[simp] theorem Ring.setFront_next (q : Ring α) (i j : Fin q.n) : (q.setFront i).next j = q.next j := rfl
@[simp] theorem Ring.setFront_index (q : Ring α) (i : Fin q.n) (j : Nat) : (q.setFront i).index j = q.index j := rfl
@[simp] theorem Ring.stage_n (q : Ring α) (f : Fin q.n) : (q.stage f).n = q.n := rfl
@[simp] theorem Ring.stage_front (q : Ring α) (f : Fin q.n) : (q.stage f).front = q.front := rfl
@[simp] theorem Ring.stage_back (q : Ring α) (f : Fin q.n) : (q.stage f).back = q.back := rfl
@[simp] theorem Ring.stage_cells (q : Ring α) (f : Fin q.n) : (q.stage f).cells = q.cells := rfl
@[simp] theorem Ring.stage_staged (q : Ring α) (f : Fin q.n) : (q.stage f).staged = q.cellAt f := rfl
@[simp] theorem Ring.stage_roles (q : Ring α) (f : Fin q.n) : (q.stage f).roles = q.roles := rfl
@[simp] theorem Ring.stage_cellAt (q : Ring α) (f i : Fin q.n) : (q.stage f).cellAt i = q.cellAt i := rfl
@[simp] theorem Ring.stage_next (q : Ring α) (f i : Fin q.n) : (q.stage f).next i = q.next i := rfl
@[simp] theorem Ring.stage_index (q : Ring α) (f : Fin q.n) (i : Nat) : (q.stage f).index i = q.index i := rfl

/-- The number of an index stands for that index. -/
@[simp] theorem Ring.index_val (q : Ring α) (i : Fin q.n) : q.index i = i := Fin.ext (Nat.mod_eq_of_lt i.isLt)

theorem Ring.setCell_cellAt (q : Ring α) (b i : Fin q.n) (e : Option α) :
    (q.setCell b e).cellAt i = if i = b then e else q.cellAt i := by
  have h : (q.setCell b e).cellAt i = (q.cells.set b e)[(i : Nat)] := rfl
  rw [h, Vector.getElem_set]
  by_cases hi : i = b
  · rw [if_pos hi, if_pos (congrArg Fin.val hi.symm)]
  · rw [if_neg hi, if_neg fun h => hi (Fin.ext h.symm)]; rfl

/-- Writing a cell twice leaves the second content. -/
@[simp] theorem Ring.setCell_setCell (q : Ring α) (b : Fin q.n) (d e : Option α) :
    (q.setCell b d).setCell b e = q.setCell b e := by
  unfold Ring.setCell
  congr 1
  ext i hi : 1
  simp only [Vector.getElem_set]
  split <;> rfl

/-! ### Occupancy as arithmetic (`30_encoding.md` R113 (d)) -/

/-- The index after `i`, without the remainder. -/
theorem Ring.next_eq (q : Ring α) (i : Fin q.n) : (q.next i : Nat) = if (i : Nat) + 1 = q.n then 0 else (i : Nat) + 1 := by
  unfold Ring.next Ring.index
  dsimp only
  split
  · rename_i h1; rw [h1, Nat.mod_self]
  · exact Nat.mod_eq_of_lt (by omega)

theorem Ring.next_ne (q : Ring α) (i : Fin q.n) (h2 : 2 ≤ q.n) : q.next i ≠ i := by
  rw [Ne, Fin.ext_iff, q.next_eq]; split <;> omega

theorem Ring.next_inj (q : Ring α) {i j : Fin q.n} (h : q.next i = q.next j) : i = j := by
  rw [Fin.ext_iff, q.next_eq, q.next_eq] at h; rw [Fin.ext_iff]; split at h <;> split at h <;> omega

/-- `count`, without the remainder. -/
theorem Ring.count_eq (q : Ring α) :
    q.count = if (q.front : Nat) ≤ q.back then (q.back : Nat) - q.front else q.back + q.n - q.front := by
  unfold Ring.count
  split
  · rename_i h
    rw [show (q.back : Nat) + q.n - q.front = q.back - q.front + q.n by omega, Nat.add_mod_right]
    exact Nat.mod_eq_of_lt (by omega)
  · exact Nat.mod_eq_of_lt (by omega)

/-- The place of the unread element number `i`, without the remainder. -/
theorem Ring.place_eq (q : Ring α) {i : Nat} (hi : i < q.n) :
    (q.index (q.front + i) : Nat) = if q.front + i < q.n then q.front + i else q.front + i - q.n := by
  unfold Ring.index
  dsimp only
  split
  · rename_i h; exact Nat.mod_eq_of_lt h
  · rw [Nat.mod_eq_sub_mod (by omega)]; exact Nat.mod_eq_of_lt (by omega)

theorem Ring.count_lt (q : Ring α) : q.count < q.n := Nat.mod_lt _ q.front.pos

/-- `full iff count = N - 1`, `empty iff count = 0` (`10_state.md` R30). -/
theorem Ring.isFull_iff (q : Ring α) (h2 : 2 ≤ q.n) : q.isFull = true ↔ q.count = q.n - 1 := by
  rw [Ring.isFull, beq_iff_eq, Fin.ext_iff, q.next_eq, q.count_eq]; split <;> split <;> omega

theorem Ring.isEmpty_iff (q : Ring α) : q.isEmpty = true ↔ q.count = 0 := by
  rw [Ring.isEmpty, beq_iff_eq, Fin.ext_iff, q.count_eq]; split <;> omega

theorem Ring.contents_length (q : Ring α) : q.contents.length = q.count := by simp [Ring.contents]

theorem Ring.contents_getElem? (q : Ring α) (i : Nat) :
    q.contents[i]? = if i < q.count then some (q.cellAt (q.index (q.front + i))) else none := by
  simp only [Ring.contents, List.getElem?_map]
  split
  · rename_i h; simp [List.getElem?_range h]
  · rename_i h; simp [List.getElem?_eq_none (l := List.range q.count) (by simpa using h)]

/-! ### What the steps do to the contents -/

/-- Whatever the free cell holds, no consumer sees it (`42_bounded_ring.md` R181: "not yet part of the ring's
contents"). -/
theorem Ring.contents_setCell (q : Ring α) (e : Option α) : (q.setCell q.back e).contents = q.contents := by
  apply List.ext_getElem?
  intro i
  rw [Ring.contents_getElem?, Ring.contents_getElem?]
  by_cases hi : i < q.count
  · rw [if_pos hi, if_pos (show i < (q.setCell q.back e).count from hi)]
    have hl := q.count_lt
    have hb : q.index (q.front + i) ≠ q.back := by
      rw [Ne, Fin.ext_iff, q.place_eq (by omega)]
      rw [q.count_eq] at hi
      split at hi <;> split <;> omega
    exact congrArg some ((q.setCell_cellAt q.back _ e).trans (if_neg hb))
  · rw [if_neg hi, if_neg (show ¬i < (q.setCell q.back e).count from hi)]

/-- Publishing appends the content of the cell `back` names (`42_bounded_ring.md` R181, step 3). -/
theorem Ring.contents_setBack (q : Ring α) (hn : q.next q.back ≠ q.front) :
    (q.setBack (q.next q.back)).contents = q.contents ++ [q.cellAt q.back] := by
  have h1 := q.next_eq q.back
  rw [Ne, Fin.ext_iff] at hn
  have hc : (q.setBack (q.next q.back)).count = q.count + 1 := by
    have he : (q.setBack (q.next q.back)).count = if (q.front : Nat) ≤ q.next q.back then
        (q.next q.back : Nat) - q.front else q.next q.back + q.n - q.front := Ring.count_eq _
    rw [he, q.count_eq]
    split at h1 <;> split <;> split <;> omega
  apply List.ext_getElem?
  intro i
  rw [List.getElem?_append, Ring.contents_getElem?, Ring.contents_getElem?, hc, Ring.contents_length]
  simp only [Ring.setBack_front, Ring.setBack_index, Ring.setBack_cellAt]
  have hl := q.count_lt
  by_cases hi : i < q.count
  · rw [if_pos (by omega), if_pos hi, if_pos hi]
  · by_cases hj : i = q.count
    · have hp : q.index (q.front + i) = q.back := by
        rw [Fin.ext_iff, q.place_eq (by omega), hj, q.count_eq]; split <;> split <;> omega
      rw [if_pos (by omega), if_neg hi, hp, hj]; simp
    · rw [if_neg (by omega), if_neg hi]
      rw [List.getElem?_eq_none (by simp; omega)]

/-- Freeing removes the oldest (`42_bounded_ring.md` R182, step 3). -/
theorem Ring.contents_setFront (q : Ring α) (hn : q.front ≠ q.back) :
    q.contents = q.cellAt q.front :: (q.setFront (q.next q.front)).contents := by
  have h1 := q.next_eq q.front
  rw [Ne, Fin.ext_iff] at hn
  have hc : q.count = (q.setFront (q.next q.front)).count + 1 := by
    have he : (q.setFront (q.next q.front)).count = if (q.next q.front : Nat) ≤ q.back then
        (q.back : Nat) - q.next q.front else q.back + q.n - q.next q.front := Ring.count_eq _
    rw [he, q.count_eq]
    split at h1 <;> split <;> split <;> omega
  apply List.ext_getElem?
  intro i
  have hl := q.count_lt
  cases i with
  | zero =>
    rw [Ring.contents_getElem?, if_pos (by omega)]
    simp
  | succ i =>
    rw [List.getElem?_cons_succ, Ring.contents_getElem?, Ring.contents_getElem?]
    simp only [Ring.setFront_front, Ring.setFront_index, Ring.setFront_cellAt]
    by_cases hi : i + 1 < q.count
    · rw [if_pos hi, if_pos (by omega)]
      congr 2
      have hp : (q.index (q.next q.front + i) : Nat) = if q.next q.front + i < q.n then q.next q.front + i else
          q.next q.front + i - q.n := Ring.place_eq (q.setFront (q.next q.front)) (by rw [Ring.setFront_n]; omega)
      rw [Fin.ext_iff, q.place_eq (by omega), hp]
      split at h1 <;> split <;> split <;> omega
    · rw [if_neg hi, if_neg (by omega)]

/-- Staging leaves the contents (`42_bounded_ring.md` R183). -/
theorem Ring.contents_stage (q : Ring α) (f : Fin q.n) : (q.stage f).contents = q.contents := rfl

/-! ### `Ring.Ok` -/

/-- `written` of `Ring.Ok` says that the contents hold values. -/
theorem Ring.written_iff (q : Ring α) :
    (∀ i, i < q.count → (q.cellAt (q.index (q.front + i))).isSome = true) ↔ ∀ e ∈ q.contents, e.isSome = true := by
  simp only [Ring.contents, List.mem_map, List.mem_range]
  constructor
  · rintro h e ⟨i, hi, rfl⟩; exact h i hi
  · intro h i hi; exact h _ ⟨i, hi, rfl⟩

variable {wf : α → Bool} {q : Ring α}

theorem Ring.Ok.contents_isSome (h : q.Ok wf) : ∀ e ∈ q.contents, e.isSome = true := q.written_iff.1 h.written

theorem Ring.Ok.setCell (h : q.Ok wf) {e : Option α} (he : ∀ v, e = some v → wf v = true) :
    (q.setCell q.back e).Ok wf where
  size := h.size
  written := (Ring.written_iff _).2 (by rw [q.contents_setCell]; exact h.contents_isSome)
  values := fun i v hv => by
    replace hv := (q.setCell_cellAt q.back i e).symm.trans hv
    split at hv
    · exact he v hv
    · exact h.values i v hv
  staged := h.staged

theorem Ring.Ok.setBack (h : q.Ok wf) (hn : q.next q.back ≠ q.front) (hw : (q.cellAt q.back).isSome = true) :
    (q.setBack (q.next q.back)).Ok wf where
  size := h.size
  written := (Ring.written_iff _).2 (by
    rw [q.contents_setBack hn]
    intro e he
    rcases List.mem_append.1 he with he | he
    · exact h.contents_isSome e he
    · rw [List.mem_singleton.1 he]; exact hw)
  values := h.values
  staged := h.staged

theorem Ring.Ok.setFront (h : q.Ok wf) (hn : q.front ≠ q.back) : (q.setFront (q.next q.front)).Ok wf where
  size := h.size
  written := (Ring.written_iff _).2 fun e he => h.contents_isSome e (by
    rw [q.contents_setFront hn]; exact List.mem_cons_of_mem _ he)
  values := h.values
  staged := h.staged

theorem Ring.Ok.stage (h : q.Ok wf) (f : Fin q.n) : (q.stage f).Ok wf where
  size := h.size
  written := h.written
  values := h.values
  staged := h.values f

/-- The oldest cell of a ring that is not empty has been written. -/
theorem Ring.Ok.front_isSome (h : q.Ok wf) (hn : q.front ≠ q.back) : (q.cellAt q.front).isSome = true := by
  have h0 : 0 < q.count := by
    rw [Ne, Fin.ext_iff] at hn
    rw [q.count_eq]; split <;> omega
  simpa using h.written 0 h0

theorem Ring.reset_ok (n : Nat) (roles : Roles) (h : 2 ≤ n) : (Ring.reset (α := α) n roles).Ok wf where
  size := by simp only [Ring.reset]; omega
  written := fun i hi => by simp [Ring.reset, Ring.count] at hi
  values := fun i v hv => by
    have h : (Vector.replicate (n - 1 + 1) (none : Option α))[(i : Nat)] = some v := hv
    simp at h
  staged := fun v hv => nomatch hv

/-! ### The steps -/

/-- The steps that write, at the places their locals name when they agree with the ring. -/
theorem RingTask.step_pushOpen (q : Ring α) (v : α) (nb : Nat) :
    (RingTask.pushOpen v q.back nb).step q = (q.setCell q.back none, .inl (.pushWrite v q.back nb)) := by
  simp only [RingTask.step, Ring.index_val]

theorem RingTask.step_pushWrite (q : Ring α) (v : α) (nb : Nat) :
    (RingTask.pushWrite v q.back nb).step q = (q.setCell q.back (some v), .inl (.pushPublish nb)) := by
  simp only [RingTask.step, Ring.index_val]

theorem RingTask.step_pushPublish (q : Ring α) :
    (RingTask.pushPublish (q.next q.back) : RingTask α).step q = (q.setBack (q.next q.back), .inr false) := by
  simp only [RingTask.step, Ring.index_val]

theorem RingTask.step_popStage (q : Ring α) :
    (RingTask.popStage q.front : RingTask α).step q = (q.stage q.front, .inl (.popPublish q.front)) := by
  simp only [RingTask.step, Ring.index_val]

theorem RingTask.step_popPublish (q : Ring α) :
    (RingTask.popPublish q.front : RingTask α).step q = (q.setFront (q.next q.front), .inr true) := by
  simp only [RingTask.step, Ring.index_val]

theorem RingTask.step_peekStage (q : Ring α) :
    (RingTask.peekStage q.front : RingTask α).step q = (q.stage q.front, .inr true) := by
  simp only [RingTask.step, Ring.index_val]

/-- No step changes the size or the roles. -/
theorem RingTask.step_shape (t : RingTask α) (q : Ring α) : (t.step q).1.shape = q.shape := by
  cases t <;> simp only [RingTask.step] <;> (try split) <;> rfl

/-- What one step of an operation whose locals agree leaves: an instance that is well formed, and locals that agree
with it. -/
theorem RingTask.step_ok {t : RingTask α} (h : q.Ok wf) (ha : t.Agrees q) (hc : ∀ v, t.carried = some v → wf v = true) :
    (t.step q).1.Ok wf ∧ ∀ u, (t.step q).2 = .inl u →
      u.Agrees (t.step q).1 ∧ u.isPush = t.isPush ∧ ∀ v, u.carried = some v → wf v = true := by
  cases t with
  | pushFront v => exact ⟨h, fun u hu => by cases hu; exact ⟨fun _ => rfl, rfl, fun w hw => hc w hw⟩⟩
  | pushBack v f =>
    simp only [RingTask.step]
    split
    · exact ⟨h, fun u hu => nomatch hu⟩
    · rename_i hf
      refine ⟨h, fun u hu => ?_⟩
      cases hu
      exact ⟨⟨rfl, rfl, fun hq => hf ((congrArg Fin.val hq).trans (ha hq))⟩, rfl, fun w hw => hc w hw⟩
  | pushOpen v b nb =>
    obtain ⟨rfl, rfl, hn⟩ := ha
    rw [RingTask.step_pushOpen]
    exact ⟨h.setCell (fun w hw => nomatch hw), fun u hu => by cases hu; exact ⟨⟨rfl, rfl, hn⟩, rfl, fun w hw => hc w hw⟩⟩
  | pushWrite v b nb =>
    obtain ⟨rfl, rfl, hn⟩ := ha
    rw [RingTask.step_pushWrite]
    refine ⟨h.setCell fun w hw => hc w hw, fun u hu => ?_⟩
    cases hu
    exact ⟨⟨rfl, hn, by simp [q.setCell_cellAt]⟩, rfl, fun w hw => nomatch hw⟩
  | pushPublish nb =>
    obtain ⟨rfl, hn, hw⟩ := ha
    rw [RingTask.step_pushPublish]
    exact ⟨h.setBack hn hw, fun u hu => nomatch hu⟩
  | popFront => exact ⟨h, fun u hu => by cases hu; exact ⟨rfl, rfl, fun w hw => nomatch hw⟩⟩
  | popBack f =>
    obtain rfl : f = q.front := ha
    simp only [RingTask.step]
    split
    · exact ⟨h, fun u hu => nomatch hu⟩
    · rename_i hf
      exact ⟨h, fun u hu => by cases hu; exact ⟨⟨rfl, fun e => hf (congrArg Fin.val e)⟩, rfl, fun w hw => nomatch hw⟩⟩
  | popStage f =>
    obtain ⟨rfl, hn⟩ := ha
    rw [RingTask.step_popStage]
    exact ⟨h.stage _, fun u hu => by cases hu; exact ⟨⟨rfl, hn, rfl⟩, rfl, fun w hw => nomatch hw⟩⟩
  | popPublish f =>
    obtain ⟨rfl, hn, -⟩ := ha
    rw [RingTask.step_popPublish]
    exact ⟨h.setFront hn, fun u hu => nomatch hu⟩
  | peekFront => exact ⟨h, fun u hu => by cases hu; exact ⟨rfl, rfl, fun w hw => nomatch hw⟩⟩
  | peekBack f =>
    obtain rfl : f = q.front := ha
    simp only [RingTask.step]
    split
    · exact ⟨h, fun u hu => nomatch hu⟩
    · rename_i hf
      exact ⟨h, fun u hu => by cases hu; exact ⟨⟨rfl, fun e => hf (congrArg Fin.val e)⟩, rfl, fun w hw => nomatch hw⟩⟩
  | peekStage f => exact ⟨h.stage _, fun u hu => nomatch hu⟩

/-- A step of one agent's operation keeps the locals of the other agent's operation in agreement. -/
theorem RingTask.step_other {t u : RingTask α} (ht : t.Agrees q) (hu : u.Agrees q) (hd : t.isPush ≠ u.isPush) :
    u.Agrees (t.step q).1 := by
  have cell : ∀ e : Option α, q.next q.back ≠ q.front → u.isPush = false → u.Agrees (q.setCell q.back e) := by
    intro e hn hp
    cases u <;> simp_all [RingTask.Agrees, RingTask.isPush, q.setCell_cellAt]
  cases t with
  | pushFront v => exact hu
  | pushBack v f => simp only [RingTask.step]; split <;> exact hu
  | pushOpen v b nb =>
    obtain ⟨rfl, -, hn⟩ := ht
    rw [RingTask.step_pushOpen]
    exact cell _ hn (by simpa [RingTask.isPush] using hd.symm)
  | pushWrite v b nb =>
    obtain ⟨rfl, -, hn⟩ := ht
    rw [RingTask.step_pushWrite]
    exact cell _ hn (by simpa [RingTask.isPush] using hd.symm)
  | pushPublish nb =>
    obtain ⟨rfl, hn, -⟩ := ht
    rw [RingTask.step_pushPublish]
    cases u <;> simp_all [RingTask.Agrees, RingTask.isPush]
    all_goals exact fun e => hn e.symm
  | popFront => exact hu
  | popBack f => simp only [RingTask.step]; split <;> exact hu
  | popStage f => cases u <;> first | exact hu | simp [RingTask.isPush] at hd
  | popPublish f =>
    obtain ⟨rfl, hn, -⟩ := ht
    have hx : q.next q.back ≠ q.next q.front := fun e => hn (q.next_inj e).symm
    rw [RingTask.step_popPublish]
    cases u <;> simp_all [RingTask.Agrees, RingTask.isPush]
  | peekFront => exact hu
  | peekBack f => simp only [RingTask.step]; split <;> exact hu
  | peekStage f => cases u <;> first | exact hu | simp [RingTask.isPush] at hd

end Sys2Proof.Machine
end

