-- ==== Sys2Proof/Laws/Invariant.lean ====
section
/-! SUPPORT. The parts of the invariant: what each update of the state keeps of it, and what one step of an operation
keeps, whatever the other context is part-way through. -/

namespace Sys2Proof.Machine

/-- The invariant without what it says of the operations part-way. -/
structure State.Base (s : State) : Prop where
  config : s.cfg.wf = true
  lvsRoles : s.lvs.map Lvs.roles = s.cfg.lvs
  lvs : ∀ q ∈ s.lvs, q.Ok (Value.wf s.cfg)
  ringShapes : s.rings.map Ring.shape = s.cfg.rings
  rings : ∀ q ∈ s.rings, q.Ok (Value.wf s.cfg)
  xcvrCount : s.xcvrs.length = s.cfg.xcvrs
  xcvrs : ∀ r ∈ s.xcvrs, r.Ok s.cfg
  chanShapes : s.chans.map Chan.shape = s.cfg.chans
  chanConsumers : ∀ k ∈ s.chans, k.retry.roles.consumer = .isr
  chans : ∀ k ∈ s.chans, k.retry.Ok (Frame.wf s.cfg)
  frames : ∀ f ∈ s.frames, f.wf s.cfg = true
  results : ∀ c r, (s.ctx c).result = some r → ∀ f ∈ r.heldFrames, f.wf s.cfg = true
  dispatched : ∀ c f, s.hook = some (.dispatch c f) → f.wf s.cfg = true
  memory : s.mem.wf

theorem State.Inv.base {s : State} (h : s.Inv) : s.Base :=
  ⟨h.config, h.lvsRoles, h.lvs, h.ringShapes, h.rings, h.xcvrCount, h.xcvrs, h.chanShapes, h.chanConsumers, h.chans,
    h.frames, h.results, h.dispatched, h.memory⟩

theorem State.Base.inv {s : State} (h : s.Base)
    (hookCalls : ∀ k, s.hook = some k → k.calls = true → s.isr.task.isSome = true)
    (tasks : ∀ c t, (s.ctx c).task = some t → t.Fits c s) : s.Inv :=
  ⟨h.config, h.lvsRoles, h.lvs, h.ringShapes, h.rings, h.xcvrCount, h.xcvrs, h.chanShapes, h.chanConsumers, h.chans,
    h.frames, h.results, h.dispatched, hookCalls, tasks, h.memory⟩

/-- Replacing an element by one of the same image leaves the images. -/
theorem List.map_set_of_eq {α β : Type} {l : List α} {i : Nat} {a b : α} {f : α → β} (h : l[i]? = some a)
    (hf : f b = f a) : (l.set i b).map f = l.map f := by
  apply List.ext_getElem?
  intro j
  simp only [List.getElem?_map, List.getElem?_set]
  split
  · rename_i e; subst e; split
    · simp [h, hf]
    · simp_all
  · rfl

theorem List.forall_mem_set {α : Type} {l : List α} {i : Nat} {b : α} {p : α → Prop} (h : ∀ a ∈ l, p a) (hb : p b) :
    ∀ a ∈ l.set i b, p a := fun a ha => by
  rcases List.mem_or_eq_of_mem_set ha with h1 | rfl
  · exact h a h1
  · exact hb

theorem List.getElem?_set_cases {α : Type} {l : List α} {i j : Nat} {b c : α} (h : (l.set i b)[j]? = some c) :
    (j = i ∧ c = b) ∨ l[j]? = some c := by
  rw [List.getElem?_set] at h
  split at h
  · rename_i e; split at h
    · cases h; exact .inl ⟨e.symm, rfl⟩
    · exact nomatch h
  · exact .inr h

/-- `Task.Fits` reads the configuration, the rings and the Channels only. -/
theorem Task.Fits.congr {c : Ctx} {s t : State} {u : Task} (h : u.Fits c s) (hc : t.cfg = s.cfg)
    (hr : t.rings = s.rings) (hk : t.chans = s.chans) : u.Fits c t := by
  cases u <;> simp only [Task.Fits, hc, hr, hk] at h ⊢ <;> exact h

/-- What part of a run of context `s.agent` keeps: the rest of the invariant, and the fit of the operation the other
context is part-way through. -/
structure State.Keeps (s t : State) : Prop where
  base : t.Base
  others : ∀ d u, d ≠ s.agent → (s.ctx d).task = some u → u.Fits d t
  agent : t.agent = s.agent
  cfg : t.cfg = s.cfg
  hook : t.hook = s.hook
  schedule : t.schedule = s.schedule
  task : ∀ d, (t.ctx d).task = (s.ctx d).task

theorem State.Keeps.trans {s t u : State} (h : s.Keeps t) (k : t.Keeps u) : s.Keeps u where
  base := k.base
  others := fun d w hd hw => k.others d w (by rw [h.agent]; exact hd) (by rw [h.task]; exact hw)
  agent := k.agent.trans h.agent
  cfg := k.cfg.trans h.cfg
  hook := k.hook.trans h.hook
  schedule := k.schedule.trans h.schedule
  task := fun d => (k.task d).trans (h.task d)

/-- The start of such a run. -/
structure State.Ready (s : State) : Prop where
  base : s.Base
  others : ∀ d u, d ≠ s.agent → (s.ctx d).task = some u → u.Fits d s

theorem State.Ready.refl {s : State} (h : s.Ready) : s.Keeps s := ⟨h.base, h.others, rfl, rfl, rfl, rfl, fun _ => rfl⟩

theorem State.Keeps.ready {s t : State} (h : s.Keeps t) : t.Ready :=
  ⟨h.base, fun d u hd hu => h.others d u (by rw [← h.agent]; exact hd) (by rw [← h.task]; exact hu)⟩

/-- An update that leaves the rings and the Channels alone. -/
theorem State.Ready.of_same {s t : State} (h : s.Ready) (hb : t.Base) (ha : t.agent = s.agent) (hc : t.cfg = s.cfg)
    (hr : t.rings = s.rings) (hk : t.chans = s.chans) (hh : t.hook = s.hook) (hs : t.schedule = s.schedule)
    (ht : ∀ d, (t.ctx d).task = (s.ctx d).task) : s.Keeps t :=
  ⟨hb, fun d u hd hu => (h.others d u hd hu).congr hc hr hk, ha, hc, hh, hs, ht⟩

theorem State.Base.onlyXcvr {s t : State} (h : s.Base) (ht : OnlyXcvr s.cfg s t) : t.Base := by
  have hx := ht.ok h.xcvrs
  have hn := ht.count.trans h.xcvrCount
  rw [ht.rest]
  exact ⟨h.config, h.lvsRoles, h.lvs, h.ringShapes, h.rings, hn, hx, h.chanShapes, h.chanConsumers, h.chans, h.frames,
    h.results, h.dispatched, h.memory⟩

/-- A Transceiver call keeps everything. -/
theorem State.Ready.onlyXcvr {s t : State} (h : s.Ready) (ht : OnlyXcvr s.cfg s t) : s.Keeps t :=
  h.of_same (h.base.onlyXcvr ht) (by rw [ht.rest]) (by rw [ht.rest]) (by rw [ht.rest]) (by rw [ht.rest])
    (by rw [ht.rest]) (by rw [ht.rest]) fun d => by rw [ht.rest]; cases d <;> rfl

theorem State.Base.returns {s : State} (h : s.Base) {r : OpResult} (hr : ∀ f ∈ r.heldFrames, f.wf s.cfg = true) :
    (s.returns r).Base where
  config := by simpa using h.config
  lvsRoles := by simpa using h.lvsRoles
  lvs := by simpa using h.lvs
  ringShapes := by simpa using h.ringShapes
  rings := by simpa using h.rings
  xcvrCount := by simpa using h.xcvrCount
  xcvrs := by simpa using h.xcvrs
  chanShapes := by simpa using h.chanShapes
  chanConsumers := by simpa using h.chanConsumers
  chans := by simpa using h.chans
  frames := fun f hf => by
    rw [State.returns_frames] at hf
    rw [State.returns_cfg]
    rcases List.mem_append.1 hf with hf | hf
    · exact h.frames f hf
    · exact hr f hf
  results := fun c r' hr' f hf => by
    rw [State.returns_ctx] at hr'
    rw [State.returns_cfg]
    split at hr'
    · cases hr'; exact hr f hf
    · exact h.results c r' hr' f hf
  dispatched := by simpa using h.dispatched
  memory := by simpa using h.memory

/-- A result whose Frames can exist is delivered. -/
theorem State.Ready.returns {s : State} (h : s.Ready) {r : OpResult} (hr : ∀ f ∈ r.heldFrames, f.wf s.cfg = true) :
    s.Keeps (s.returns r) :=
  h.of_same (h.base.returns hr) (by simp) (by simp) (by simp) (by simp) (by simp) (by simp) fun d => s.returns_task r d

/-- A LatestValueSlot replaced by one of the same roles that is well formed. -/
theorem State.Ready.setLvs {s : State} (h : s.Ready) {l : Nat} {q v : Lvs Value} (hq : s.lvs[l]? = some q)
    (hr : v.roles = q.roles) (hv : v.Ok (Value.wf s.cfg)) : s.Keeps (s.setLvs l v) :=
  h.of_same
    { h.base with
      lvsRoles := (List.map_set_of_eq hq hr).trans h.base.lvsRoles
      lvs := List.forall_mem_set h.base.lvs hv
      results := by simpa using h.base.results }
    rfl rfl rfl rfl rfl rfl fun d => by simp

theorem State.Ready.setMem {s : State} (h : s.Ready) {m : Memory} (hm : m.wf) : s.Keeps (s.setMem m) :=
  h.of_same { h.base with memory := hm, results := by simpa using h.base.results } rfl rfl rfl rfl rfl rfl
    fun d => by simp

/-- The operation of the other agent of a ring still fits after a step on the ring. -/
theorem RingTask.Fits.other {α : Type} {wf : α → Bool} {q : Ring α} {t u : RingTask α} {c d : Ctx}
    (ht : t.Fits wf c q) (hu : u.Fits wf d q) (hd : d ≠ c) : u.Fits wf d (t.step q).1 := by
  have hr : (t.step q).1.roles = q.roles := congrArg RingConfig.roles (t.step_shape q)
  refine ⟨?_, RingTask.step_other ht.agrees hu.agrees fun h => hd ?_, hu.carried⟩
  · rw [hu.agent]; simp only [RingTask.agent, hr]
  · rw [hu.agent, ht.agent]; simp only [RingTask.agent, h]

/-- What is left of a ring operation after a step fits the ring after it. -/
theorem RingTask.Fits.next {α : Type} {wf : α → Bool} {q : Ring α} {t u : RingTask α} {c : Ctx} (hq : q.Ok wf)
    (ht : t.Fits wf c q) (hu : (t.step q).2 = .inl u) : u.Fits wf c (t.step q).1 ∧ u.isPush = t.isPush := by
  obtain ⟨h1, h2, h3⟩ := (RingTask.step_ok hq ht.agrees ht.carried).2 u hu
  have hr : (t.step q).1.roles = q.roles := congrArg RingConfig.roles (t.step_shape q)
  exact ⟨⟨by rw [ht.agent]; simp only [RingTask.agent, hr, h2], h1, h3⟩, h2⟩

/-- A BoundedRing instance after a step of an operation of `s.agent`. -/
theorem State.Ready.stepRing {s : State} (h : s.Ready) {r : Nat} {q : Ring Value} {t : RingTask Value}
    (hq : s.rings[r]? = some q) (ht : t.Fits (Value.wf s.cfg) s.agent q) : s.Keeps (s.setRing r (t.step q).1) where
  base := { h.base with
    ringShapes := (List.map_set_of_eq hq (t.step_shape q)).trans h.base.ringShapes
    rings := List.forall_mem_set h.base.rings
      (RingTask.step_ok (h.base.rings q (List.mem_of_getElem? hq)) ht.agrees ht.carried).1
    results := by simpa using h.base.results }
  others := fun d u hd hu => by
    have hf := h.others d u hd hu
    cases u with
    | ring r' t' =>
      intro q' hq'
      rcases List.getElem?_set_cases hq' with ⟨rfl, rfl⟩ | hq'
      · exact RingTask.Fits.other ht (hf q hq) hd
      · exact hf q' hq'
    | _ => exact hf
  agent := rfl
  cfg := rfl
  hook := rfl
  schedule := rfl
  task := fun d => by simp

/-- A Channel replaced by one of the same shape, its ring well formed and fit for the other context. -/
theorem State.Ready.setChan {s : State} (h : s.Ready) {c : Nat} {k v : Chan} (hk : s.chans[c]? = some k)
    (hs : v.shape = k.shape) (hi : v.retry.roles.consumer = k.retry.roles.consumer)
    (hv : v.retry.Ok (Frame.wf s.cfg))
    (hf : ∀ d (u : RingTask Frame), d ≠ s.agent → u.Fits (Frame.wf s.cfg) d k.retry →
      u.Fits (Frame.wf s.cfg) d v.retry) : s.Keeps (s.setChan c v) where
  base := { h.base with
    chanShapes := (List.map_set_of_eq hk hs).trans h.base.chanShapes
    chanConsumers := List.forall_mem_set h.base.chanConsumers
      (hi.trans (h.base.chanConsumers k (List.mem_of_getElem? hk)))
    chans := List.forall_mem_set h.base.chans hv
    results := by simpa using h.base.results }
  others := fun d u hd hu => by
    have hw := h.others d u hd hu
    have hp : v.retry.roles.producer = k.retry.roles.producer := congrArg ChanConfig.sender hs
    cases u with
    | sendPush j t =>
      refine ⟨hw.1, fun q hq => ?_⟩
      rcases List.getElem?_set_cases hq with ⟨rfl, rfl⟩ | hq
      · exact hf d t hd (hw.2 k hk)
      · exact hw.2 q hq
    | drainPeek j t =>
      refine ⟨hw.1, fun q hq => ?_⟩
      rcases List.getElem?_set_cases hq with ⟨rfl, rfl⟩ | hq
      · exact hf d t hd (hw.2 k hk)
      · exact hw.2 q hq
    | drainPop j t =>
      refine ⟨hw.1, fun q hq => ?_⟩
      rcases List.getElem?_set_cases hq with ⟨rfl, rfl⟩ | hq
      · exact hf d t hd (hw.2 k hk)
      · exact hw.2 q hq
    | sendXcvr j f =>
      refine ⟨hw.1, fun q hq => ?_⟩
      rcases List.getElem?_set_cases hq with ⟨rfl, rfl⟩ | hq
      · rw [hp]; exact hw.2 k hk
      · exact hw.2 q hq
    | drainXcvr j f =>
      refine ⟨hw.1, fun q hq => ?_⟩
      rcases List.getElem?_set_cases hq with ⟨rfl, rfl⟩ | hq
      · rw [hi]; exact hw.2 k hk
      · exact hw.2 q hq
    | drainRead j =>
      intro q hq
      rcases List.getElem?_set_cases hq with ⟨rfl, rfl⟩ | hq
      · rw [hi]; exact hw k hk
      · exact hw q hq
    | drainTake j =>
      intro q hq
      rcases List.getElem?_set_cases hq with ⟨rfl, rfl⟩ | hq
      · rw [hi]; exact hw k hk
      · exact hw q hq
    | _ => exact hw
  agent := rfl
  cfg := rfl
  hook := rfl
  schedule := rfl
  task := fun d => by simp

/-- A Channel whose retry ring is not touched. -/
theorem State.Ready.setChan_same {s : State} (h : s.Ready) {c : Nat} {k v : Chan} (hk : s.chans[c]? = some k)
    (hx : v.xcvr = k.xcvr) (hf : v.fifo = k.fifo) (hr : v.retry = k.retry) : s.Keeps (s.setChan c v) :=
  h.setChan hk (by simp [Chan.shape, hx, hf, hr]) (by rw [hr])
    (by rw [hr]; exact h.base.chans k (List.mem_of_getElem? hk)) fun d u _ hu => by rw [hr]; exact hu

/-- A Channel after a step of `s.agent`'s operation on its retry ring. -/
theorem State.Ready.stepRetry {s : State} (h : s.Ready) {c : Nat} {k : Chan} {t : RingTask Frame}
    (hk : s.chans[c]? = some k) (ht : t.Fits (Frame.wf s.cfg) s.agent k.retry) :
    s.Keeps (s.setChan c { k with retry := (t.step k.retry).1 }) := by
  have hq := h.base.chans k (List.mem_of_getElem? hk)
  have hs := t.step_shape k.retry
  have hr : (t.step k.retry).1.roles = k.retry.roles := congrArg RingConfig.roles hs
  have hn : (t.step k.retry).1.n = k.retry.n := congrArg RingConfig.n hs
  refine h.setChan hk ?_ ?_ (RingTask.step_ok hq ht.agrees ht.carried).1 fun d u hd hu => ht.other hu hd
  · simp only [Chan.shape, hr, hn]
  · simp only [hr]

/-! ### One step of an operation -/

/-- What a step may leave: more steps that fit, or the end. -/
def TaskOutcome.Good (c : Ctx) (s : State) : TaskOutcome → Prop
  | .more t s' => s.Keeps s' ∧ t.Fits c s'
  | .done s' => s.Keeps s'
  | .refused _ => True

theorem TaskOutcome.Good.trans {c : Ctx} {s t : State} {o : TaskOutcome} (h : s.Keeps t) (ho : o.Good c t) :
    o.Good c s := by
  cases o with
  | more u s' => exact ⟨h.trans ho.1, ho.2⟩
  | done s' => exact h.trans ho
  | refused r => trivial

theorem endWith_good {c : Ctx} {s : State} {r : OpResult} (h : s.Ready) (hr : ∀ f ∈ r.heldFrames, f.wf s.cfg = true) :
    (endWith s r).Good c s := h.returns hr

theorem withChan_good {c : Ctx} {s : State} {n : Nat} {k : Chan → TaskOutcome}
    (h : ∀ ch, s.chans[n]? = some ch → (k ch).Good c s) : (withChan n s k).Good c s := by
  unfold withChan
  split
  · exact h _ ‹_›
  · trivial

/-- A line of a read (`41_latest_value_slot.md` R163, `42_bounded_ring.md` R184). -/
theorem testLine_good {c : Ctx} {s : State} {α : Type} {e : Option α} {r : Refusal} {k : α → TaskOutcome}
    (h : ∀ v, e = some v → (k v).Good c s) : (testLine e r k).Good c s := by
  unfold testLine
  split
  · exact h _ rfl
  · trivial

theorem gateStep_good {c : Ctx} {s : State} {op : ChanOp} {failed : OpResult} {ch : Chan} {k : TaskOutcome}
    (h : s.Ready) (hf : failed.heldFrames = []) (hk : k.Good c s) : (gateStep op failed s ch k).Good c s := by
  unfold gateStep
  split
  · trivial
  · exact endWith_good h (by simp [hf])
  · exact hk

theorem callStep_good {c : Ctx} {s : State} {α : Type} {r : Reply α} {k : α → State → TaskOutcome}
    (h : ∀ a t, r = .ok (a, t) → (k a t).Good c s) : (callStep r k).Good c s := by
  unfold callStep
  split
  · exact h _ _ rfl
  · trivial

theorem retryStep_good {c : Ctx} {s : State} {n : Nat} {t : RingTask Frame} {more : RingTask Frame → Task}
    {done : Bool → State → TaskOutcome} (h : s.Ready) (hc : c = s.agent)
    (ht : ∀ k, s.chans[n]? = some k → t.Fits (Frame.wf s.cfg) c k.retry)
    (hm : ∀ u s', s.Keeps s' → u.isPush = t.isPush →
      (∀ k, s'.chans[n]? = some k → u.Fits (Frame.wf s'.cfg) c k.retry) → (more u).Fits c s')
    (hd : ∀ b s', s.Keeps s' → (∀ k', s'.chans[n]? = some k' →
      ∃ k, s.chans[n]? = some k ∧ k'.retry.roles = k.retry.roles) → (done b s').Good c s') : (retryStep n t s more done).Good c s := by
  subst hc
  refine withChan_good fun ch hch => ?_
  have hq := h.base.chans ch (List.mem_of_getElem? hch)
  have hk := h.stepRetry hch (ht ch hch)
  simp only
  have hget : ∀ k, (s.setChan n { ch with retry := (t.step ch.retry).1 }).chans[n]? = some k →
      k = { ch with retry := (t.step ch.retry).1 } := fun k hk => by
    simp only [State.setChan_chans, List.getElem?_set_self'] at hk
    rw [hch] at hk; simpa using hk.symm
  split
  · rename_i u hu
    have hn := RingTask.Fits.next hq (ht ch hch) hu
    exact ⟨hk, hm u _ hk hn.2 fun k hk' => by rw [hget k hk']; exact hn.1⟩
  · rename_i b hb
    refine .trans hk (hd b _ hk fun k' h2 => ⟨ch, hch, ?_⟩)
    rw [hget k' h2]; exact congrArg RingConfig.roles (t.step_shape ch.retry)

/-- A Frame operand denotes a Frame that can exist. -/
theorem State.Base.frameOf {s : State} (h : s.Base) {r : FrameRef} {f : Frame}
    (hf : s.frameOf r = some f) : f.wf s.cfg = true := by
  cases r with
  | given g => cases hf; exact givenFrame_wf _ _
  | held n => exact h.frames f (List.mem_of_getElem? hf)

/-- A container operand denotes a value whose Frame can exist. -/
theorem State.Base.valueOf {s : State} (h : s.Base) {r : ValueRef} {v : Value}
    (hv : s.valueOf r = some v) : v.wf s.cfg = true := by
  cases r with
  | bytes l => cases hv; rfl
  | frame r =>
    simp only [State.valueOf] at hv
    split at hv
    · exact nomatch hv
    · cases hv; exact h.frameOf ‹_›

end Sys2Proof.Machine
end

