-- ==== Sys2Proof/Laws/Registers.lean ====
section
/-! SUPPORT. The bits of the register words (`10_state.md` R33 to R37), one lemma per word, and of a word whose
ignored bits are replaced (`43_transceiver.md` R215). -/

namespace Sys2Proof.Machine

theorem getLsbD_append_ofBool {n : Nat} (a : BitVec n) (b : Bool) (i : Nat) :
    (a ++ BitVec.ofBool b).getLsbD i = if i < 1 then b else a.getLsbD (i - 1) := by
  rw [BitVec.getLsbD_append]
  split
  · obtain rfl : i = 0 := by omega
    simp
  · rfl

theorem getLsbD_append_ite {n m : Nat} (a : BitVec n) (b : BitVec m) (i : Nat) :
    (a ++ b).getLsbD i = if i < m then b.getLsbD i else a.getLsbD (i - m) := by
  rw [BitVec.getLsbD_append]

theorem XcCtrl.getLsbD_word (r : XcCtrl) (i : Nat) : r.word.getLsbD i =
    if i < 3 then r.lifecycle.code.getLsbD i else if i < 4 then r.ext else if i < 5 then r.txie
    else if i < 6 then r.rxie else if i < 7 then r.abor else if i < 8 then r.art else if i < 9 then r.lock
    else if i < 16 then false else if i < 24 then r.baud.getLsbD (i - 16) else false := by
  refine (getLsbD_append_ite _ _ i).trans ?_
  rw [getLsbD_append_ofBool, getLsbD_append_ofBool, getLsbD_append_ofBool, getLsbD_append_ofBool,
    getLsbD_append_ofBool, getLsbD_append_ofBool, getLsbD_append_ite, getLsbD_append_ite]
  have e : ∀ k m, (i - k < m) = (i < k + m ∧ 0 < m) := fun k m => by simp; omega
  simp only [Nat.sub_sub, BitVec.getLsbD_zero, e]
  simp

theorem XcStat.getLsbD_word (r : XcStat) (i : Nat) :
    r.word.getLsbD i = if i < 1 then r.fault else if i < 2 then r.txc else false := by
  refine (getLsbD_append_ofBool _ _ i).trans ?_
  rw [getLsbD_append_ofBool, BitVec.getLsbD_zero]
  have e : (i - 1 < 1) = (i < 2 ∧ 0 < 1) := by simp; omega
  simp only [e]
  simp

theorem XcBtr.getLsbD_word (r : XcBtr) (i : Nat) : r.word.getLsbD i =
    if i < 16 then r.prescaler.getLsbD i else if i < 24 then r.seg1.getLsbD (i - 16) else r.seg2.getLsbD (i - 24) := by
  refine (getLsbD_append_ite _ _ i).trans ?_
  rw [getLsbD_append_ite]
  have e : ∀ k m, (i - k < m) = (i < k + m ∧ 0 < m) := fun k m => by simp; omega
  simp only [Nat.sub_sub, e]
  simp

theorem XcFctrl.getLsbD_word (r : XcFctrl) (i : Nat) : r.word.getLsbD i =
    if i < 1 then r.acceptAll else if i < 8 then false else if i < 16 then r.banksUsed.getLsbD (i - 8)
    else if i < 24 then r.nbanks.getLsbD (i - 16) else false := by
  refine (getLsbD_append_ofBool _ _ i).trans ?_
  rw [getLsbD_append_ite, getLsbD_append_ite, getLsbD_append_ite]
  have e : ∀ k m, (i - k < m) = (i < k + m ∧ 0 < m) := fun k m => by simp; omega
  simp only [Nat.sub_sub, BitVec.getLsbD_zero, e]
  simp

theorem FSlot.getLsbD_word (r : FSlot) (i : Nat) : r.word.getLsbD i =
    if i < 29 then r.id.getLsbD i else if i < 30 then false else if i < 31 then r.ext
    else if i < 32 then r.valid else false := by
  refine (getLsbD_append_ite _ _ i).trans ?_
  rw [getLsbD_append_ite, getLsbD_append_ofBool]
  have e : ∀ k m, (i - k < m) = (i < k + m ∧ 0 < m) := fun k m => by simp; omega
  simp only [Nat.sub_sub, BitVec.getLsbD_zero, e]
  repeat' split
  all_goals first | rfl | omega | (simp_all; done) | (simp; omega)

/-- A replaced word has the bits of the mask from the word and the others from the draw. -/
theorem getLsbD_mixIgnored (mask w junk : Word) {i : Nat} (hi : i < 32) :
    (mixIgnored mask w junk).getLsbD i = if mask.getLsbD i then w.getLsbD i else junk.getLsbD i := by
  simp only [mixIgnored, BitVec.getLsbD_or, BitVec.getLsbD_and, BitVec.getLsbD_not, hi, decide_true, Bool.true_and]
  cases mask.getLsbD i <;> simp

/-- Two words with the same bits from `a` on have the same field there. -/
theorem extractLsb'_congr {w v : Word} {a n : Nat} (h : ∀ i < n, w.getLsbD (a + i) = v.getLsbD (a + i)) :
    w.extractLsb' a n = v.extractLsb' a n := by
  apply BitVec.eq_of_getLsbD_eq
  intro i hi
  simp only [BitVec.getLsbD_extractLsb', h i hi]

end Sys2Proof.Machine
end

