-- ==== Sys2Proof/Laws/Steps.lean ====
section
/-! SUPPORT. What one step of an operation keeps (`Task.step_good`), and what an operation that is one step keeps. -/

namespace Sys2Proof.Machine

theorem answer_keeps {α : Type} {s t : State} {r : Reply α} {f : α → OpResult} (h : answer r f = .next t)
    (hk : ∀ a u, r = .ok (a, u) → s.Keeps u ∧ ∀ g ∈ (f a).heldFrames, g.wf s.cfg = true) : s.Keeps t := by
  obtain ⟨a, u, hr, rfl⟩ := answer_eq_next h
  obtain ⟨h1, h2⟩ := hk a u hr
  exact h1.trans (h1.ready.returns fun g hg => by rw [h1.cfg]; exact h2 g hg)

/-- An operation that is one step keeps the invariant. -/
theorem exec_keeps_whole {i : Instr} {s t : State} (h : s.Ready)
    (hs : Task.begin i s = .ok (.whole i)) (he : exec i s = .next t) : s.Keeps t := by
  cases i
  case lvsPush => exact absurd hs (by simp only [Task.begin]; (repeat' split) <;> simp)
  case lvsPop => exact absurd hs (by simp only [Task.begin]; (repeat' split) <;> simp)
  case ringPush => exact absurd hs (by simp only [Task.begin]; (repeat' split) <;> simp)
  case ringPop => exact absurd hs (by simp only [Task.begin]; (repeat' split) <;> simp)
  case ringPeek => exact absurd hs (by simp only [Task.begin]; (repeat' split) <;> simp)
  case frameHex => exact absurd hs (by simp only [Task.begin]; (repeat' split) <;> simp)
  case lvsRead => exact absurd hs (by simp only [Task.begin]; (repeat' split) <;> simp)
  case ringRead => exact absurd hs (by simp only [Task.begin]; (repeat' split) <;> simp)
  case chanInit => exact nomatch hs
  case chanStart => exact nomatch hs
  case chanSend => exact absurd hs (by simp only [Task.begin]; split <;> simp)
  case chanTxDrain => exact nomatch hs
  case chanReceive => exact nomatch hs
  case frameNew id len d ext =>
    cases he
    exact h.returns fun f hf => by simp [OpResult.heldFrames] at hf; subst hf; exact newFrame_wf _ _ _ _ _
  case frameFromRx h0 h1 dl dh =>
    cases he
    exact h.returns fun f hf => by simp [OpResult.heldFrames] at hf; subst hf; exact fromRx_wf _ _ _
  case frameTxhdr f =>
    simp only [exec, execFrameTxhdr] at he
    split at he
    · exact nomatch he
    · cases he; exact h.returns fun f hf => by simp [OpResult.heldFrames] at hf
  case frameSetts f n =>
    simp only [exec, execFrameSetts] at he
    split at he
    · exact nomatch he
    · rename_i g hg
      have hw := h.base.frameOf hg
      unfold setTimestamp at he
      split at he
      · exact nomatch he
      · rename_i g' hg'
        split at hg'
        · exact nomatch hg'
        · cases hg'; cases he
          exact h.returns fun f hf => by
            simp [OpResult.heldFrames] at hf; subst hf; exact Frame.wf_stamp hw (timestampOf_lt _ _)
  case xcvrInit x b e =>
    exact answer_keeps he fun a u hu => ⟨h.onlyXcvr (.callXcvrInit hu), by simp [OpResult.heldFrames]⟩
  case xcvrStart x =>
    exact answer_keeps he fun a u hu => ⟨h.onlyXcvr (.callXcvrStart hu), by simp [OpResult.heldFrames]⟩
  case xcvrStop x =>
    exact answer_keeps he fun a u hu => ⟨h.onlyXcvr (.callXcvrStop hu), by simp [OpResult.heldFrames]⟩
  case xcvrFilterAll x =>
    exact answer_keeps he fun a u hu => ⟨h.onlyXcvr (.callXcvrFilterAll hu), by simp [OpResult.heldFrames]⟩
  case xcvrFilterList x ids e =>
    exact answer_keeps he fun a u hu => ⟨h.onlyXcvr (.callXcvrFilterList hu), by simp [OpResult.heldFrames]⟩
  case xcvrSend x f =>
    simp only [exec, execXcvrSend] at he
    split at he
    · exact nomatch he
    · exact answer_keeps he fun a u hu => ⟨h.onlyXcvr (.callXcvrSend h.base.config hu), by simp [OpResult.heldFrames]⟩
  case xcvrReceive x n =>
    simp only [exec, execXcvrReceive] at he
    exact answer_keeps he fun a u hu => ⟨h.onlyXcvr (.callXcvrReceive hu), fun g hg => by
      obtain ⟨st, o⟩ := a
      cases o <;> simp [OpResult.heldFrames] at hg
      subst hg; exact callXcvrReceive_frame_wf hu rfl⟩
  case xcvrTxieOn x =>
    simp only [exec, execXcvrTxieOn] at he
    exact answer_keeps he fun a u hu => ⟨h.onlyXcvr (.callXcvrTxie hu), by simp [OpResult.heldFrames]⟩
  case xcvrTxieOff x =>
    simp only [exec, execXcvrTxieOff] at he
    exact answer_keeps he fun a u hu => ⟨h.onlyXcvr (.callXcvrTxie hu), by simp [OpResult.heldFrames]⟩

theorem OnlyXcvr.fields {c : Config} {s t : State} (h : OnlyXcvr c s t) :
    t.cfg = s.cfg ∧ t.rings = s.rings ∧ t.chans = s.chans := by
  rw [h.rest]
  exact ⟨rfl, rfl, rfl⟩

/-- A value handed out adds only a Frame that can exist. -/
theorem Value.held_wf {c : Config} {v : Value} (h : v.wf c = true) :
    ∀ f ∈ (OpResult.value v).heldFrames, f.wf c = true := fun f hf => by
  cases v <;> simp [OpResult.heldFrames] at hf
  subst hf; exact h

/-- Everything one step of an operation part-way leaves in order, if a step that is a whole operation does. -/
theorem Task.step_good {c : Ctx} {t : Task} {s : State} (h : s.Ready) (hc : c = s.agent) (ht : t.Fits c s)
    (hw : ∀ i u, t = .whole i → exec i s = .next u → s.Keeps u) : (t.step s).Good c s := by
  cases t with
  | whole i =>
    simp only [Task.step]
    split
    · rename_i t ht'; exact hw i _ rfl ht'
    · trivial
    · rename_i f _; exact nomatch f
  | hex a l =>
    match l with
    | [] => exact endWith_good h (by simp [OpResult.heldFrames])
    | [b] =>
      have hk := h.setMem (Memory.write_wf h.base.memory a b)
      exact .trans hk (endWith_good hk.ready (by simp [OpResult.heldFrames]))
    | b :: _ :: _ => exact ⟨h.setMem (Memory.write_wf h.base.memory a b), trivial⟩
  | lvsTest l =>
    simp only [Task.step]
    split
    · trivial
    · exact testLine_good fun _ _ => ⟨h.refl, trivial⟩
  | lvsTake l =>
    simp only [Task.step]
    split
    · trivial
    · rename_i q hq
      exact testLine_good fun v hv => endWith_good h
        (Value.held_wf ((h.base.lvs q (List.mem_of_getElem? hq)).values _ v hv))
  | ringTest r =>
    simp only [Task.step]
    split
    · trivial
    · exact testLine_good fun _ _ => ⟨h.refl, trivial⟩
  | ringTake r =>
    simp only [Task.step]
    split
    · trivial
    · rename_i q hq
      exact testLine_good fun v hv => endWith_good h
        (Value.held_wf ((h.base.rings q (List.mem_of_getElem? hq)).staged v hv))
  | lvs l t =>
    simp only [Task.step]
    split
    · trivial
    · rename_i q hq
      have hg := LvsTask.step_ok s.cfg.lvsAtomicity (h.base.lvs q (List.mem_of_getElem? hq)) ht
      have hk := h.setLvs hq (t.step_roles _ q) hg.1
      split
      · rename_i u hu
        exact ⟨hk, hg.2.1 u hu⟩
      · rename_i r hr
        exact .trans hk (endWith_good hk.ready (by rw [hg.2.2 r hr]; simp))
  | ring r t =>
    simp only [Task.step]
    split
    · trivial
    · rename_i q hq
      subst hc
      have hk := h.stepRing hq (ht q hq)
      have hok := h.base.rings q (List.mem_of_getElem? hq)
      split
      · rename_i u hu
        refine ⟨hk, fun q' hq' => ?_⟩
        have := (RingTask.Fits.next hok (ht q hq) hu).1
        have : q' = (t.step q).1 := by
          simp only [State.setRing_rings, List.getElem?_set_self'] at hq'
          rw [hq] at hq'; simpa using hq'.symm
        subst this; assumption
      · exact .trans hk (endWith_good hk.ready (by simp [OpResult.heldFrames]))
  | initGate n baud ext filter =>
    exact withChan_good fun ch hch => gateStep_good h rfl ⟨h.refl, trivial⟩
  | initXcvr n baud ext filter =>
    refine withChan_good fun ch hch => callStep_good fun st s' hs => ⟨h.onlyXcvr (.callXcvrInit hs), ?_⟩
    split <;> trivial
  | initFilter n filter =>
    refine withChan_good fun ch hch => callStep_good fun st s' hs => ⟨h.onlyXcvr (.callFilter hs), ?_⟩
    split <;> trivial
  | startGate n => exact withChan_good fun ch hch => gateStep_good h rfl ⟨h.refl, trivial⟩
  | startXcvr n =>
    refine withChan_good fun ch hch => callStep_good fun st s' hs => ⟨h.onlyXcvr (.callXcvrStart hs), ?_⟩
    split <;> trivial
  | setChState n st res =>
    refine withChan_good fun ch hch => ?_
    have hk := h.setChan_same (v := { ch with state := st }) hch rfl rfl rfl
    exact .trans hk (endWith_good hk.ready (by simp [OpResult.heldFrames]))
  | sendGate n f =>
    refine withChan_good fun ch hch => gateStep_good h rfl ?_
    split
    · rename_i ha
      exact ⟨h.refl, ht, fun q hq => by rw [hch] at hq; cases hq; rw [hc]; exact ha⟩
    · trivial
  | sendXcvr n f =>
    refine withChan_good fun ch hch => callStep_good fun st s' hs => ?_
    have ho := OnlyXcvr.callXcvrSend h.base.config hs
    have hk := h.onlyXcvr ho
    split
    · exact .trans hk (endWith_good hk.ready (by simp [OpResult.heldFrames]))
    · obtain ⟨e1, e2, e3⟩ := ho.fields
      refine ⟨hk, rfl, fun q hq => ⟨?_, trivial, fun v hv => ?_⟩⟩
      · rw [e3] at hq; exact ht.2 q hq
      · cases hv; rw [e1]; exact ht.1
  | sendPush n t =>
    refine retryStep_good h hc ht.2 (fun u s' hk hp hu => ⟨hp.trans ht.1, hu⟩) fun b s' hk _ => ⟨hk.ready.refl, trivial⟩
  | sendTxie n full =>
    refine withChan_good fun ch hch => callStep_good fun st s' hs => ?_
    have hk := h.onlyXcvr (OnlyXcvr.callXcvrTxie hs)
    split
    · exact ⟨hk, trivial⟩
    · exact .trans hk (endWith_good hk.ready (by simp [OpResult.heldFrames]))
  | sendDrop n =>
    refine withChan_good fun ch hch => ?_
    have hk := h.setChan_same (v := { ch with dropCount := ch.dropCount + 1 }) hch rfl rfl rfl
    exact .trans hk (endWith_good hk.ready (by simp [OpResult.heldFrames]))
  | drainGate n =>
    refine withChan_good fun ch hch => gateStep_good h rfl ?_
    split
    · rename_i ha
      refine ⟨h.refl, rfl, fun q hq => ⟨?_, trivial, fun v hv => nomatch hv⟩⟩
      rw [hch] at hq; cases hq; rw [hc]; exact ha
    · trivial
  | drainPeek n t =>
    refine retryStep_good h hc ht.2 (fun u s' hk hp hu => ⟨hp.trans ht.1, hu⟩) fun b s' hk hr => ?_
    refine ⟨hk.ready.refl, ?_⟩
    split
    · intro q hq
      obtain ⟨k, hch, hr'⟩ := hr q hq
      have := (ht.2 k hch).agent
      simp only [RingTask.agent, ht.1] at this
      rw [hr']; exact this
    · trivial
  | drainRead n => exact withChan_good fun ch hch => testLine_good fun _ _ => ⟨h.refl, fun q hq => ht q hq⟩
  | drainTake n =>
    exact withChan_good fun ch hch => testLine_good fun f hf =>
      ⟨h.refl, (h.base.chans ch (List.mem_of_getElem? hch)).staged f hf, fun q hq => ht q hq⟩
  | drainXcvr n f =>
    refine withChan_good fun ch hch => callStep_good fun st s' hs => ?_
    have ho := OnlyXcvr.callXcvrSend h.base.config hs
    obtain ⟨e1, e2, e3⟩ := ho.fields
    refine ⟨h.onlyXcvr ho, ?_⟩
    split
    · refine ⟨rfl, fun q hq => ⟨?_, trivial, fun v hv => nomatch hv⟩⟩
      rw [e3] at hq; exact ht.2 q hq
    · trivial
  | drainPop n t =>
    refine retryStep_good h hc ht.2 (fun u s' hk hp hu => ⟨hp.trans ht.1, hu⟩) fun b s' hk _ => ⟨hk.ready.refl, trivial⟩
  | drainTest n =>
    refine withChan_good fun ch hch => ?_
    split
    · exact ⟨h.refl, trivial⟩
    · exact endWith_good h (by simp [OpResult.heldFrames])
  | drainTxie n =>
    refine withChan_good fun ch hch => callStep_good fun st s' hs => ?_
    have hk := h.onlyXcvr (OnlyXcvr.callXcvrTxie hs)
    exact .trans hk (endWith_good hk.ready (by simp [OpResult.heldFrames]))
  | recvGate n => exact withChan_good fun ch hch => gateStep_good h rfl ⟨h.refl, trivial⟩
  | recvXcvr n =>
    refine withChan_good fun ch hch => callStep_good fun r s' hs => ?_
    have hk := h.onlyXcvr (OnlyXcvr.callXcvrReceive hs)
    refine .trans hk (endWith_good hk.ready fun g hg => ?_)
    obtain ⟨st, o⟩ := r
    cases o <;> simp [OpResult.heldFrames] at hg
    subst hg; rw [hk.cfg]; exact callXcvrReceive_frame_wf hs rfl

end Sys2Proof.Machine
end

