-- ==== Sys2Proof/Tests/Slice0.lean ====
section
/-! SUPPORT. Tests: ill-formed terms that the checks refuse, words written out from the encodings, one step on a small
state with the results `95_test_vectors.md` gives, and for each obligation with hypotheses a witness that meets them. -/

namespace Sys2Proof.Tests

open Sys2Proof Sys2Proof.Machine

/-! ### Helpers -/

/-- The state an outcome ends in; the reset state for a refusal. -/
def stateOf : Host.Outcome State Fault Refusal → State
  | .next s => s
  | .refused _ => State.reset
  | .fault f => nomatch f

/-- The reason an outcome is refused for. -/
def refusalOf : Host.Outcome State Fault Refusal → Option Refusal
  | .next _ => none
  | .refused r => some r
  | .fault f => nomatch f

/-- The state an operation leaves, and the result its agent received. -/
def after (i : Instr) (s : State) : State := stateOf (exec i s)
def result (i : Instr) (s : State) : Option OpResult := ((after i s).ctx s.agent).result

/-- Eight bytes. -/
def bytes (a b c d e f g h : Byte) : Bytes8 := { b0 := a, b1 := b, b2 := c, b3 := d, b4 := e, b5 := f, b6 := g, b7 := h }

/-- A standard and an extended Frame of the test vectors. -/
def std123 : Frame :=
  { id := 0x123, length := 3, data := bytes 0xDE 0xAD 0xBE 0 0 0 0 0, isExtended := false, timestamp := none }
def ext18 : Frame :=
  { id := 0x18FF50E5, length := 8, data := bytes 0xA0 0xA1 0xA2 0xA3 0xA4 0xA5 0xA6 0xA7, isExtended := true,
    timestamp := none }

/-- The reset state as seen by a context. -/
def as (c : Ctx) : State := State.reset.setAgent c

/-- The reset state of the Flexible family. -/
def flexible : State := State.resetWith { Config.sample with family := .flexible }

/-- A register file in a lifecycle state, with baud index 1 (`95_test_vectors.md` V-X1). -/
def file (l : Lifecycle) : Xcvr :=
  { Xcvr.reset FamilyParams.sample with
    ctrl := { lifecycle := l, ext := false, txie := false, rxie := l == .running, abor := true, art := true,
              lock := false, baud := 1 } }

/-- A register file with every slot pending. -/
def busy : Xcvr := { file .running with txpend := 7 }

/-- The reset state with one register file, its Channel in a state, and the draws true, true; `now` is 0x10. -/
def withFile (r : Xcvr) (k : ChState) : State :=
  { State.reset with
    xcvrs := [r]
    chans := State.reset.chans.map fun c => { c with state := k }
    draws := { hwOk := [true, true], now := [0x10], count := 0 } }

/-- The same, `hw_ok` drawn false first or second. -/
def failing (first : Bool) (r : Xcvr) (k : ChState) : State :=
  { withFile r k with draws := { hwOk := if first then [false] else [true, false], now := [], count := 0 } }

/-- A ring of four cells that holds `a` (`front, back = 0, 1`), and the same ring full (`0, 3`). -/
def ringOne : Machine.Ring Value := (Ring.reset 4 { producer := .main, consumer := .isr }).push (.bytes [1]) |>.2
def ringFull : Machine.Ring Value := ((ringOne.push (.bytes [2])).2.push (.bytes [3])).2
def withRing (q : Machine.Ring Value) (c : Ctx) : State := { as c with rings := [q] }

/-- A LatestValueSlot after one push. -/
def lvsOne : Lvs Value := (Lvs.reset { producer := .isr, consumer := .main }).push (.bytes [1])
def withLvs (q : Lvs Value) (c : Ctx) : State := { as c with lvs := [q] }

/-- A Channel of the running state with a retry ring, and the running state that has it. -/
def chanOf (q : Machine.Ring Frame) : Chan := { state := .running, xcvr := 0, fifo := 0, retry := q, dropCount := 0 }
def retryEmpty : Machine.Ring Frame := Ring.reset 4 { producer := .main, consumer := .isr }
def retryOne : Machine.Ring Frame := (retryEmpty.push std123).2
def retryFull : Machine.Ring Frame := ((retryOne.push ext18).2.push std123).2
def withRetry (q : Machine.Ring Frame) (r : Xcvr) (c : Ctx) : State :=
  { withFile r .running with agent := c, chans := [chanOf q] }

/-- An input taken next by a state. -/
def next (e : Event) (s : State) : State := { s with schedule := [e] }

/-! ### Well-formedness: one ill-formed term for each check -/

def withParams (p : FamilyParams) : Config := { Config.sample with classic := p }
def okP : FamilyParams := FamilyParams.sample
def okC : ChanConfig := { xcvr := 0, fifo := 0, retryN := 4, sender := .main }

theorem test_wf_sample : Config.sample.wf = true := by decide
theorem test_illformed_bankCount_0 : (withParams { okP with bankCount := 0 }).wf = false := by decide
theorem test_illformed_bankCount_256 : (withParams { okP with bankCount := 256 }).wf = false := by decide
theorem test_illformed_idsStandard : (withParams { okP with idsStandard := 0 }).wf = false := by decide
theorem test_illformed_idsExtended : (withParams { okP with idsExtended := 0 }).wf = false := by decide
theorem test_illformed_txSlots_0 : (withParams { okP with txSlots := 0 }).wf = false := by decide
theorem test_illformed_txSlots_33 : (withParams { okP with txSlots := 33 }).wf = false := by decide
theorem test_illformed_rxFifos : (withParams { okP with rxFifos := 0 }).wf = false := by decide
theorem test_illformed_rxFifoDepth : (withParams { okP with rxFifoDepth := 0 }).wf = false := by decide
theorem test_illformed_filterFifo : (withParams { okP with filterFifo := 2 }).wf = false := by decide
set_option maxRecDepth 4096 in
theorem test_illformed_baudCount :
    (withParams { okP with prescaler := List.replicate 257 none }).wf = false := by decide
theorem test_illformed_prescaler : (withParams { okP with prescaler := [some 65536] }).wf = false := by decide
theorem test_illformed_seg1 : (withParams { okP with seg1 := 256 }).wf = false := by decide
theorem test_illformed_seg2 : (withParams { okP with seg2 := 256 }).wf = false := by decide
theorem test_illformed_noRate : { Config.sample with rates := [] }.wf = false := by decide
theorem test_illformed_rateWithoutEntry :
    (withParams { okP with prescaler := [some 0, some 0, none, some 0] }).wf = false ∧
    { Config.sample with rates := [4] }.wf = false := by decide
theorem test_illformed_lvsRoles :
    { Config.sample with lvs := [{ producer := .isr, consumer := .isr }] }.wf = false := by decide
theorem test_illformed_ringRoles : { Config.sample with
    rings := [{ n := 4, roles := { producer := .main, consumer := .main } }] }.wf = false := by decide
theorem test_illformed_ringSize : { Config.sample with
    rings := [{ n := 1, roles := { producer := .main, consumer := .isr } }] }.wf = false := by decide
theorem test_illformed_chanXcvr : { Config.sample with chans := [{ okC with xcvr := 1 }] }.wf = false := by decide
theorem test_illformed_chanFifo : { Config.sample with chans := [{ okC with fifo := 2 }] }.wf = false := by decide
theorem test_illformed_retryN : { Config.sample with chans := [{ okC with retryN := 1 }] }.wf = false := by decide
theorem test_illformed_isrSender : { Config.sample with chans := [{ okC with sender := .isr }] }.wf = false := by decide
theorem test_illformed_sharedXcvr : { Config.sample with chans := [okC, okC] }.wf = false := by decide
theorem test_step_refuses_illformed_config :
    step (State.resetWith (withParams { okP with prescaler := [] })) = .refused .illFormedConfig := rfl

theorem test_illformed_stdId : Frame.wf Config.sample { std123 with id := 0x800 } = false := by decide
theorem test_illformed_extId : Frame.wf Config.sample { ext18 with id := 0x20000000 } = false := by decide
theorem test_illformed_length : Frame.wf Config.sample { ext18 with length := 9 } = false := by decide
theorem test_illformed_padding : Frame.wf Config.sample { ext18 with length := 7 } = false := by decide
theorem test_illformed_timestamp : Frame.wf Config.sample { std123 with timestamp := some (2 ^ 32) } = false := by
  decide

/-- Every operand check of an operation refuses a term: an instance or a rate that does not exist. -/
theorem test_illformed_operands :
    ([.lvsPush 1 (.bytes []), .lvsPop 1, .lvsRead 1, .ringPush 1 (.bytes []), .ringPop 1, .ringPeek 1,
      .ringRead 1] : List Instr).all (fun i => !i.wf Config.sample) = true ∧
    ([.xcvrInit 1 0 false, .xcvrInit 0 4 false, .xcvrStart 1, .xcvrStop 1, .xcvrFilterAll 1, .xcvrFilterList 1 [] false,
      .xcvrSend 1 (.given std123), .xcvrReceive 1 0, .xcvrTxieOn 1, .xcvrTxieOff 1, .chanInit 1 0 false .all,
      .chanInit 0 4 false .all, .chanStart 1, .chanSend 1 (.given std123), .chanTxDrain 1, .chanReceive 1] :
      List Instr).all (fun i => !i.wf Config.sample) = true := by decide
theorem test_fetch_refuses_missing_operand :
    step (next (.invoke .main 0x31 { Operands.zeros with inst := 1 }) State.reset) = .refused .noSuchOperand := rfl
theorem test_no_such_held_frame : exec (.frameTxhdr (.held 0)) State.reset = .refused .noSuchOperand := rfl
/-- A Frame given by fields that no Frame has is the one they construct (`40_frame.md` R131, R137: `0x800` masks to 0,
255 clamps to 8), and a time keeps its 32 low bits. -/
theorem test_given_frame_is_constructed :
    State.reset.frameOf (.given { ext18 with id := 0x800, isExtended := false, length := 255 }) =
      some { ext18 with id := 0, isExtended := false } ∧
    State.reset.frameOf (.given { std123 with data := ext18.data }) =
      some { std123 with data := bytes 0xA0 0xA1 0xA2 0 0 0 0 0 } ∧
    result (.frameSetts (.given std123) (2 ^ 32 + 5)) State.reset =
      some (.frame { std123 with timestamp := some 5 }) := by decide
/-- A supported rate that the record does not select runs (`43_transceiver.md` R203). -/
theorem test_init_at_unselected_rate :
    let s := withFile (Xcvr.reset okP) .uninitialized
    result (.xcvrInit 0 3 false) { s with cfg := { s.cfg with rates := [0] } } = some (.status .ok) := by decide

/-! ### Decoding: the codes of `30_encoding.md` R91, written bit by bit -/

theorem test_decode_frame :
    decodeTableWord 8 0b00000000 = some (.frameNew 0 0 Bytes8.zero false) ∧
    decodeTableWord 8 0b00000001 = some (.frameFromRx 0 0 0 0) ∧
    decodeTableWord 8 0b00000010 = some (.frameTxhdr (.given Frame.zero)) ∧
    decodeTableWord 8 0b00000011 = some (.frameHex (.given Frame.zero) { base := 0, size := 17 }) ∧
    decodeTableWord 8 0b00000100 = some (.frameSetts (.given Frame.zero) 0) ∧
    decodeTableWord 8 0b00000101 = none := by decide
theorem test_decode_lvs :
    decodeTableWord 8 0b00010000 = some (.lvsPush 0 (.bytes [])) ∧ decodeTableWord 8 0b00010001 = some (.lvsPop 0) ∧
    decodeTableWord 8 0b00010010 = some (.lvsRead 0) ∧ decodeTableWord 8 0b00010011 = none := by decide
theorem test_decode_ring :
    decodeTableWord 8 0b00100000 = some (.ringPush 0 (.bytes [])) ∧ decodeTableWord 8 0b00100001 = some (.ringPop 0) ∧
    decodeTableWord 8 0b00100010 = some (.ringPeek 0) ∧ decodeTableWord 8 0b00100011 = some (.ringRead 0) ∧
    decodeTableWord 8 0b00100100 = none := by decide
theorem test_decode_xcvr :
    decodeTableWord 8 0b00110000 = some (.xcvrInit 0 0 false) ∧ decodeTableWord 8 0b00110001 = some (.xcvrStart 0) ∧
    decodeTableWord 8 0b00110010 = some (.xcvrStop 0) ∧ decodeTableWord 8 0b00110011 = some (.xcvrFilterAll 0) ∧
    decodeTableWord 8 0b00110100 = some (.xcvrFilterList 0 [] false) ∧
    decodeTableWord 8 0b00110101 = some (.xcvrSend 0 (.given Frame.zero)) ∧
    decodeTableWord 8 0b00110110 = some (.xcvrReceive 0 0) ∧ decodeTableWord 8 0b00110111 = some (.xcvrTxieOn 0) ∧
    decodeTableWord 8 0b00111000 = some (.xcvrTxieOff 0) ∧ decodeTableWord 8 0b00111001 = none := by decide
theorem test_decode_chan :
    decodeTableWord 8 0b01000000 = some (.chanInit 0 0 false .all) ∧
    decodeTableWord 8 0b01000001 = some (.chanStart 0) ∧
    decodeTableWord 8 0b01000010 = some (.chanSend 0 (.given Frame.zero)) ∧
    decodeTableWord 8 0b01000011 = some (.chanTxDrain 0) ∧ decodeTableWord 8 0b01000100 = some (.chanReceive 0) ∧
    decodeTableWord 8 0b01000101 = none ∧ decodeTableWord 8 0b11111111 = none := by decide
/-- The command a word stands for is the first to run after reset. -/
theorem test_withFetchWord_runs :
    step (State.reset.withFetchWord 8 0x11) = exec (.lvsPop 0) { State.reset with schedule := [] } ∧
    step (State.reset.withFetchWord 8 0x05) = .refused .unassignedCode := ⟨rfl, rfl⟩

/-! ### Frame (`95_test_vectors.md` V-F1, V-F2, P1) -/

theorem test_frameNew_masks_and_clamps :
    result (.frameNew 0x800 3 (bytes 0xDE 0xAD 0xBE 0xEF 1 2 3 4) false) State.reset =
      some (.frame { std123 with id := 0 }) ∧
    newFrame 0xFFFFFFFF 9 (bytes 0x0F 0xF0 0x5A 0xA5 0 0xFF 0x80 0x7F) true =
      { id := 0x1FFFFFFF, length := 8, data := bytes 0x0F 0xF0 0x5A 0xA5 0 0xFF 0x80 0x7F, isExtended := true,
        timestamp := none } := by decide
theorem test_frameFromRx_classic :
    result (.frameFromRx 0xFFE0000F 0xFFFFFFFF 0x04030201 0x08070605) State.reset =
      some (.frame { id := 0x1FFC0001, length := 8, data := bytes 1 2 3 4 5 6 7 8, isExtended := true,
                     timestamp := none }) := by decide
theorem test_frameFromRx_flexible :
    result (.frameFromRx 0x9FFFFFFF 0x00FF0000 0x04030201 0x08070605) flexible =
      some (.frame { id := 0x7FF, length := 8, data := bytes 1 2 3 4 5 6 7 8, isExtended := false,
                     timestamp := none }) := by decide
theorem test_frameTxhdr_classic :
    result (.frameTxhdr (.given ext18)) State.reset = some (.header 0xC7FA872C 8) ∧
    frameToElement .classic std123 = ⟨0x24600000, 0x00000003, 0x00BEADDE, 0⟩ := by decide
theorem test_frameTxhdr_flexible :
    result (.frameTxhdr (.given ext18)) flexible = some (.header 0x58FF50E5 0x00080000) ∧
    frameToElement .flexible std123 = ⟨0x048C0000, 0x00030000, 0x00BEADDE, 0⟩ := by decide
theorem test_frameHex_writes_pairs :
    (after (.frameHex (.given { ext18 with length := 2, data := bytes 0xAB 0xCD 0 0 0 0 0 0 }) ⟨100, 17⟩)
      { State.reset with mem := [(99, 0xEE), (100, 0xEE), (105, 0xEE)] }).mem =
      [(99, 0xEE), (100, 0x41), (101, 0x42), (102, 0x43), (103, 0x44), (104, 0x00), (105, 0xEE)] := by decide
theorem test_frameHex_refuses_short_buffer :
    refusalOf (exec (.frameHex (.given ext18) ⟨0, 16⟩) State.reset) = some .hexBufferTooSmall := by decide
theorem test_frameSetts_once :
    result (.frameSetts (.given std123) 0x1E240) State.reset =
      some (.frame { std123 with timestamp := some 0x1E240 }) ∧
    refusalOf (exec (.frameSetts (.given { std123 with timestamp := some 1 }) 2) State.reset) =
      some .timestampAlreadySet := by decide

/-! ### Containers (`95_test_vectors.md` S3, S5, V-L1, V-R1) -/

theorem test_lvsPush_indices :
    let q := (after (.lvsPush 0 (.bytes [1])) (as .isr)).lvs
    q = [lvsOne] ∧ (lvsOne.producing, lvsOne.transfer, lvsOne.consuming, lvsOne.stale) = (1, 0, 2, false) ∧
    refusalOf (exec (.lvsPush 0 (.bytes [1])) (as .main)) = some .spscViolation := by decide
theorem test_lvsPop_takes_the_transfer_cell :
    let q := lvsOne.pop.2
    result (.lvsPop 0) (withLvs lvsOne .main) = some (.bool true) ∧
    (q.producing, q.transfer, q.consuming, q.stale) = (1, 2, 0, true) := by decide
theorem test_lvsRead :
    result (.lvsRead 0) (withLvs lvsOne.pop.2 .main) = some (.value (.bytes [1])) ∧
    refusalOf (exec (.lvsRead 0) (as .main)) = some .readBeforePop := by decide
theorem test_ringPush_full_rejects :
    result (.ringPush 0 (.bytes [9])) (withRing ringFull .main) = some (.bool true) ∧
    (after (.ringPush 0 (.bytes [9])) (withRing ringFull .main)).rings = [ringFull] ∧
    result (.ringPush 0 (.bytes [2])) (withRing ringOne .main) = some (.bool false) := by decide
theorem test_ringPop_stages_the_oldest :
    let q := ringFull.pop.2
    result (.ringPop 0) (withRing ringFull .isr) = some (.bool true) ∧
    (q.front.val, q.back.val, q.staged) = (1, 3, some (.bytes [1])) := by decide
theorem test_ringPeek_keeps_front :
    (after (.ringPeek 0) (withRing ringOne .isr)).rings.map (fun q => (q.front.val, q.staged)) =
      [(0, some (.bytes [1]))] ∧
    result (.ringPeek 0) (as .isr) = some (.bool false) := by decide
theorem test_ringRead :
    result (.ringRead 0) (withRing ringFull.pop.2 .isr) = some (.value (.bytes [1])) ∧
    refusalOf (exec (.ringRead 0) (as .isr)) = some .readBeforeStage := by decide
/-- Between the two steps of a cell write the cell holds no value (`20_memory.md` R68); the contents are as before. -/
theorem test_cell_write_is_two_steps :
    let q := ((RingTask.pushOpen (.bytes [9]) 1 2 : RingTask Value).step ringOne).1
    (q.cells.toList, q.contents) = ([some (.bytes [1]), none, none, none], [some (.bytes [1])]) ∧
    ((RingTask.pushWrite (.bytes [9]) 1 2 : RingTask Value).step q).1.cells.toList =
      [some (.bytes [1]), some (.bytes [9]), none, none] := by decide
theorem test_ring_wraps :
    let q := ((ringFull.pop.2.pop.2.push (.bytes [4])).2.push (.bytes [5])).2
    (q.front.val, q.back.val) = (2, 1) ∧ q.cells.toList =
      [some (.bytes [5]), some (.bytes [2]), some (.bytes [3]), some (.bytes [4])] := by
  decide

/-! ### Transceiver (`95_test_vectors.md` V-X1 to V-X8) -/

/-- The register words of Transceiver 0 after an operation. -/
def words (i : Instr) (s : State) : List (Word × Word × Word) :=
  (after i s).xcvrs.map fun r => (r.ctrl.word, r.fctrl.word, r.txpend)

theorem test_xcvrInit :
    words (.xcvrInit 0 1 false) (withFile (Xcvr.reset okP) .uninitialized) = [(0x000100C1, 0x000E0000, 0)] ∧
    words (.xcvrInit 0 1 false) (failing true (Xcvr.reset okP) .uninitialized) = [(0x00000004, 0, 0)] := by decide
theorem test_xcvrStart :
    words (.xcvrStart 0) (withFile (file .filterConfigured) .filterConfigured) = [(0x000100E3, 0, 0)] ∧
    refusalOf (exec (.xcvrStart 0) (withFile (file .initialized) .uninitialized)) = some .startBeforeFilter := by decide
theorem test_xcvrStop_keeps_txie :
    words (.xcvrStop 0) (withFile { file .running with ctrl := { (file .running).ctrl with txie := true } } .running) =
      [(0x000100D2, 0, 0)] := by decide
theorem test_xcvrFilterAll :
    words (.xcvrFilterAll 0) (withFile (file .initialized) .uninitialized) = [(0x000100C2, 0x00000101, 0)] := by decide
theorem test_xcvrFilterList_masks_and_partitions :
    ((after (.xcvrFilterList 0 [0x18FF50E5, 0x3FFFFFFF, 0x1] true)
      (withFile (file .initialized) .uninitialized)).xcvrs.map fun r =>
        (r.fctrl.word, (r.fbank.take 2).map (·.map FSlot.word))) =
      [(0x00000200, [[0xD8FF50E5, 0xDFFFFFFF, 0, 0], [0xC0000001, 0, 0, 0]])] := by decide
theorem test_xcvrFilterList_above_capacity :
    words (.xcvrFilterList 0 (List.replicate 29 1) true) (withFile (file .initialized) .uninitialized) =
      [(0x000100C2, 0x00000101, 0)] := by decide
theorem test_xcvrSend_least_free_slot :
    ((after (.xcvrSend 0 (.given std123)) (withFile { file .running with txpend := 5 } .running)).xcvrs.map fun r =>
      (r.txpend, r.tx[1]?)) = [(7, some ⟨0x24600000, 0x00000003, 0x00BEADDE, 0⟩)] ∧
    result (.xcvrSend 0 (.given std123)) (withFile busy .running) = some (.status .error) := by decide
theorem test_xcvrReceive :
    let r := { file .running with rxfifo := [[⟨0xC7FA872C, 0x0000000C, 0xA3A2A1A0, 0xA7A6A5A4⟩], []] }
    result (.xcvrReceive 0 0) (withFile r .running) =
      some (.received .ok (some { ext18 with timestamp := some 0x10 })) ∧
    result (.xcvrReceive 0 1) (withFile r .running) = some (.received .empty none) ∧
    refusalOf (exec (.xcvrReceive 0 2) (withFile r .running)) = some .badFifoSelector := by decide
theorem test_xcvrTxieOn : words (.xcvrTxieOn 0) (withFile (file .running) .running) = [(0x000100F3, 0, 0)] := by decide
theorem test_xcvrTxieOff :
    words (.xcvrTxieOff 0) (after (.xcvrTxieOn 0) (withFile (file .running) .running)) = [(0x000100E3, 0, 0)] := by
  decide
theorem test_bus_txComplete :
    ((stateOf (step (next (.bus 0 (.txComplete 1))
      (withFile { busy with tx := [Element.zero, frameToElement .classic ext18, Element.zero] } .running)))).xcvrs.map
        fun r => (r.txpend, r.stat.word, r.wireTx)) =
      [(5, 2, [⟨0x18FF50E5, true, 8, [0xA0, 0xA1, 0xA2, 0xA3, 0xA4, 0xA5, 0xA6, 0xA7]⟩])] := by decide
/-- A fault is not cleared after `STOP` (`70_reset_and_hazards.md` R341). -/
theorem test_bus_faultClear_needs_running :
    let r := fun l => { file l with stat := { fault := true, txc := false } }
    ((stateOf (step (next (.bus 0 .faultClear) (withFile (r .running) .running)))).xcvrs.map (·.stat.word),
      (stateOf (step (next (.bus 0 .faultClear) (withFile (r .filterConfigured) .running)))).xcvrs.map (·.stat.word)) =
      ([0], [1]) := by decide
theorem test_bus_rxArrive :
    let r := { file .running with fctrl := { acceptAll := true, banksUsed := 1, nbanks := 14 } }
    ((stateOf (step (next (.bus 0 (.rxArrive ⟨0x18FF50E5, true, 12, [0xA0, 0xA1, 0xA2, 0xA3, 0xA4, 0xA5, 0xA6, 0xA7]⟩ 0 0))
      (withFile r .running)))).xcvrs.map (·.rxfifo)) =
      [[[⟨0xC7FA872C, 0x0000000C, 0xA3A2A1A0, 0xA7A6A5A4⟩], []]] := by decide

/-! ### Channel (`95_test_vectors.md` V-C1, V-C2, P4) -/

theorem test_chanInit_second_failure :
    words (.chanInit 0 0 false .all) (failing false (Xcvr.reset okP) .uninitialized) = [(0x000000C4, 0x000E0000, 0)] ∧
    (after (.chanInit 0 0 false .all) (failing false (Xcvr.reset okP) .uninitialized)).chans.map (·.state) =
      [.failed] := by decide
theorem test_chanStart :
    words (.chanStart 0) (withFile (file .filterConfigured) .filterConfigured) = [(0x000100E3, 0, 0)] := by decide
theorem test_chanSend_queues_then_full :
    let s := after (.chanSend 0 (.given std123)) (withRetry retryEmpty busy .main)
    (s.main.result, s.xcvrs.map (·.ctrl.word), s.chans.map (fun k => (k.retry.front.val, k.retry.back.val, k.dropCount))) =
      (some (.status .ok), [0x000100F3], [(0, 1, 0)]) ∧
    let t := after (.chanSend 0 (.given std123)) (withRetry retryFull busy .main)
    (t.main.result, t.chans.map (fun k => (k.retry.front.val, k.retry.back.val, k.dropCount))) =
      (some (.status .full), [(0, 3, 1)]) := by decide
theorem test_chanTxDrain_last_frame :
    let r := { file .running with ctrl := { (file .running).ctrl with txie := true } }
    let s := after (.chanTxDrain 0) (withRetry retryOne r .isr)
    (s.xcvrs.map (fun r => (r.ctrl.word, r.txpend)), s.chans.map (fun k => (k.retry.front.val, k.retry.back.val))) =
      ([(0x000100E3, 1)], [(1, 1)]) := by decide
theorem test_chanReceive_gate :
    refusalOf (exec (.chanReceive 0) (withFile (file .running) .filterConfigured)) = some .channelNotRunning ∧
    result (.chanReceive 0) (withFile (file .running) .running) = some (.received .empty none) := by decide
/-- The TX hook is entered on an asserted request and acknowledges it (`95_test_vectors.md` P4, steps 8 and 9). -/
theorem test_irqTx_entry :
    let r := { file .running with ctrl := { (file .running).ctrl with txie := true }, stat := { fault := false, txc := true } }
    let s := stateOf (step (next (.irqTx 0) (withFile r .running)))
    (s.hook, s.isr.task, s.xcvrs.map (·.stat.word)) = (some (.tx 0), some (.drainGate 0), [0]) := by decide

/-! ### Witnesses: a state and operands that meet the hypotheses of each obligation, every clause of it -/

/-- The code 0x05, and 0xFF, is no operation's; a context may present it whole or step by step. -/
theorem witness_UnassignedCodesRefused :
    (∀ i : Instr, (encode i).1 ≠ 0x05) ∧ (∀ i : Instr, (encode i).1 ≠ 0xFF) ∧
    (next (.invoke .main 0x05 Operands.zeros) State.reset).schedule = [.invoke .main 0x05 Operands.zeros] ∧
    (next (.start .isr 0xFF Operands.zeros) State.reset).schedule = [.start .isr 0xFF Operands.zeros] ∧
    State.reset.cfg.wf = true ∧ State.reset.mayBegin .main = true ∧ State.reset.mayBegin .isr = true :=
  ⟨fun i => by cases i <;> simp [encode], fun i => by cases i <;> simp [encode], rfl, rfl, rfl, rfl, rfl⟩
theorem witness_OperationRoundTrip : decode 0x44 { Operands.zeros with inst := 3 } = .ok (.chanReceive 3) := rfl
theorem witness_StepRunsDecodedOperation_config :
    (State.resetWith { Config.sample with rates := [4] }).cfg.wf = false ∧ Config.sample.wf = true ∧
    decode 0x11 { Operands.zeros with inst := 1 } = .ok (.lvsPop 1) ∧ (Instr.lvsPop 1).wf Config.sample = false := by
  decide
theorem witness_StepRunsDecodedOperation :
    let s := next (.invoke .isr 0x10 { Operands.zeros with value := .bytes [7] }) State.reset
    s.cfg.wf = true ∧ s.schedule = [.invoke .isr 0x10 { Operands.zeros with value := .bytes [7] }] ∧
    ({ s with schedule := [] } : State).mayBegin .isr = true ∧
    decode 0x10 { Operands.zeros with value := .bytes [7] } = .ok (.lvsPush 0 (.bytes [7])) ∧
    (Instr.lvsPush 0 (.bytes [7])).wf s.cfg = true := ⟨rfl, rfl, rfl, rfl, rfl⟩
theorem witness_StepwiseRunEqualsWholeOperation :
    (∃ t, exec (.chanSend 0 (.given std123)) (withRetry retryEmpty busy .main) = .next t) ∧
    exec (.lvsRead 0) (as .main) = .refused .readBeforePop := ⟨⟨_, rfl⟩, rfl⟩
theorem witness_FrameFromRxResult : State.reset.cfg.family = .classic ∧ flexible.cfg.family = .flexible := ⟨rfl, rfl⟩
/-- A Frame given by value and one held by a caller. -/
theorem witness_FrameTxhdrResult :
    State.reset.frameOf (.given std123) = some std123 ∧
    ({ flexible with frames := [ext18] } : State).frameOf (.held 0) = some ext18 := ⟨rfl, rfl⟩
/-- A buffer one byte too small, and the smallest that suffices. -/
theorem witness_FrameHexResult :
    State.reset.frameOf (.given ext18) = some ext18 ∧ 16 < 2 * ext18.length.toNat + 1 ∧
    2 * ext18.length.toNat + 1 ≤ 17 := by decide
theorem witness_FrameSettsResult :
    State.reset.frameOf (.given std123) = some std123 ∧ std123.timestamp = none ∧
    ({ std123 with timestamp := some 1 } : Frame).timestamp ≠ none := by decide
theorem witness_FrameOperationsFrame :
    (∃ t, exec (.frameHex (.given ext18) ⟨0, 17⟩) State.reset = .next t) ∧
    (encode (.frameHex (.given ext18) ⟨0, 17⟩)).1.toNat / 16 = 0 ∧
    State.reset.frameOf (.given ext18) = some ext18 := ⟨⟨_, rfl⟩, by decide, rfl⟩
theorem witness_FrameElementRoundTrip :
    ({ ext18 with id := 0x1FFFFFFF, timestamp := some 0 } : Frame).wf Config.sample = true ∧
    ({ std123 with id := 0x7FF } : Frame).wf Config.sample = true := by decide
/-- Two elements that differ in every ignored bit of a standard frame. -/
theorem witness_ReservedHeaderBits :
    let e : Element := ⟨0x24600000, 0x00000003, 0, 0⟩
    let e' : Element := ⟨0x247FFFFB, 0xFFFFFFF3, 0, 0⟩
    let g : Element := ⟨0x048C0000, 0x00030000, 0, 0⟩
    let g' : Element := ⟨0xA48FFFFF, 0xFFF3FFFF, 0, 0⟩
    (e.h0.getLsbD 2 = e'.h0.getLsbD 2 ∧
      (∀ j < 32, 21 ≤ j ∨ (3 ≤ j ∧ e.h0.getLsbD 2 = true) → e.h0.getLsbD j = e'.h0.getLsbD j) ∧
      ∀ j < 4, e.h1.getLsbD j = e'.h1.getLsbD j) ∧
    g.h0.getLsbD 30 = g'.h0.getLsbD 30 ∧
    (∀ j < 29, 18 ≤ j ∨ g.h0.getLsbD 30 = true → g.h0.getLsbD j = g'.h0.getLsbD j) ∧
    ∀ j < 32, 16 ≤ j → j < 20 → g.h1.getLsbD j = g'.h1.getLsbD j := by decide
theorem witness_ConstructedFramesAreBounded :
    ∃ t f, exec (.frameNew 0xFFFFFFFF 255 Bytes8.zero true) State.reset = .next t ∧
      (t.ctx State.reset.agent).result = some (.frame f) ∧ f.isExtended = true := ⟨_, _, rfl, rfl, rfl⟩

/-- The producer, and another agent. -/
theorem witness_LvsPushResult :
    (as .isr).lvs[0]? = some (Lvs.reset { producer := .isr, consumer := .main }) ∧
    (as .isr).valueOf (.frame (.given std123)) = some (.frame std123) ∧
    (as .isr).agent = .isr ∧ (as .main).agent ≠ .isr := by decide
/-- A stale and a fresh instance, and another agent. -/
theorem witness_LvsPopResult :
    (withLvs lvsOne.pop.2 .main).lvs[0]? = some lvsOne.pop.2 ∧ lvsOne.pop.2.stale = true ∧ lvsOne.stale = false ∧
    (withLvs lvsOne .main).agent = lvsOne.roles.consumer ∧ (withLvs lvsOne .isr).agent ≠ lvsOne.roles.consumer := by
  decide
/-- A written and an unwritten consuming cell. -/
theorem witness_ContainerReadResult_lvs :
    (withLvs lvsOne.pop.2 .main).agent = lvsOne.pop.2.roles.consumer ∧
    lvsOne.pop.2.cells.get lvsOne.pop.2.consuming = some (.bytes [1]) ∧
    lvsOne.cells.get lvsOne.consuming = none := by decide
theorem witness_LvsOperationsFrame :
    (∃ t, exec (.lvsPush 0 (.bytes [2])) (withLvs lvsOne .isr) = .next t) ∧
    (∃ t, exec (.lvsPop 0) (withLvs lvsOne .main) = .next t) ∧
    (∃ t, exec (.lvsRead 0) (withLvs lvsOne.pop.2 .main) = .next t) ∧ lvsOne.producing ≠ lvsOne.consuming :=
  ⟨⟨_, rfl⟩, ⟨_, rfl⟩, ⟨_, rfl⟩, by decide⟩
/-- An instance that holds a value not yet taken, after a first value was taken; its three indices differ. -/
theorem witness_SplitPushHazard :
    let q := (lvsOne.pop.2.push (.bytes [2]))
    q.producing ≠ q.transfer ∧ q.transfer ≠ q.consuming ∧ q.producing ≠ q.consuming ∧ q.stale = false ∧
    q.cells.get q.consuming = some (.bytes [1]) := by decide
theorem witness_LatestValueWins :
    lvsOne.producing ≠ lvsOne.transfer ∧ lvsOne.transfer ≠ lvsOne.consuming ∧ lvsOne.producing ≠ lvsOne.consuming := by
  decide

/-- A full ring, one with room, and another agent. -/
theorem witness_RingPushResult :
    (withRing ringFull .main).rings[0]? = some ringFull ∧ (as .main).valueOf (.bytes [1]) = some (.bytes [1]) ∧
    (withRing ringFull .main).agent = ringFull.roles.producer ∧
    ringFull.next ringFull.back = ringFull.front ∧ ringOne.next ringOne.back ≠ ringOne.front ∧
    (withRing ringFull .isr).agent ≠ ringFull.roles.producer := by decide
/-- An empty ring, and one with an element. -/
theorem witness_RingConsumerResult :
    (withRing ringOne .isr).rings[0]? = some ringOne ∧ (withRing ringOne .isr).agent = ringOne.roles.consumer ∧
    ringOne.front ≠ ringOne.back ∧ ringOne.cells[ringOne.front] = some (.bytes [1]) ∧
    (withRing ringOne.pop.2 .isr).rings[0]? = some ringOne.pop.2 ∧ ringOne.pop.2.front = ringOne.pop.2.back := by decide
theorem witness_ContainerReadResult_ring :
    ringOne.pop.2.staged = some (.bytes [1]) ∧ ringOne.staged = none ∧
    (withRing ringOne .isr).agent = ringOne.roles.consumer := by decide
theorem witness_RingOperationsFrame :
    (∃ t, exec (.ringPush 0 (.bytes [2])) (withRing ringOne .main) = .next t) ∧
    (∃ t, exec (.ringPop 0) (withRing ringOne .isr) = .next t) ∧
    (∃ t, exec (.ringPeek 0) (withRing ringOne .isr) = .next t) ∧
    (∃ t, exec (.ringRead 0) (withRing ringOne.pop.2 .isr) = .next t) := ⟨⟨_, rfl⟩, ⟨_, rfl⟩, ⟨_, rfl⟩, ⟨_, rfl⟩⟩
theorem witness_ForeignAgentRefused :
    (as .main).valueOf (.bytes [1]) = some (.bytes [1]) ∧ (as .main).frameOf (.given std123) = some std123 ∧
    (withLvs lvsOne .main).agent ≠ lvsOne.roles.producer ∧ (withLvs lvsOne .isr).agent ≠ lvsOne.roles.consumer ∧
    (withRing ringOne .isr).agent ≠ ringOne.roles.producer ∧ (withRing ringOne .main).agent ≠ ringOne.roles.consumer ∧
    (withRetry retryOne busy .isr).chans[0]? = some (chanOf retryOne) ∧
    (withRetry retryOne busy .isr).agent ≠ retryOne.roles.producer ∧
    (withRetry retryOne busy .main).agent ≠ retryOne.roles.consumer := by decide
/-- Well-formed rings: empty, with one element, and full (`RingContentsLaw`, `RingFifoOrder`). -/
theorem ringOne_ok : ringOne.Ok fun _ => true where
  size := by decide
  written := fun i hi => by
    have : i < 1 := hi
    obtain rfl : i = 0 := by omega
    rfl
  values := fun _ _ _ => rfl
  staged := fun _ _ => rfl
theorem ringFull_ok : ringFull.Ok fun _ => true where
  size := by decide
  written := by
    have h : ∀ i < 3, (ringFull.cellAt (ringFull.index (ringFull.front + i))).isSome = true := by decide
    exact fun i hi => h i hi
  values := fun _ _ _ => rfl
  staged := fun _ _ => rfl
theorem witness_RingContentsLaw :
    (Ring.reset 4 ringOne.roles : Machine.Ring Value).Ok (fun _ => true) ∧ ringOne.Ok (fun _ => true) ∧
    ringFull.Ok (fun _ => true) ∧ ringFull.count = ringFull.n - 1 ∧
    ringOne.count ≠ ringOne.n - 1 ∧ (Ring.reset 4 ringOne.roles : Machine.Ring Value).contents = [] ∧
    ringOne.contents = [some (.bytes [1])] := ⟨Ring.reset_ok 4 _ (by decide), ringOne_ok, ringFull_ok, by decide⟩
/-- Both agents part-way at once on a ring of one element: every step a producer and a consumer can stand at. -/
theorem witness_RingStepsRefineQueue :
    let q := ringOne.setCell ringOne.back (some (.bytes [2]))
    let p := q.stage q.front
    q.Ok (fun _ => true) ∧ p.Ok (fun _ => true) ∧
    (RingTask.pushBack (.bytes [2]) 0 : RingTask Value).Agrees q ∧ (RingTask.pushOpen (.bytes [2]) 1 2).Agrees q ∧
    (RingTask.pushWrite (.bytes [2]) 1 2).Agrees q ∧
    (RingTask.pushPublish 2 : RingTask Value).Agrees q ∧ (RingTask.popBack 0 : RingTask Value).Agrees q ∧
    (RingTask.popStage 0 : RingTask Value).Agrees q ∧ (RingTask.popPublish 0 : RingTask Value).Agrees p ∧
    (RingTask.peekStage 0 : RingTask Value).Agrees q ∧
    (RingTask.popStage 0 : RingTask Value).isPush ≠ (RingTask.pushPublish 2 : RingTask Value).isPush := by
  refine ⟨ringOne_ok.setCell fun _ _ => rfl, (ringOne_ok.setCell fun _ _ => rfl).stage _, ?_⟩
  simp only [RingTask.Agrees]
  decide

/-! #### Transceiver -/

/-- Every column of the gate table. -/
theorem witness_TransceiverGate :
    (∀ l ∈ [Lifecycle.uninit, .initialized, .filterConfigured, .running, .failed],
      (withFile (file l) .uninitialized).xcvrs[0]? = some (file l) ∧ (file l).ctrl.lifecycle = l) ∧
    State.reset.cfg.supports 3 = true ∧ State.reset.frameOf (.given std123) = some std123 := by decide
theorem witness_HardwareFailureOfConfiguration :
    (failing true (file .uninit) .uninitialized).draws.nextHwOk = false ∧
    (∀ l ∈ [Lifecycle.uninit, .initialized, .filterConfigured, .running],
      (failing true (file l) .uninitialized).xcvrs[0]? = some (file l)) ∧ State.reset.cfg.supports 0 = true := by decide
theorem witness_XcvrInitResult :
    (withFile (Xcvr.reset okP) .uninitialized).xcvrs[0]? = some (Xcvr.reset okP) ∧
    (Xcvr.reset okP).ctrl.lifecycle = .uninit ∧ State.reset.cfg.supports 3 = true ∧ State.reset.cfg.params.prescalerOf 3 = some 0 ∧
    (withFile (Xcvr.reset okP) .uninitialized).draws.nextHwOk = true := by decide
theorem witness_XcvrStartStopResult :
    (withFile (file .filterConfigured) .uninitialized).xcvrs[0]? = some (file .filterConfigured) ∧
    (file .filterConfigured).ctrl.lifecycle = .filterConfigured ∧ (file .running).ctrl.lifecycle = .running ∧
    (withFile (file .running) .running).draws.nextHwOk = true := by decide
/-- For `XcvrFilterAllResult`, `XcvrFilterListResult` and `FilterListAcceptsExactlyTheList`: lists at the capacity 56
and one above it. -/
theorem witness_XcvrFilterListResult :
    let s := withFile (file .initialized) .uninitialized
    s.cfg.wf = true ∧ s.xcvrs[0]? = some (file .initialized) ∧ (file .initialized).ctrl.lifecycle = .initialized ∧
    s.draws.nextHwOk = true ∧ 56 = s.cfg.params.bankCount * s.cfg.params.idsPerBank false ∧
    (List.replicate 56 (0 : Word)).length ≤ s.cfg.params.bankCount * s.cfg.params.idsPerBank false ∧
    (List.replicate 57 (0 : Word)).length > s.cfg.params.bankCount * s.cfg.params.idsPerBank false := by decide
theorem witness_FilterListAcceptsExactlyTheList :
    ∃ t r', exec (.xcvrFilterList 0 [0x100, 0x900] false) (withFile (file .initialized) .uninitialized) = .next t ∧
      t.xcvrs[0]? = some r' ∧ r'.accepts 0x100 false = true ∧ r'.accepts 0x100 true = false ∧
      r'.accepts 0x101 false = false := ⟨_, _, rfl, rfl, by decide⟩
/-- A fault, no free slot, and the last slot free alone. -/
theorem witness_XcvrSendResult :
    let r := { file .running with txpend := 3 }
    State.reset.cfg.wf = true ∧ (withFile r .running).xcvrs[0]? = some r ∧ r.ctrl.lifecycle = .running ∧
    ({ r with stat := { fault := true, txc := false } } : Xcvr).stat.fault = true ∧
    (∀ k < State.reset.cfg.params.txSlots, busy.pending k = true) ∧
    r.stat.fault = false ∧ 2 < State.reset.cfg.params.txSlots ∧ r.pending 2 = false ∧ ∀ j < 2, r.pending j = true := by
  decide
/-- A FIFO that does not exist, an empty one, one with an element; a fault; a failed Transceiver; and a Channel whose
FIFO is the empty one. -/
theorem witness_XcvrReceiveResult :
    let r := { file .running with rxfifo := [[], [Element.zero]] }
    (withFile r .running).xcvrs[0]? = some r ∧ r.ctrl.lifecycle = .running ∧ r.rxfifo.length ≤ 2 ∧
    r.rxfifo[0]? = some [] ∧ r.rxfifo[1]? = some [Element.zero] ∧ r.stat.fault = false ∧
    (withFile (file .failed) .running).xcvrs[0]? = some (file .failed) ∧ (file .failed).ctrl.lifecycle = .failed ∧
    (withRetry retryEmpty r .isr).xcvrs[0]? = some r ∧ (chanOf retryEmpty).state = .running ∧
    (withRetry retryEmpty r .isr).chans[0]? = some (chanOf retryEmpty) ∧ (chanOf retryEmpty).xcvr = 0 ∧
    (chanOf retryEmpty).fifo = 0 ∧
    ({ r with stat := { fault := true, txc := false } } : Xcvr).stat.fault = true := by decide
theorem witness_XcvrTxieResult :
    ∀ l ∈ [Lifecycle.initialized, .filterConfigured, .running],
      (withFile (file l) .running).xcvrs[0]? = some (file l) ∧ (file l).ctrl.lifecycle = l := by decide
theorem witness_TransceiverOperationsFrame :
    (∀ i ∈ [Instr.xcvrStop 0, .xcvrSend 0 (.given std123), .xcvrReceive 0 0, .xcvrTxieOn 0, .xcvrTxieOff 0],
      refusalOf (exec i (withFile (file .running) .running)) = none) ∧
    (∀ i ∈ [Instr.xcvrFilterAll 0, .xcvrFilterList 0 [1] true, .xcvrStart 0],
      refusalOf (exec i (withFile (file .filterConfigured) .running)) = none) ∧
    refusalOf (exec (.xcvrInit 0 0 true) (withFile (file .uninit) .running)) = none := by decide

/-! #### Channel -/

theorem witness_ChannelGate :
    (∀ k ∈ [ChState.uninitialized, .filterConfigured, .running, .failed],
      ((withFile (file .running) k).chans[0]?).map (·.state) = some k) ∧
    State.reset.frameOf (.given std123) = some std123 := by decide
/-- The three cases of the draws. -/
theorem witness_ChanInitResult :
    let s := withFile (Xcvr.reset okP) .uninitialized
    let k := Chan.reset okC
    s.chans[0]? = some k ∧ k.state = .uninitialized ∧ s.xcvrs[k.xcvr]? = some (Xcvr.reset okP) ∧
    (Xcvr.reset okP).ctrl.lifecycle = .uninit ∧ s.cfg.supports 3 = true ∧ s.cfg.params.prescalerOf 3 = some 0 ∧
    s.draws.nextHwOk = true ∧ s.draws.dropHwOk.nextHwOk = true ∧
    (failing true (Xcvr.reset okP) .uninitialized).draws.nextHwOk = false ∧
    (failing false (Xcvr.reset okP) .uninitialized).draws.nextHwOk = true ∧
    (failing false (Xcvr.reset okP) .uninitialized).draws.dropHwOk.nextHwOk = false := by decide
theorem witness_ChanStartResult :
    let s := withFile (file .filterConfigured) .filterConfigured
    let k := { Chan.reset okC with state := .filterConfigured }
    s.chans[0]? = some k ∧ s.xcvrs[k.xcvr]? = some (file .filterConfigured) ∧
    (file .filterConfigured).ctrl.lifecycle = .filterConfigured ∧ s.draws.nextHwOk = true ∧
    (failing true (file .filterConfigured) .filterConfigured).draws.nextHwOk = false := by decide
/-- Another agent; a free slot; none and room in the ring; none and the ring full; a failed Transceiver. -/
theorem witness_ChanSendResult :
    let s := withRetry retryFull busy .main
    s.chans[0]? = some (chanOf retryFull) ∧ (chanOf retryFull).state = .running ∧ s.xcvrs[0]? = some busy ∧
    busy.ctrl.lifecycle = .running ∧ (file .failed).ctrl.lifecycle = .failed ∧
    s.agent = retryFull.roles.producer ∧ (withRetry retryFull busy .isr).agent ≠ retryFull.roles.producer ∧
    (file .running).stat.fault = false ∧ (file .running).pending 0 = false ∧
    (∀ n < State.reset.cfg.params.txSlots, busy.pending n = true) ∧
    retryOne.next retryOne.back ≠ retryOne.front ∧ retryFull.next retryFull.back = retryFull.front := by decide
/-- Another agent; an empty ring; an oldest frame with no free slot; the last frame, and one of several, with one; a
failed Transceiver. -/
theorem witness_ChanTxDrainResult :
    let s := withRetry retryOne (file .running) .isr
    s.chans[0]? = some (chanOf retryOne) ∧ s.xcvrs[0]? = some (file .running) ∧
    (file .running).ctrl.lifecycle = .running ∧ s.agent = retryOne.roles.consumer ∧
    (withRetry retryOne busy .main).agent ≠ retryOne.roles.consumer ∧ retryEmpty.front = retryEmpty.back ∧
    retryOne.front ≠ retryOne.back ∧ retryOne.cells[retryOne.front] = some std123 ∧
    (∀ n < State.reset.cfg.params.txSlots, busy.pending n = true) ∧ (file .running).stat.fault = false ∧
    (file .running).pending 0 = false ∧ retryOne.next retryOne.front = retryOne.back ∧
    (withRetry retryOne (file .failed) .isr).xcvrs[0]? = some (file .failed) ∧
    (file .failed).ctrl.lifecycle = .failed ∧
    retryFull.next retryFull.front ≠ retryFull.back := by decide
theorem witness_ChanReceiveResult :
    let s := withRetry retryEmpty (file .running) .isr
    s.chans[0]? = some (chanOf retryEmpty) ∧ (chanOf retryEmpty).state = .running := by decide
/-- For `ChannelOperationsFrame`, `ChannelHasNoBackwardTransition` and `StatusTable`: each operation answers. -/
theorem witness_ChannelOperationsFrame :
    refusalOf (exec (.chanInit 0 0 true (.list [1] false)) (withFile (Xcvr.reset okP) .uninitialized)) = none ∧
    refusalOf (exec (.chanStart 0) (withFile (file .filterConfigured) .filterConfigured)) = none ∧
    refusalOf (exec (.chanSend 0 (.given std123)) (withRetry retryOne busy .main)) = none ∧
    refusalOf (exec (.chanTxDrain 0) (withRetry retryOne (file .running) .isr)) = none ∧
    refusalOf (exec (.chanReceive 0) (withRetry retryOne (file .running) .isr)) = none := by decide

/-! #### Inputs -/

/-- A pending slot, one that is not, and no slot. -/
theorem witness_BusTransmitCompletes :
    let s := next (.bus 0 (.txComplete 2)) (withFile busy .running)
    s.cfg.wf = true ∧ s.schedule = [.bus 0 (.txComplete 2)] ∧ s.xcvrs[0]? = some busy ∧
    busy.tx[2]? = some Element.zero ∧ busy.tx[3]? = none ∧ busy.ctrl.lifecycle = .running ∧ busy.stat.fault = false ∧
    busy.pending 2 = true ∧ (file .running).pending 2 = false := by decide
/-- A frame that is accepted, one that is not, and a full FIFO; one that finds the Transceiver not running. -/
theorem witness_BusFrameArrives :
    let w : WireFrame := ⟨0x7FF, false, 15, [1, 2, 3, 4, 5, 6, 7, 8]⟩
    let r := { file .running with fctrl := { acceptAll := true, banksUsed := 1, nbanks := 14 } }
    let s := next (.bus 0 (.rxArrive w 0 0)) (withFile r .running)
    s.cfg.wf = true ∧ s.schedule = [.bus 0 (.rxArrive w 0 0)] ∧ s.xcvrs[0]? = some r ∧
    r.ctrl.lifecycle = .running ∧ r.stat.fault = false ∧ w.wf = true ∧
    r.rxfifo[s.cfg.params.filterFifo]? = some [] ∧ r.accepts w.id w.isExtended = true ∧
    0 < s.cfg.params.rxFifoDepth ∧ (file .running).accepts w.id w.isExtended = false ∧
    s.cfg.params.rxFifoDepth ≤ (List.replicate 3 Element.zero).length ∧
    (file .filterConfigured).ctrl.lifecycle ≠ .running ∧
    (file .filterConfigured).rxfifo[s.cfg.params.filterFifo]? = some [] := by decide
theorem witness_BusFaultAndLock :
    let r := { file .running with stat := { fault := true, txc := false } }
    (withFile r .running).cfg.wf = true ∧ (withFile r .running).xcvrs[0]? = some r ∧ r.stat.fault = true ∧
    r.ctrl.abor = true ∧ (file .running).ctrl.lifecycle = .running ∧ (file .running).stat.fault = false ∧
    (next (.bus 0 (.setLock true)) (withFile r .running)).schedule = [.bus 0 (.setLock true)] := by decide
/-- The request asserted under both kinds, and the hook free. -/
theorem witness_TxHookEntry :
    let r := { file .running with ctrl := { (file .running).ctrl with txie := true }, stat := { fault := false, txc := true } }
    let s := next (.irqTx 0) (withRetry retryOne r .main)
    s.cfg.wf = true ∧ s.schedule = [.irqTx 0] ∧ s.chans[0]? = some (chanOf retryOne) ∧ s.xcvrs[0]? = some r ∧
    r.ctrl.lifecycle = .running ∧ r.ctrl.txie = true ∧ r.stat.txc = true ∧ r.pending 0 = false ∧
    s.hook = none ∧ s.isr.task = none ∧ s.masked = false ∧ (file .running).ctrl.txie = false := by decide
/-- The receive request asserted; the end of `CHAN.RECEIVE` in the RX hook with `Ok`, and with `Empty`; an ISR step that is not the last, and the
end of `CHAN.TX_DRAIN` in the TX hook; the end of `app_dispatch`. -/
theorem witness_RxHookEntryAndHookEnds :
    let r := { file .running with rxfifo := [[Element.zero], []] }
    let s := next (.irqRx 0 0) (withRetry retryEmpty r .main)
    let t := fun e h w => { next e (withRetry retryEmpty r .main) with
      hook := some h, isr := { task := w, result := none } }
    let u := stateOf (step { next (.finish .isr) (withRetry retryEmpty (file .running) .main) with
      hook := some (.rx 0), isr := { task := some (.recvGate 0), result := none } })
    s.cfg.wf = true ∧ s.chans[0]? = some (chanOf retryEmpty) ∧ s.xcvrs[0]? = some r ∧
    r.rxfifo[0]? = some [Element.zero] ∧ r.ctrl.lifecycle = .running ∧ r.ctrl.rxie = true ∧ s.hook = none ∧
    s.isr.task = none ∧ s.masked = false ∧
    (stateOf (step (t (.finish .isr) (.rx 0) (some (.recvGate 0))))).hook =
      some (.dispatch 0 { Frame.zero with timestamp := some 0x10 }) ∧
    u.isr.task = none ∧ u.isr.result = some (.received .empty none) ∧ u.hook = none ∧
    (stateOf (step (t (.advance .isr) (.tx 0) (some (.drainGate 0))))).isr.task = some (.drainPeek 0 .peekFront) ∧
    (stateOf (step (t (.finish .isr) (.tx 0) (some (.drainGate 0))))).hook = none ∧
    (stateOf (step (t .hookReturn (.dispatch 0 Frame.zero) none))).hook = none := by decide
theorem witness_MainWaitsAndHooksDoNotNest :
    State.reset.cfg.wf = true ∧ ({ State.reset with hook := some (.tx 0) } : State).hook ≠ none ∧
    ({ State.reset with isr := { task := some (.drainGate 0), result := none } } : State).isr.task ≠ none ∧
    ({ State.reset with masked := true } : State).masked = true ∧ State.reset.hook = none := by decide
theorem witness_CriticalSectionRestores :
    let s := { State.reset with schedule := [.enterCritical, .leaveCritical], masked := true }
    s.cfg.wf = true ∧ s.hook = none ∧ s.isr.task = none ∧ s.main.task = none ∧
    s.schedule = [.enterCritical, .leaveCritical] := by decide
/-- Power-on in a state that is not the reset state. -/
theorem witness_ResetValues :
    (next .powerOn (withFile busy .failed)).cfg.wf = true ∧
    (next .powerOn (withFile busy .failed)).schedule = [.powerOn] := by decide
theorem witness_ResetMeetsInvariant : Config.sample.wf = true := by decide
/-- A state that is not the reset state: a Frame held, a ring with an element, a written byte, an input to come. -/
def started : State :=
  { next (.invoke .isr 0x10 Operands.zeros) State.reset with frames := [std123], rings := [ringOne], mem := [(5, 7)] }
/-- For `EveryStepKeepsInvariant`: the invariant holds in that state, and a step is taken from it. -/
theorem witness_EveryStepKeepsInvariant : started.Inv ∧ ∃ t, step started = .next t := by
  refine ⟨?_, _, rfl⟩
  exact
  { config := by decide
    lvsRoles := by decide
    lvs := fun q hq => by obtain rfl := List.mem_singleton.1 hq; exact Lvs.reset_ok _
    ringShapes := by decide
    rings := fun q hq => by
      obtain rfl := List.mem_singleton.1 hq
      exact { ringOne_ok with
        values := fun i v hv => by
          have h : ∀ i : Fin 4, (ringOne.cellAt i).all (Value.wf Config.sample) = true := by decide
          have := h i; rw [hv] at this; exact this
        staged := fun v hv => nomatch hv }
    xcvrCount := by decide
    xcvrs := fun r hr => by obtain rfl := List.mem_singleton.1 hr; exact Xcvr.reset_ok Config.sample
    chanShapes := by decide
    chanConsumers := by decide
    chans := fun k hk => by obtain rfl := List.mem_singleton.1 hk; exact Ring.reset_ok 4 _ (by decide)
    frames := by decide
    results := fun c r hr => by cases c <;> exact nomatch hr
    dispatched := fun c f hf => nomatch hf
    hookCalls := fun k hk => nomatch hk
    tasks := fun c t ht => by cases c <;> exact nomatch ht
    memory := by decide }
/-- For `FamilyFixedFailedAbsorbingWireLogGrows`. -/
theorem witness_FamilyFixedFailedAbsorbingWireLogGrows :
    (∃ t, step (next (.advance .main) (withFile (file .failed) .failed)) = .next t) ∧
    (∀ rest, (next (.advance .main) (withFile (file .failed) .failed)).schedule ≠ .powerOn :: rest) ∧
    (withFile (file .failed) .failed).xcvrs[0]? = some (file .failed) ∧
    (file .failed).ctrl.lifecycle = .failed := ⟨⟨_, rfl⟩, fun _ h => by simp [next] at h, rfl, rfl⟩

end Sys2Proof.Tests
end

section
/-! PROOFS. The fetch of a command that decodes, and what a well-formed configuration record guarantees
(`00_scope.md` R8, `42_bounded_ring.md` R187, D51). -/

namespace Sys2Proof

theorem Config.wf_iff {c : Config} : c.wf = true ↔ c.params.wf = true ∧ c.ratesOk = true ∧
    (∀ r ∈ c.lvs, r.wf = true) ∧ (∀ r ∈ c.rings, r.wf = true) ∧ (∀ k ∈ c.chans, k.wf c = true) ∧
    (c.chans.map (·.xcvr)).Nodup := by
  simp only [Config.wf, Bool.and_eq_true, List.all_eq_true, decide_eq_true_eq]

theorem Config.ratesOk_iff {c : Config} :
    c.ratesOk = true ↔ c.rates ≠ [] ∧ ∀ b ∈ c.rates, c.params.prescalerOf b ≠ none := by
  simp [Config.ratesOk, Config.supports, ← Option.ne_none_iff_isSome]

theorem Roles.wf_iff {r : Roles} : r.wf = true ↔ r.producer ≠ r.consumer := decide_eq_true_iff

theorem RingConfig.wf_iff {r : RingConfig} : r.wf = true ↔ 2 ≤ r.n ∧ r.roles.producer ≠ r.roles.consumer := by
  simp only [RingConfig.wf, Bool.and_eq_true, decide_eq_true_eq, Roles.wf_iff]

/-- The TX hook drains from the ISR context, so a Channel that is well formed is filled by main. -/
theorem ChanConfig.wf_iff {c : Config} {k : ChanConfig} :
    k.wf c = true ↔ k.xcvr < c.xcvrs ∧ k.fifo < c.params.rxFifos ∧ 2 ≤ k.retryN ∧ k.sender = .main := by
  have hs : k.retryRoles.producer ≠ k.retryRoles.consumer ↔ k.sender = .main := by
    simp only [ChanConfig.retryRoles]
    cases k.sender <;> simp
  simp only [ChanConfig.wf, Bool.and_eq_true, decide_eq_true_eq, Roles.wf_iff, hs]

namespace Machine

/-- A ring of a well-formed configuration has the `N` cells it asks for. -/
theorem Ring.reset_n {α : Type} {n : Nat} (h : 2 ≤ n) (roles : Roles) : (Ring.reset (α := α) n roles).n = n :=
  Nat.sub_add_cancel (by omega)

theorem step_of_not_wf {s : State} (h : s.cfg.wf = false) : step s = .refused .illFormedConfig := by
  simp [step, h]

theorem wf_of_step {s t : State} (h : step s = .next t) : s.cfg.wf = true := by
  by_contra hw
  rw [step_of_not_wf (Bool.eq_false_iff.2 hw)] at h
  exact nomatch h

theorem step_of_nil {s : State} (hw : s.cfg.wf = true) (hs : s.schedule = []) : step s = .next s := by
  simp [step, hw, runNext, hs]

/-- A step takes the next input of the schedule. -/
theorem step_of_cons {s : State} {e : Event} {rest : List Event} (hw : s.cfg.wf = true) (hs : s.schedule = e :: rest) :
    step s = runEvent e { s with schedule := rest } := by
  simp [step, hw, runNext, hs]

section
variable {code : Byte} {o : Operands} {i : Instr} {s : State} {c : Ctx}

theorem fetch_of_wf (hd : decode code o = .ok i) (hi : i.wf s.cfg = true) : fetch code o s = .ok i := by
  simp [fetch, decodeBytes, hd, hi]

theorem fetch_of_not_wf (hd : decode code o = .ok i) (hi : i.wf s.cfg = false) :
    fetch code o s = .error .noSuchOperand := by
  simp [fetch, decodeBytes, hd, hi]

theorem runInvoke_of_fetch (hb : s.mayBegin c = true) (hf : fetch code o s = .ok i) :
    runInvoke c code o s = exec i (s.setAgent c) := by
  simp [runInvoke, hb, hf]

theorem runInvoke_of_fetch_error {e : Refusal} (hb : s.mayBegin c = true) (hf : fetch code o s = .error e) :
    runInvoke c code o s = .refused e := by
  simp [runInvoke, hb, hf]

end

/-- Settles O4: a step is its input's, the input's fetch is the decoder and the operand check; the clauses on the
configuration are the parts of `Config.wf`. -/
theorem stepRunsDecodedOperation : Obligations.StepRunsDecodedOperation := by
  refine ⟨fun s c code o rest i hw hs hb hd => ?_, fun s => step_of_not_wf, fun c hw => ?_⟩
  · rw [step_of_cons hw hs]
    exact ⟨fun hi => runInvoke_of_fetch hb (fetch_of_wf hd hi),
      fun hi => runInvoke_of_fetch_error hb (fetch_of_not_wf hd hi)⟩
  · obtain ⟨-, hrates, hlvs, hrings, hchans, -⟩ := Config.wf_iff.1 hw
    obtain ⟨hsome, hentry⟩ := Config.ratesOk_iff.1 hrates
    refine ⟨hsome, hentry, fun r hr => Roles.wf_iff.1 (hlvs r hr), fun r hr => ?_, fun k hk => ?_⟩
    · exact (RingConfig.wf_iff.1 (hrings r hr)).symm
    · obtain ⟨-, -, hn, hmain⟩ := ChanConfig.wf_iff.1 (hchans k hk)
      exact ⟨hmain, rfl, Ring.reset_n hn _, hn⟩

end Machine
end Sys2Proof
end

section
/-! PROOFS. What every step keeps of the register files: a Transceiver that is `Failed` stays so (`43_transceiver.md`
R201, D21) and the wire log only grows (`10_state.md` R44, D50); and that the configuration is fixed
(`00_scope.md` R5). -/

namespace Sys2Proof.Machine

/-! ### A register file -/

/-- From `r` to `r'` a failed Transceiver stays `Failed` and the wire log is only appended to. -/
structure Xcvr.Persists (r r' : Xcvr) : Prop where
  failed : r.ctrl.lifecycle = .failed → r'.ctrl.lifecycle = .failed
  wire : r.wireTx <+: r'.wireTx

variable {c : Config} {r r' r'' : Xcvr}

theorem Xcvr.Persists.trans (h : r.Persists r') (g : r'.Persists r'') : r.Persists r'' :=
  ⟨fun hl => g.failed (h.failed hl), h.wire.trans g.wire⟩

/-- An effect that touches neither the lifecycle nor the wire log. -/
theorem Xcvr.Persists.of_eq (hl : r'.ctrl.lifecycle = r.ctrl.lifecycle) (hw : r'.wireTx = r.wireTx) : r.Persists r' :=
  ⟨hl.trans, hw ▸ List.prefix_rfl⟩

/-- An effect that leaves the wire log, on a Transceiver that is not `Failed`. -/
theorem Xcvr.Persists.of_not_failed (hl : r.ctrl.lifecycle ≠ .failed) (hw : r'.wireTx = r.wireTx) : r.Persists r' :=
  ⟨fun h => absurd h hl, hw ▸ List.prefix_rfl⟩

theorem Xcvr.Persists.refl (r : Xcvr) : r.Persists r := .of_eq rfl rfl

theorem Xcvr.filterBy_wireTx (p : FamilyParams) (ext : Bool) (ids : List Word) (r : Xcvr) :
    (r.filterBy p ext ids).wireTx = r.wireTx := by
  unfold Xcvr.filterBy
  split <;> rfl

theorem Xcvr.Persists.send (f : Frame) (r : Xcvr) : r.Persists (r.send c f).2 := by
  unfold Xcvr.send
  split
  · exact .refl r
  · split
    · exact .refl r
    · exact .of_eq rfl rfl

theorem Xcvr.Persists.arrive (w : WireFrame) (j0 j1 : Word) (r : Xcvr) : r.Persists (r.arrive c w j0 j1) := by
  unfold Xcvr.arrive
  split
  · split
    · exact .refl r
    · split
      · exact .of_eq rfl rfl
      · split; exact .refl r
  · exact .refl r

theorem Xcvr.Persists.acknowledgeTx (r : Xcvr) : r.Persists (r.acknowledgeTx c) := by
  unfold Xcvr.acknowledgeTx
  split
  · exact .of_eq rfl rfl
  · exact .refl r

/-- A step of the bus agent: only a completion writes the wire log, and it appends (`43_transceiver.md` R214). -/
theorem Xcvr.Persists.busStep {b : BusStep} (hb : busStep c b r = some r') : r.Persists r' := by
  cases b <;> simp only [Machine.busStep] at hb
  case setLock => cases hb; exact .of_eq rfl rfl
  all_goals split at hb
  case txComplete.isTrue =>
    split at hb
    · exact nomatch hb
    · cases hb; exact ⟨id, List.prefix_append _ _⟩
  case rxArrive.isTrue => cases hb; exact .arrive _ _ _ r
  case faultSet.isTrue => cases hb; exact .of_eq rfl rfl
  case faultClear.isTrue => cases hb; exact .of_eq rfl rfl
  all_goals exact nomatch hb

/-- The column `Failed` of the gate table (`43_transceiver.md` R201): no operation runs. -/
theorem xcvrGate_failed (op : XcvrOp) : xcvrGate op .failed = .failed := by cases op <;> rfl

theorem not_failed_of_xcvrGate_run {op : XcvrOp} {l : Lifecycle} (h : xcvrGate op l = .run) : l ≠ .failed := by
  rintro rfl
  rw [xcvrGate_failed] at h
  exact nomatch h

/-! ### The state -/

/-- From `s` to `t` the configuration stays and every register file persists. -/
structure State.Persists (s t : State) : Prop where
  cfg : t.cfg = s.cfg
  xcvrs : ∀ (x : Nat) (r : Xcvr), s.xcvrs[x]? = some r → ∃ r' : Xcvr, t.xcvrs[x]? = some r' ∧ r.Persists r'

variable {s t u : State} {x : Nat}

theorem State.Persists.trans (h : s.Persists t) (g : t.Persists u) : s.Persists u where
  cfg := g.cfg.trans h.cfg
  xcvrs := fun x r hr => by
    obtain ⟨r', hr', h1⟩ := h.xcvrs x r hr
    obtain ⟨r'', hr'', h2⟩ := g.xcvrs x r' hr'
    exact ⟨r'', hr'', h1.trans h2⟩

/-- An update that leaves the configuration and the register files alone. -/
theorem State.Persists.of_eq (hc : t.cfg = s.cfg) (hx : t.xcvrs = s.xcvrs) : s.Persists t :=
  ⟨hc, fun _ r hr => ⟨r, hx ▸ hr, .refl r⟩⟩

theorem State.Persists.refl (s : State) : s.Persists s := .of_eq rfl rfl

theorem State.Persists.setXcvr (hr : s.xcvrs[x]? = some r) (h : r.Persists r') : s.Persists (s.setXcvr x r') where
  cfg := rfl
  xcvrs := fun y q hq => by
    by_cases hy : y = x
    · subst hy
      rw [hr] at hq; cases hq
      exact ⟨r', State.setXcvr_get hr, h⟩
    · exact ⟨q, by rw [State.setXcvr_get_other _ hy, hq], .refl q⟩

theorem State.Persists.setDraws_setXcvr (d : Draws) (hr : s.xcvrs[x]? = some r) (h : r.Persists r') :
    s.Persists ((s.setDraws d).setXcvr x r') :=
  State.Persists.trans (t := s.setDraws d) (.of_eq rfl rfl) (.setXcvr hr h)

theorem State.Persists.setLvs (h : s.Persists t) (l : Nat) (q : Lvs Value) : s.Persists (t.setLvs l q) :=
  h.trans (.of_eq rfl rfl)

theorem State.Persists.setRing (h : s.Persists t) (l : Nat) (q : Ring Value) : s.Persists (t.setRing l q) :=
  h.trans (.of_eq rfl rfl)

theorem State.Persists.setChan (h : s.Persists t) (l : Nat) (k : Chan) : s.Persists (t.setChan l k) :=
  h.trans (.of_eq rfl rfl)

theorem State.Persists.setMem (h : s.Persists t) (m : Memory) : s.Persists (t.setMem m) :=
  h.trans (.of_eq rfl rfl)

theorem State.Persists.setAgent (h : s.Persists t) (c : Ctx) : s.Persists (t.setAgent c) :=
  h.trans (.of_eq rfl rfl)

theorem State.Persists.setTask (h : s.Persists t) (c : Ctx) (q : Option Task) : s.Persists (t.setTask c q) :=
  h.trans (.of_eq (t.setTask_cfg c q) (t.setTask_xcvrs c q))

theorem State.Persists.enterHook (h : s.Persists t) (k : Hook) (q : Task) : s.Persists (t.enterHook k q) :=
  h.trans (.of_eq rfl rfl)

theorem State.Persists.continueHook (h : s.Persists t) : s.Persists t.continueHook :=
  h.trans (.of_eq t.continueHook_cfg t.continueHook_xcvrs)

theorem State.Persists.returns (h : s.Persists t) (o : OpResult) : s.Persists (t.returns o) :=
  h.trans (.of_eq (t.returns_cfg o) (t.returns_xcvrs o))

/-! ### What a call, an operation and a part of one end in -/

/-- The state a call leaves, if it is not refused. -/
def State.PersistsCall {α : Type} (s : State) : Reply α → Prop
  | .ok p => s.Persists p.2
  | .error _ => True

/-- The state an operation leaves, if it is not refused. -/
def State.PersistsRun (s : State) : Host.Outcome State Fault Refusal → Prop
  | .next t => s.Persists t
  | .fault _ => True
  | .refused _ => True

/-- The state some steps of an operation leave, if none is refused. -/
def State.PersistsTask (s : State) : TaskOutcome → Prop
  | .more _ t => s.Persists t
  | .done t => s.Persists t
  | .refused _ => True

theorem State.PersistsCall.of_ok {α : Type} {q : Reply α} (h : ∀ a t, q = .ok (a, t) → s.Persists t) :
    s.PersistsCall q := by
  match q with
  | .ok (a, t) => exact h a t rfl
  | .error _ => trivial

theorem State.PersistsCall.trans {α : Type} {q : Reply α} (h : s.Persists t) (hq : t.PersistsCall q) :
    s.PersistsCall q := by
  match q with
  | .ok _ => exact State.Persists.trans h hq
  | .error _ => trivial

theorem State.PersistsTask.trans {o : TaskOutcome} (h : s.Persists t) (ho : t.PersistsTask o) : s.PersistsTask o := by
  cases o with
  | more _ _ => exact State.Persists.trans h ho
  | done _ => exact State.Persists.trans h ho
  | refused _ => trivial

theorem State.PersistsCall.andThen {α β : Type} {q : Reply α} {k : α → State → Reply β} (h : s.PersistsCall q)
    (hk : ∀ a t, s.Persists t → s.PersistsCall (k a t)) : s.PersistsCall (q.andThen k) := by
  match q with
  | .ok (a, t) => exact hk a t h
  | .error _ => trivial

theorem State.PersistsRun.trans {o : Host.Outcome State Fault Refusal} (h : s.Persists t) (ho : t.PersistsRun o) :
    s.PersistsRun o := by
  cases o with
  | next _ => exact State.Persists.trans h ho
  | fault _ => trivial
  | refused _ => trivial

theorem State.PersistsCall.answer {α : Type} {q : Reply α} (h : s.PersistsCall q) (f : α → OpResult) :
    s.PersistsRun (answer q f) := by
  match q with
  | .ok (a, _) => exact State.Persists.returns h (f a)
  | .error _ => trivial

/-! ### The Transceiver calls -/

theorem configure_persists {op : XcvrOp} {effect : Xcvr → Xcvr} (he : ∀ r : Xcvr, (effect r).wireTx = r.wireTx) :
    s.PersistsCall (configure op x effect s) := .of_ok fun st t h => by
  obtain ⟨r, hr, ⟨-, -, rfl⟩ | ⟨hg, -, -, rfl⟩ | ⟨hg, -, -, rfl⟩⟩ := configure_cases h
  · exact .refl _
  · exact .setDraws_setXcvr _ hr (.of_not_failed (not_failed_of_xcvrGate_run hg) (he r))
  · exact .setDraws_setXcvr _ hr ⟨fun _ => rfl, List.prefix_rfl⟩

theorem callXcvrInit_persists (baud : Nat) (ext : Bool) : s.PersistsCall (callXcvrInit x baud ext s) := by
  unfold callXcvrInit
  split
  · trivial
  · exact configure_persists fun _ => rfl

theorem callXcvrStart_persists : s.PersistsCall (callXcvrStart x s) := configure_persists fun _ => rfl

theorem callXcvrStop_persists : s.PersistsCall (callXcvrStop x s) := configure_persists fun _ => rfl

theorem callFilter_persists (f : Filter) : s.PersistsCall (callFilter x f s) := by
  cases f with
  | all => exact configure_persists fun _ => rfl
  | list ids ext => exact configure_persists fun r => r.filterBy_wireTx _ ext ids

theorem callXcvrSend_persists (f : Frame) : s.PersistsCall (callXcvrSend x f s) := .of_ok fun st t h => by
  obtain ⟨r, hr, ⟨-, -, rfl⟩ | ⟨-, -, rfl⟩⟩ := callXcvrSend_cases h
  · exact .refl _
  · exact .setXcvr hr (.send f r)

theorem callXcvrReceive_persists (n : Nat) : s.PersistsCall (callXcvrReceive x n s) := .of_ok fun p t h => by
  obtain ⟨r, hr, ⟨-, -, rfl⟩ | ⟨-, q, -, ⟨-, -, rfl⟩ | ⟨-, -, -, rfl⟩ | ⟨-, e, l, -, -, rfl⟩⟩⟩ :=
    callXcvrReceive_cases h
  · exact .refl _
  · exact .refl _
  · exact .refl _
  · exact .setDraws_setXcvr _ hr (.of_eq rfl rfl)

theorem callXcvrTxie_persists (b : Bool) : s.PersistsCall (callXcvrTxie b x s) := .of_ok fun _ t h => by
  obtain ⟨r, hr, ⟨-, rfl⟩ | ⟨-, -, rfl⟩⟩ := callXcvrTxie_cases h
  · exact .refl _
  · exact .setXcvr hr (.of_eq rfl rfl)

/-! ### The Channel calls: compositions of the Transceiver calls and updates of the Channel -/

variable {n : Nat}

theorem callChanInit_persists (baud : Nat) (ext : Bool) (f : Filter) :
    s.PersistsCall (callChanInit n baud ext f s) := by
  unfold callChanInit
  split
  · trivial
  · split
    · trivial
    · exact State.Persists.refl s
    · refine (callXcvrInit_persists baud ext).andThen fun st t ht => ?_
      split
      · refine (State.PersistsCall.trans ht (callFilter_persists f)).andThen fun st u hu => ?_
        split <;> exact hu.setChan n _
      · exact ht.setChan n _

theorem callChanStart_persists : s.PersistsCall (callChanStart n s) := by
  unfold callChanStart
  split
  · trivial
  · split
    · trivial
    · exact State.Persists.refl s
    · refine callXcvrStart_persists.andThen fun st t ht => ?_
      split <;> exact ht.setChan n _

theorem queueForRetry_persists (k : Chan) (f : Frame) : s.PersistsCall (queueForRetry n k f s) := by
  unfold queueForRetry
  have hp := (State.Persists.refl s).setChan n { k with retry := (k.retry.push f).2 }
  refine (State.PersistsCall.trans hp (callXcvrTxie_persists true)).andThen fun _ t ht => ?_
  split
  · exact ht.setChan n _
  · exact ht

theorem callChanSend_persists (f : Frame) : s.PersistsCall (callChanSend n f s) := by
  unfold callChanSend
  split
  · trivial
  · split
    · trivial
    · exact State.Persists.refl s
    · split
      · refine (callXcvrSend_persists f).andThen fun st t ht => ?_
        split
        · exact ht
        · exact .trans ht (queueForRetry_persists _ f)
      · trivial

theorem quietWhenDrained_persists (k : Chan) : s.PersistsCall (quietWhenDrained k s) := by
  unfold quietWhenDrained
  split
  · exact callXcvrTxie_persists false
  · exact State.Persists.refl s

theorem callChanTxDrain_persists : s.PersistsCall (callChanTxDrain n s) := by
  unfold callChanTxDrain
  split
  · trivial
  · rename_i k _
    split
    · trivial
    · exact State.Persists.refl s
    · split
      · refine .trans ((State.Persists.refl s).setChan n { k with retry := k.retry.peek.2 }) ?_
        dsimp only
        split
        · split
          · trivial
          · refine (callXcvrSend_persists _).andThen fun st t ht => ?_
            split
            · exact .trans (ht.setChan n _) (quietWhenDrained_persists _)
            · exact .trans ht (quietWhenDrained_persists _)
        · exact quietWhenDrained_persists _
      · trivial

theorem callChanReceive_persists : s.PersistsCall (callChanReceive n s) := by
  unfold callChanReceive
  split
  · trivial
  · split
    · trivial
    · exact State.Persists.refl s
    · exact callXcvrReceive_persists _

/-! ### Whole operations -/

/-- Every operation whole: the Frame and the container operations reach no register file, the others are the calls
above. -/
theorem exec_persists (i : Instr) (s : State) : s.PersistsRun (exec i s) := by
  have same := State.Persists.refl s
  cases i with
  | frameNew id length d ext => exact same.returns _
  | frameFromRx h0 h1 dl dh => exact same.returns _
  | frameTxhdr f =>
    simp only [exec, execFrameTxhdr]
    split
    · trivial
    · exact same.returns _
  | frameHex f buf =>
    simp only [exec, execFrameHex]
    split
    · trivial
    · split
      · trivial
      · exact (same.setMem _).returns _
  | frameSetts f n =>
    simp only [exec, execFrameSetts]
    split
    · trivial
    · split
      · trivial
      · exact same.returns _
  | lvsPush l v =>
    simp only [exec, execLvsPush]
    split
    · split
      · exact (same.setLvs l _).returns _
      · trivial
    · trivial
  | lvsPop l =>
    simp only [exec, execLvsPop]
    split
    · trivial
    · split
      · exact (same.setLvs l _).returns _
      · trivial
  | lvsRead l =>
    simp only [exec, execLvsRead]
    split
    · trivial
    · split
      · split
        · trivial
        · exact same.returns _
      · trivial
  | ringPush r v =>
    simp only [exec, execRingPush]
    split
    · split
      · exact (same.setRing r _).returns _
      · trivial
    · trivial
  | ringPop r =>
    simp only [exec, execRingPop]
    split
    · trivial
    · split
      · exact (same.setRing r _).returns _
      · trivial
  | ringPeek r =>
    simp only [exec, execRingPeek]
    split
    · trivial
    · split
      · exact (same.setRing r _).returns _
      · trivial
  | ringRead r =>
    simp only [exec, execRingRead]
    split
    · trivial
    · split
      · split
        · trivial
        · exact same.returns _
      · trivial
  | xcvrInit x baud ext => exact (callXcvrInit_persists baud ext).answer _
  | xcvrStart x => exact callXcvrStart_persists.answer _
  | xcvrStop x => exact callXcvrStop_persists.answer _
  | xcvrFilterAll x => exact (callFilter_persists .all).answer _
  | xcvrFilterList x ids ext => exact (callFilter_persists (.list ids ext)).answer _
  | xcvrSend x f =>
    simp only [exec, execXcvrSend]
    split
    · trivial
    · exact (callXcvrSend_persists _).answer _
  | xcvrReceive x n =>
    simp only [exec, execXcvrReceive]
    exact (callXcvrReceive_persists n).answer _
  | xcvrTxieOn x =>
    simp only [exec, execXcvrTxieOn]
    exact (callXcvrTxie_persists true).answer _
  | xcvrTxieOff x =>
    simp only [exec, execXcvrTxieOff]
    exact (callXcvrTxie_persists false).answer _
  | chanInit n baud ext f => exact (callChanInit_persists baud ext f).answer _
  | chanStart n => exact callChanStart_persists.answer _
  | chanSend n f =>
    simp only [exec, execChanSend]
    split
    · trivial
    · exact (callChanSend_persists _).answer _
  | chanTxDrain n =>
    simp only [exec, execChanTxDrain]
    exact callChanTxDrain_persists.answer _
  | chanReceive n =>
    simp only [exec, execChanReceive]
    exact callChanReceive_persists.answer _

/-! ### Operations step by step -/

theorem endWith_persists (h : s.Persists t) (o : OpResult) : s.PersistsTask (endWith t o) := h.returns o

theorem withChan_persists {k : Chan → TaskOutcome} (hk : ∀ ch, s.PersistsTask (k ch)) :
    s.PersistsTask (withChan n s k) := by
  unfold withChan
  split
  · exact hk _
  · trivial

theorem testLine_persists {α : Type} {e : Option α} {q : Refusal} {k : α → TaskOutcome}
    (hk : ∀ v, s.PersistsTask (k v)) : s.PersistsTask (testLine e q k) := by
  cases e with
  | some v => exact hk v
  | none => trivial

theorem gateStep_persists {op : ChanOp} {failed : OpResult} {ch : Chan} {k : TaskOutcome} (hk : s.PersistsTask k) :
    s.PersistsTask (gateStep op failed s ch k) := by
  unfold gateStep
  split
  · trivial
  · exact endWith_persists (.refl s) failed
  · exact hk

theorem callStep_persists {α : Type} {q : Reply α} {k : α → State → TaskOutcome} (h : s.PersistsCall q)
    (hk : ∀ a t, s.Persists t → s.PersistsTask (k a t)) : s.PersistsTask (callStep q k) := by
  match q with
  | .ok (a, t) => exact hk a t h
  | .error _ => trivial

theorem retryStep_persists {q : RingTask Frame} {more : RingTask Frame → Task} {done : Bool → State → TaskOutcome}
    (hd : ∀ b t, s.Persists t → s.PersistsTask (done b t)) : s.PersistsTask (retryStep n q s more done) := by
  refine withChan_persists fun ch => ?_
  have hs := (State.Persists.refl s).setChan n { ch with retry := (q.step ch.retry).1 }
  simp only
  split
  · exact hs
  · exact hd _ _ hs

theorem Task.step_persists (q : Task) (s : State) : s.PersistsTask (q.step s) := by
  have same := State.Persists.refl s
  cases q with
  | whole i =>
    have h := exec_persists i s
    simp only [Task.step]
    split
    · rename_i hi; rw [hi] at h; exact h
    · trivial
    · rename_i f _; exact nomatch f
  | hex a l =>
    match l with
    | [] => exact endWith_persists same _
    | [b] => exact endWith_persists (same.setMem _) _
    | b :: _ :: _ => exact same.setMem _
  | lvsTest l =>
    simp only [Task.step]
    split
    · trivial
    · exact testLine_persists fun _ => same
  | lvsTake l =>
    simp only [Task.step]
    split
    · trivial
    · exact testLine_persists fun _ => endWith_persists same _
  | ringTest r =>
    simp only [Task.step]
    split
    · trivial
    · exact testLine_persists fun _ => same
  | ringTake r =>
    simp only [Task.step]
    split
    · trivial
    · exact testLine_persists fun _ => endWith_persists same _
  | lvs l t =>
    simp only [Task.step]
    split
    · trivial
    · split
      · exact same.setLvs l _
      · exact endWith_persists (same.setLvs l _) _
  | ring r t =>
    simp only [Task.step]
    split
    · trivial
    · split
      · exact same.setRing r _
      · exact endWith_persists (same.setRing r _) _
  | initGate n baud ext f => exact withChan_persists fun _ => gateStep_persists same
  | initXcvr n baud ext f =>
    exact withChan_persists fun _ => callStep_persists (callXcvrInit_persists baud ext) fun _ _ ht => ht
  | initFilter n f => exact withChan_persists fun _ => callStep_persists (callFilter_persists f) fun _ _ ht => ht
  | startGate n => exact withChan_persists fun _ => gateStep_persists same
  | startXcvr n => exact withChan_persists fun _ => callStep_persists callXcvrStart_persists fun _ _ ht => ht
  | setChState n st res => exact withChan_persists fun _ => endWith_persists (same.setChan n _) _
  | sendGate n f =>
    refine withChan_persists fun _ => gateStep_persists ?_
    split
    · exact same
    · trivial
  | sendXcvr n f =>
    refine withChan_persists fun _ => callStep_persists (callXcvrSend_persists f) fun _ _ ht => ?_
    split
    · exact endWith_persists ht _
    · exact ht
  | sendPush n t => exact retryStep_persists fun _ _ ht => ht
  | sendTxie n full =>
    refine withChan_persists fun _ => callStep_persists (callXcvrTxie_persists true) fun _ _ ht => ?_
    split
    · exact ht
    · exact endWith_persists ht _
  | sendDrop n => exact withChan_persists fun _ => endWith_persists (same.setChan n _) _
  | drainGate n =>
    refine withChan_persists fun _ => gateStep_persists ?_
    split
    · exact same
    · trivial
  | drainPeek n t => exact retryStep_persists fun _ _ ht => ht
  | drainRead n => exact withChan_persists fun _ => testLine_persists fun _ => same
  | drainTake n => exact withChan_persists fun _ => testLine_persists fun _ => same
  | drainXcvr n f => exact withChan_persists fun _ => callStep_persists (callXcvrSend_persists f) fun _ _ ht => ht
  | drainPop n t => exact retryStep_persists fun _ _ ht => ht
  | drainTest n =>
    refine withChan_persists fun _ => ?_
    split
    · exact same
    · exact endWith_persists same _
  | drainTxie n =>
    exact withChan_persists fun _ => callStep_persists (callXcvrTxie_persists false) fun _ _ ht =>
      endWith_persists ht _
  | recvGate n => exact withChan_persists fun _ => gateStep_persists same
  | recvXcvr n =>
    exact withChan_persists fun _ => callStep_persists (callXcvrReceive_persists _) fun _ _ ht =>
      endWith_persists ht _

theorem Task.run_persists (m : Nat) (q : Task) (s : State) : s.PersistsTask (Task.run m q s) := by
  induction m generalizing q s with
  | zero => exact State.Persists.refl s
  | succ m ih =>
    have h := q.step_persists s
    simp only [Task.run]
    split
    · rename_i q' t ht; rw [ht] at h; exact .trans h (ih q' t)
    · rename_i t ht; rw [ht] at h; exact h
    · trivial

/-! ### Inputs -/

theorem finishTask_persists (c : Ctx) (s : State) : s.Persists (finishTask c s) := by
  have same := State.Persists.refl s
  cases c with
  | main => exact same.setTask .main none
  | isr => exact (same.setTask .isr none).continueHook

theorem settle_persists {o : TaskOutcome} (c : Ctx) (h : s.PersistsTask o) : s.PersistsRun (settle c o) := by
  cases o with
  | more q t => exact State.Persists.setTask h c (some q)
  | done t => exact State.Persists.trans h (finishTask_persists c t)
  | refused _ => trivial

theorem runInvoke_persists (c : Ctx) (code : Byte) (ops : Operands) (s : State) :
    s.PersistsRun (runInvoke c code ops s) := by
  unfold runInvoke
  split
  · split
    · trivial
    · exact .trans ((State.Persists.refl s).setAgent c) (exec_persists _ _)
  · exact State.Persists.refl s

theorem runStart_persists (c : Ctx) (code : Byte) (ops : Operands) (s : State) :
    s.PersistsRun (runStart c code ops s) := by
  unfold runStart
  split
  · split
    · trivial
    · split
      · trivial
      · exact ((State.Persists.refl s).setAgent c).setTask c _
  · exact State.Persists.refl s

theorem runTask_persists (m : Nat) (c : Ctx) (s : State) : s.PersistsRun (runTask m c s) := by
  unfold runTask
  split
  · exact State.Persists.refl s
  · split
    · exact .trans ((State.Persists.refl s).setAgent c) (settle_persists c (Task.run_persists m _ _))
    · exact State.Persists.refl s

theorem runBus_persists (x : Nat) (b : BusStep) (s : State) : s.Persists (runBus x b s) := by
  unfold runBus
  split
  · exact .refl s
  · rename_i hr
    split
    · exact .refl s
    · rename_i hb; exact .setXcvr hr (.busStep hb)

theorem runIrqTx_persists (n : Nat) (s : State) : s.Persists (runIrqTx n s) := by
  unfold runIrqTx
  split
  · exact .refl s
  · split
    · exact .refl s
    · rename_i hr
      split
      · exact (State.Persists.setXcvr hr (.acknowledgeTx _)).enterHook _ _
      · exact .refl s

theorem runIrqRx_persists (n f : Nat) (s : State) : s.Persists (runIrqRx n f s) := by
  unfold runIrqRx
  split
  · exact .refl s
  · split
    · exact .refl s
    · split
      · exact (State.Persists.refl s).enterHook _ _
      · exact .refl s

theorem runHookReturn_persists (s : State) : s.Persists (runHookReturn s) := by
  unfold runHookReturn
  split
  · split
    · exact .of_eq rfl rfl
    · exact .refl s
  · exact .refl s

theorem runEnterCritical_persists (s : State) : s.Persists (runEnterCritical s) := by
  unfold runEnterCritical
  split
  · exact .of_eq rfl rfl
  · exact .refl s

theorem runLeaveCritical_persists (s : State) : s.Persists (runLeaveCritical s) := by
  unfold runLeaveCritical
  split
  · split
    · exact .refl s
    · exact .of_eq rfl rfl
  · exact .refl s

/-- Every input but power-on. -/
theorem runEvent_persists {e : Event} (he : e ≠ .powerOn) (s : State) : s.PersistsRun (runEvent e s) := by
  cases e with
  | invoke c code ops => exact runInvoke_persists c code ops s
  | start c code ops => exact runStart_persists c code ops s
  | advance c => exact runTask_persists 1 c s
  | finish c => exact runTask_persists Task.bound c s
  | bus x b => exact runBus_persists x b s
  | irqTx n => exact runIrqTx_persists n s
  | irqRx n f => exact runIrqRx_persists n f s
  | hookReturn => exact runHookReturn_persists s
  | enterCritical => exact runEnterCritical_persists s
  | leaveCritical => exact runLeaveCritical_persists s
  | powerOn => exact absurd rfl he

theorem step_persists (h : step s = .next t) (hp : ∀ rest, s.schedule ≠ .powerOn :: rest) : s.Persists t := by
  have hw := wf_of_step h
  cases hs : s.schedule with
  | nil => rw [step_of_nil hw hs] at h; cases h; exact .refl s
  | cons e rest =>
    have hr := runEvent_persists (fun he : e = .powerOn => hp rest (he ▸ hs)) { s with schedule := rest }
    rw [← step_of_cons hw hs, h] at hr
    have taken : s.Persists { s with schedule := rest } := .of_eq rfl rfl
    exact State.Persists.trans taken hr

/-- Power-on keeps the configuration too (`70_reset_and_hazards.md` R340; log entry 19). -/
theorem step_cfg (h : step s = .next t) : t.cfg = s.cfg := by
  by_cases hp : ∃ rest, s.schedule = .powerOn :: rest
  · obtain ⟨rest, hs⟩ := hp
    rw [step_of_cons (wf_of_step h) hs] at h
    cases h; rfl
  · exact (step_persists h fun rest hs => hp ⟨rest, hs⟩).cfg

/-- Settles O60: every input but power-on is made of effects on register files that persist. -/
theorem familyFixedFailedAbsorbingWireLogGrows : Obligations.FamilyFixedFailedAbsorbingWireLogGrows := by
  intro s t h
  refine ⟨step_cfg h, fun hp x r hr => ?_⟩
  obtain ⟨r', hr', hk⟩ := (step_persists h hp).xcvrs x r hr
  obtain ⟨l, hl⟩ := hk.wire
  exact ⟨r', hr', hk.failed, l, hl.symm⟩

end Sys2Proof.Machine
end

section
/-! PROOFS. What power-on leaves (`10_state.md` R47, `70_reset_and_hazards.md` R340): the reset values, and that they
meet the invariant of the block. -/

namespace Sys2Proof.Machine

/-- A list whose elements a function leaves is left by mapping it. -/
theorem map_eq_self {α : Type} {l : List α} {f : α → α} (h : ∀ a ∈ l, f a = a) : l.map f = l :=
  (List.map_congr_left h).trans (List.map_id l)

theorem Ring.reset_shape {α : Type} {r : RingConfig} (h : 2 ≤ r.n) :
    (Ring.reset (α := α) r.n r.roles).shape = r := by
  simp only [Ring.shape, Ring.reset, Nat.sub_add_cancel (Nat.one_le_of_lt h)]

theorem Chan.reset_shape {k : ChanConfig} (h : 2 ≤ k.retryN) : (Chan.reset k).shape = k := by
  simp only [Chan.shape, Chan.reset, Ring.reset, ChanConfig.retryRoles, Nat.sub_add_cancel (Nat.one_le_of_lt h)]

/-- The invariant after power-on: each part from the bounds of a well-formed configuration (D51). -/
theorem State.resetWith_inv {c : Config} (h : c.wf = true) : (State.resetWith c).Inv := by
  obtain ⟨-, -, -, hrings, hchans, -⟩ := Config.wf_iff.1 h
  have hring : ∀ r ∈ c.rings, 2 ≤ r.n := fun r hr => (RingConfig.wf_iff.1 (hrings r hr)).1
  have hretry : ∀ k ∈ c.chans, 2 ≤ k.retryN := fun k hk => by
    obtain ⟨-, -, hn, -⟩ := ChanConfig.wf_iff.1 (hchans k hk)
    exact hn
  exact
  { config := h
    lvsRoles := by simp [State.resetWith, Lvs.reset, Function.comp_def]
    lvs := List.forall_mem_map.2 fun r _ => Lvs.reset_ok r
    ringShapes := (List.map_map ..).trans (map_eq_self fun r hr => Ring.reset_shape (hring r hr))
    rings := List.forall_mem_map.2 fun r hr => Ring.reset_ok _ _ (hring r hr)
    xcvrCount := List.length_replicate
    xcvrs := fun r hr => by rw [List.eq_of_mem_replicate hr]; exact Xcvr.reset_ok c
    chanShapes := (List.map_map ..).trans (map_eq_self fun k hk => Chan.reset_shape (hretry k hk))
    chanConsumers := List.forall_mem_map.2 fun k _ => rfl
    chans := List.forall_mem_map.2 fun k hk => Ring.reset_ok _ _ (hretry k hk)
    frames := fun f hf => nomatch hf
    results := fun c r hr => by cases c <;> exact nomatch hr
    dispatched := fun c f hf => nomatch hf
    hookCalls := fun k hk => nomatch hk
    tasks := fun c t ht => by cases c <;> exact nomatch ht
    memory := List.Pairwise.nil }

/-- Settles O58: under any well-formed configuration, the sample of log entry 1 among them. -/
theorem resetMeetsInvariant : Obligations.ResetMeetsInvariant :=
  ⟨fun _ => State.resetWith_inv, State.resetWith_inv (by decide)⟩

/-- The control words after reset, which no parameter of the family enters. -/
theorem Xcvr.reset_words (p : FamilyParams) : (Xcvr.reset p).ctrl.word = 0 ∧ (Xcvr.reset p).stat.word = 0 ∧
    (Xcvr.reset p).btr.word = 0 ∧ (Xcvr.reset p).fctrl.word = 0 := by
  have h : (Xcvr.reset .sample).ctrl.word = 0 ∧ (Xcvr.reset .sample).stat.word = 0 ∧
    (Xcvr.reset .sample).btr.word = 0 ∧ (Xcvr.reset .sample).fctrl.word = 0 := by decide
  exact h

/-- Settles O57: the step is `runPowerOn`, and each part of a reset state is the reset value of its configuration. -/
theorem resetValues : Obligations.ResetValues := by
  refine ⟨fun s rest hw hs => step_of_cons hw hs, fun c => ⟨rfl, rfl, rfl, rfl, ⟨List.length_map _, ?lvs⟩,
    ⟨List.length_map _, ?rings⟩, ⟨List.length_replicate, ?xcvrs⟩, List.length_map _, ?chans⟩⟩
  case lvs => exact List.forall_mem_map.2 fun r _ => ⟨rfl, rfl, rfl, rfl, rfl⟩
  case rings => exact List.forall_mem_map.2 fun r _ => ⟨fun e he => (Vector.mem_replicate.1 he).2, rfl, rfl, rfl⟩
  case xcvrs =>
    intro r hr
    rw [List.eq_of_mem_replicate hr]
    obtain ⟨hctrl, hstat, hbtr, hfctrl⟩ := Xcvr.reset_words c.params
    refine ⟨hctrl, hstat, hbtr, hfctrl, fun bank hb f hf => ?_, rfl, fun q hq => List.eq_of_mem_replicate hq, rfl⟩
    rw [List.eq_of_mem_replicate hb] at hf
    rw [List.eq_of_mem_replicate hf]; rfl
  case chans =>
    exact List.forall_mem_map.2 fun k _ =>
      ⟨rfl, rfl, fun e he => (Vector.mem_replicate.1 he).2, rfl, rfl, rfl⟩

end Sys2Proof.Machine
end

section
/-! PROOFS. What each Frame operation on a Frame operand and each container operation can answer, said once
(`40_frame.md` R133 to R139, `41_latest_value_slot.md` R161 to R167, `42_bounded_ring.md` R181 to R187). -/

namespace Sys2Proof.Machine

variable {s t : State} {l r : Nat}

theorem execFrameTxhdr_cases {f : FrameRef} (h : execFrameTxhdr f s = .next t) : ∃ g, s.frameOf f = some g ∧
    t = s.returns (.header (txHeader s.cfg.family g).1 (txHeader s.cfg.family g).2) := by
  unfold execFrameTxhdr at h
  split at h
  · exact nomatch h
  · cases h; exact ⟨_, ‹_›, rfl⟩

theorem execFrameHex_cases {f : FrameRef} {buf : Buffer} (h : execFrameHex f buf s = .next t) :
    ∃ g, s.frameOf f = some g ∧ ¬buf.size < 2 * g.length.toNat + 1 ∧
      t = (s.setMem (s.mem.writeBytes buf.base (hexBytes g))).returns .nothing := by
  unfold execFrameHex at h
  split at h
  · exact nomatch h
  · split at h
    · exact nomatch h
    · cases h; exact ⟨_, ‹_›, ‹_›, rfl⟩

theorem execFrameSetts_cases {f : FrameRef} {n : Nat} (h : execFrameSetts f n s = .next t) :
    ∃ g, s.frameOf f = some g ∧ g.timestamp = none ∧
      t = s.returns (.frame { g with timestamp := some (timestampOf s.cfg n) }) := by
  unfold execFrameSetts setTimestamp at h
  split at h
  · exact nomatch h
  · split at h
    · exact nomatch h
    · rename_i g hg _ u hu
      split at hu
      · exact nomatch hu
      · cases hu; cases h; exact ⟨g, hg, ‹_›, rfl⟩

theorem execLvsPush_cases {v : ValueRef} (h : execLvsPush l v s = .next t) :
    ∃ q w, s.lvs[l]? = some q ∧ s.valueOf v = some w ∧ s.agent = q.roles.producer ∧
      t = (s.setLvs l (q.push w)).returns .nothing := by
  unfold execLvsPush at h
  split at h
  · split at h
    · cases h; exact ⟨_, _, ‹_›, ‹_›, ‹_›, rfl⟩
    · exact nomatch h
  · exact nomatch h

theorem execLvsPop_cases (h : execLvsPop l s = .next t) :
    ∃ q, s.lvs[l]? = some q ∧ s.agent = q.roles.consumer ∧ t = (s.setLvs l q.pop.2).returns (.bool q.pop.1) := by
  unfold execLvsPop at h
  split at h
  · exact nomatch h
  · split at h
    · cases h; exact ⟨_, ‹_›, ‹_›, rfl⟩
    · exact nomatch h

theorem execLvsRead_cases (h : execLvsRead l s = .next t) :
    ∃ q v, s.lvs[l]? = some q ∧ s.agent = q.roles.consumer ∧ q.read = some v ∧ t = s.returns (.value v) := by
  unfold execLvsRead at h
  split at h
  · exact nomatch h
  · split at h
    · split at h
      · exact nomatch h
      · cases h; exact ⟨_, _, ‹_›, ‹_›, ‹_›, rfl⟩
    · exact nomatch h

theorem execRingPush_cases {v : ValueRef} (h : execRingPush r v s = .next t) :
    ∃ q w, s.rings[r]? = some q ∧ s.valueOf v = some w ∧ s.agent = q.roles.producer ∧
      t = (s.setRing r (q.push w).2).returns (.bool (q.push w).1) := by
  unfold execRingPush at h
  split at h
  · split at h
    · cases h; exact ⟨_, _, ‹_›, ‹_›, ‹_›, rfl⟩
    · exact nomatch h
  · exact nomatch h

theorem execRingPop_cases (h : execRingPop r s = .next t) :
    ∃ q, s.rings[r]? = some q ∧ s.agent = q.roles.consumer ∧ t = (s.setRing r q.pop.2).returns (.bool q.pop.1) := by
  unfold execRingPop at h
  split at h
  · exact nomatch h
  · split at h
    · cases h; exact ⟨_, ‹_›, ‹_›, rfl⟩
    · exact nomatch h

theorem execRingPeek_cases (h : execRingPeek r s = .next t) :
    ∃ q, s.rings[r]? = some q ∧ s.agent = q.roles.consumer ∧ t = (s.setRing r q.peek.2).returns (.bool q.peek.1) := by
  unfold execRingPeek at h
  split at h
  · exact nomatch h
  · split at h
    · cases h; exact ⟨_, ‹_›, ‹_›, rfl⟩
    · exact nomatch h

theorem execRingRead_cases (h : execRingRead r s = .next t) :
    ∃ q v, s.rings[r]? = some q ∧ s.agent = q.roles.consumer ∧ q.staged = some v ∧ t = s.returns (.value v) := by
  unfold execRingRead at h
  split at h
  · exact nomatch h
  · split at h
    · split at h
      · exact nomatch h
      · cases h; exact ⟨_, _, ‹_›, ‹_›, ‹_›, rfl⟩
    · exact nomatch h

end Sys2Proof.Machine
end

section
/-! PROOFS. What an operation run whole keeps (`20_memory.md` R68, R71): a whole ring operation is steps of its
context's operation, so the operation that the other context is part-way through still fits. -/

namespace Sys2Proof.Machine

/-! ### Whole ring operations as steps (`42_bounded_ring.md` R181 to R183) -/

/-- Ring `q'` is `q` after some steps, each of an operation of context `c` that fits the ring it finds. -/
inductive Ring.Steps {α : Type} (wf : α → Bool) (c : Ctx) : Ring α → Ring α → Prop
  | refl (q : Ring α) : Ring.Steps wf c q q
  | head {q q' : Ring α} {t : RingTask α} (fits : t.Fits wf c q) (rest : Ring.Steps wf c (t.step q).1 q') :
      Ring.Steps wf c q q'

section
variable {α : Type} {wf : α → Bool} {c : Ctx} {q : Ring α}

/-- Two steps of one operation, the second being what the first leaves to do. -/
theorem Ring.Steps.two {t u : RingTask α} (hq : q.Ok wf) (ht : t.Fits wf c q) (hu : (t.step q).2 = .inl u) :
    q.Steps wf c (u.step (t.step q).1).1 :=
  .head ht (.head (RingTask.Fits.next hq ht hu).1 (.refl _))

theorem Ring.Steps.push {v : α} (hq : q.Ok wf) (hc : c = q.roles.producer) (hv : wf v = true) :
    q.Steps wf c (q.push v).2 := by
  unfold Ring.push
  split
  · exact .refl q
  · rename_i hf
    have hn : q.next q.back ≠ q.front := by simpa [Ring.isFull] using hf
    have ht : (RingTask.pushWrite v q.back (q.next q.back)).Fits wf c q :=
      ⟨hc, ⟨rfl, rfl, hn⟩, fun w hw => by cases hw; exact hv⟩
    have h := Ring.Steps.two (u := .pushPublish (q.next q.back)) hq ht rfl
    rw [RingTask.step_pushWrite] at h
    simpa only [RingTask.step, Ring.index_val, Ring.setCell_index] using h

theorem Ring.Steps.pop (hq : q.Ok wf) (hc : c = q.roles.consumer) : q.Steps wf c q.pop.2 := by
  unfold Ring.pop
  split
  · exact .refl q
  · rename_i he
    have hn : q.front ≠ q.back := by simpa [Ring.isEmpty] using he
    have ht : (RingTask.popStage q.front).Fits wf c q := ⟨hc, ⟨rfl, hn⟩, fun w hw => nomatch hw⟩
    have h := Ring.Steps.two (u := .popPublish q.front) hq ht rfl
    rw [RingTask.step_popStage] at h
    simpa only [RingTask.step, Ring.index_val, Ring.stage_index, Ring.stage_next] using h

theorem Ring.Steps.peek (hc : c = q.roles.consumer) : q.Steps wf c q.peek.2 := by
  unfold Ring.peek
  split
  · exact .refl q
  · rename_i he
    have hn : q.front ≠ q.back := by simpa [Ring.isEmpty] using he
    have ht : (RingTask.peekStage q.front).Fits wf c q := ⟨hc, ⟨rfl, hn⟩, fun w hw => nomatch hw⟩
    exact .head ht (RingTask.step_peekStage q ▸ .refl _)

end

variable {s t u : State} {n : Nat} {k : Chan}

/-- A BoundedRing after steps of operations of `s.agent`. -/
theorem State.Ready.stepsRing {wf : Value → Bool} {c : Ctx} {q q' : Ring Value} (hs : q.Steps wf c q') :
    ∀ {s : State}, s.Ready → wf = Value.wf s.cfg → c = s.agent → s.rings[n]? = some q → s.Keeps (s.setRing n q') := by
  induction hs with
  | refl q =>
    intro s h _ _ hq
    rw [State.setRing_self hq]; exact h.refl
  | head ht _ ih =>
    intro s h hw hc hq
    subst hw hc
    have hk := h.stepRing hq ht
    have hr := ih hk.ready rfl rfl (State.setRing_get hq)
    rw [State.setRing_setRing] at hr
    exact hk.trans hr

/-- A Channel after steps of `s.agent`'s operations on its retry ring. -/
theorem State.Ready.stepsRetry {wf : Frame → Bool} {c : Ctx} {q q' : Ring Frame} (hs : q.Steps wf c q') :
    ∀ {s : State} {k : Chan}, s.Ready → wf = Frame.wf s.cfg → c = s.agent → s.chans[n]? = some k → k.retry = q →
      s.Keeps (s.setChan n { k with retry := q' }) := by
  induction hs with
  | refl q =>
    intro s k h _ _ hk hq
    subst hq
    rw [State.setChan_self hk]; exact h.refl
  | head ht _ ih =>
    intro s k h hw hc hk hq
    subst hw hc hq
    have hk1 := h.stepRetry hk ht
    have hr := ih hk1.ready rfl rfl (State.setChan_get hk) rfl
    rw [State.setChan_setChan] at hr
    exact hk1.trans hr

/-! ### Calls -/

/-- A Transceiver call at the end of a run. -/
theorem State.Keeps.onlyXcvr (h : s.Keeps t) (ho : OnlyXcvr t.cfg t u) : s.Keeps u := h.trans (h.ready.onlyXcvr ho)

theorem OnlyXcvr.chan {c : Config} (h : OnlyXcvr c s t) (hk : s.chans[n]? = some k) : t.chans[n]? = some k := by
  obtain ⟨-, -, hc⟩ := h.fields
  rw [hc]; exact hk

theorem OnlyXcvr.agent {c : Config} (h : OnlyXcvr c s t) : t.agent = s.agent := by rw [h.rest]

theorem enterChState_keeps {st : ChState} {res res' : Status} (h : s.Keeps t) (hk : t.chans[n]? = some k)
    (he : enterChState n k st res t = .ok (res', u)) : s.Keeps u := by
  cases he
  exact h.trans (h.ready.setChan_same hk rfl rfl rfl)

theorem callChanInit_keeps {baud : Nat} {ext : Bool} {fl : Filter} {st : Status} (h : s.Ready)
    (hc : callChanInit n baud ext fl s = .ok (st, t)) : s.Keeps t := by
  unfold callChanInit at hc
  split at hc
  · exact nomatch hc
  rename_i k hk
  split at hc
  · exact nomatch hc
  · cases hc; exact h.refl
  obtain ⟨st1, u, hu, hc⟩ := Reply.andThen_eq_ok hc
  have hu := OnlyXcvr.callXcvrInit hu
  have ku := h.onlyXcvr hu
  split at hc
  · obtain ⟨st2, v, hv, hc⟩ := Reply.andThen_eq_ok hc
    have hv := OnlyXcvr.callFilter hv
    have kv := ku.onlyXcvr hv
    split at hc <;> exact enterChState_keeps kv (hv.chan (hu.chan hk)) hc
  · exact enterChState_keeps ku (hu.chan hk) hc

theorem callChanStart_keeps {st : Status} (h : s.Ready) (hc : callChanStart n s = .ok (st, t)) : s.Keeps t := by
  unfold callChanStart at hc
  split at hc
  · exact nomatch hc
  rename_i k hk
  split at hc
  · exact nomatch hc
  · cases hc; exact h.refl
  obtain ⟨st1, u, hu, hc⟩ := Reply.andThen_eq_ok hc
  have hu := OnlyXcvr.callXcvrStart hu
  split at hc <;> exact enterChState_keeps (h.onlyXcvr hu) (hu.chan hk) hc

theorem queueForRetry_keeps {f : Frame} {st : Status} (h : s.Ready) (hk : s.chans[n]? = some k)
    (ha : s.agent = k.retry.roles.producer) (hf : f.wf s.cfg = true)
    (hc : queueForRetry n k f s = .ok (st, t)) : s.Keeps t := by
  unfold queueForRetry at hc
  obtain ⟨x, u, hu, hc⟩ := Reply.andThen_eq_ok hc
  have hu := OnlyXcvr.callXcvrTxie hu
  have pushed := h.stepsRetry (.push (h.base.chans k (List.mem_of_getElem? hk)) ha hf) rfl rfl hk rfl
  have ku := pushed.onlyXcvr hu
  split at hc <;> cases hc
  · exact ku.trans (ku.ready.setChan_same (hu.chan (State.setChan_get hk)) rfl rfl rfl)
  · exact ku

theorem callChanSend_keeps {f : Frame} {st : Status} (h : s.Ready) (hf : f.wf s.cfg = true)
    (hc : callChanSend n f s = .ok (st, t)) : s.Keeps t := by
  unfold callChanSend at hc
  split at hc
  · exact nomatch hc
  rename_i k hk
  split at hc
  · exact nomatch hc
  · cases hc; exact h.refl
  split at hc
  · rename_i ha
    obtain ⟨st1, u, hu, hc⟩ := Reply.andThen_eq_ok hc
    have hu := OnlyXcvr.callXcvrSend h.base.config hu
    have ku := h.onlyXcvr hu
    split at hc
    · cases hc; exact ku
    · exact ku.trans (queueForRetry_keeps ku.ready (hu.chan hk) (hu.agent.trans ha) (by rw [ku.cfg]; exact hf) hc)
  · exact nomatch hc

theorem quietWhenDrained_keeps {x : Unit} (h : s.Keeps t) (hc : quietWhenDrained k t = .ok (x, u)) : s.Keeps u := by
  unfold quietWhenDrained at hc
  split at hc
  · exact h.onlyXcvr (.callXcvrTxie hc)
  · cases hc; exact h

theorem callChanTxDrain_keeps {x : Unit} (h : s.Ready) (hc : callChanTxDrain n s = .ok (x, t)) : s.Keeps t := by
  unfold callChanTxDrain at hc
  split at hc
  · exact nomatch hc
  rename_i k hk
  split at hc
  · exact nomatch hc
  · cases hc; exact h.refl
  split at hc
  · rename_i ha
    have peeked := h.stepsRetry (.peek ha) rfl rfl hk rfl
    have hp := State.setChan_get (b := { k with retry := k.retry.peek.2 }) hk
    dsimp only at hc
    split at hc
    · split at hc
      · exact nomatch hc
      · obtain ⟨st1, u, hu, hc⟩ := Reply.andThen_eq_ok hc
        have hu := OnlyXcvr.callXcvrSend peeked.base.config hu
        have ku := peeked.onlyXcvr hu
        split at hc
        · have hr : k.retry.peek.2.roles = k.retry.roles := by unfold Ring.peek; split <;> rfl
          have popped := ku.ready.stepsRetry (.pop (ku.base.chans _ (List.mem_of_getElem? (hu.chan hp)))
            (by rw [ku.agent, ha]; exact congrArg Roles.consumer hr.symm)) rfl rfl (hu.chan hp) rfl
          exact quietWhenDrained_keeps (ku.trans popped) hc
        · exact quietWhenDrained_keeps ku hc
    · exact quietWhenDrained_keeps peeked hc
  · exact nomatch hc

theorem callChanReceive_keeps {p : Status × Option Frame} (h : s.Ready) (hc : callChanReceive n s = .ok (p, t)) :
    s.Keeps t ∧ ∀ f, p.2 = some f → f.wf s.cfg = true := by
  unfold callChanReceive at hc
  split at hc
  · exact nomatch hc
  split at hc
  · exact nomatch hc
  · cases hc; exact ⟨h.refl, fun f hf => nomatch hf⟩
  · exact ⟨h.onlyXcvr (.callXcvrReceive hc), fun f hf => callXcvrReceive_frame_wf hc hf⟩

/-! ### Whole operations -/

/-- Delivering a result without Frames at the end of a run. -/
theorem State.Keeps.returns (h : s.Keeps t) {r : OpResult} (hr : r.heldFrames = []) : s.Keeps (t.returns r) :=
  h.trans (h.ready.returns (by simp [hr]))

/-- Every operation run whole, whatever the other context is part-way through. -/
theorem exec_keeps {i : Instr} (h : s.Ready) (he : exec i s = .next t) : s.Keeps t := by
  cases i with
  | frameHex f buf =>
    obtain ⟨g, -, -, rfl⟩ := execFrameHex_cases he
    exact (h.setMem (Memory.writeBytes_wf h.base.memory _ _)).returns rfl
  | lvsPush l v =>
    obtain ⟨q, w, hq, hw, -, rfl⟩ := execLvsPush_cases he
    have hok := (h.base.lvs q (List.mem_of_getElem? hq)).push (h.base.valueOf hw)
    exact (h.setLvs (v := q.push w) hq rfl hok).returns rfl
  | lvsPop l =>
    obtain ⟨q, hq, -, rfl⟩ := execLvsPop_cases he
    have hr : q.pop.2.roles = q.roles := LvsTask.step_roles .fused .popTest q
    exact (h.setLvs hq hr (h.base.lvs q (List.mem_of_getElem? hq)).pop).returns rfl
  | lvsRead l =>
    obtain ⟨q, v, hq, -, hv, rfl⟩ := execLvsRead_cases he
    exact h.returns (Value.held_wf ((h.base.lvs q (List.mem_of_getElem? hq)).values _ v hv))
  | ringPush r v =>
    obtain ⟨q, w, hq, hw, ha, rfl⟩ := execRingPush_cases he
    have hs := Ring.Steps.push (h.base.rings q (List.mem_of_getElem? hq)) ha (h.base.valueOf hw)
    exact (h.stepsRing hs rfl rfl hq).returns rfl
  | ringPop r =>
    obtain ⟨q, hq, ha, rfl⟩ := execRingPop_cases he
    exact (h.stepsRing (.pop (h.base.rings q (List.mem_of_getElem? hq)) ha) rfl rfl hq).returns rfl
  | ringPeek r =>
    obtain ⟨q, hq, ha, rfl⟩ := execRingPeek_cases he
    exact (h.stepsRing (.peek ha) rfl rfl hq).returns rfl
  | ringRead r =>
    obtain ⟨q, v, hq, -, hv, rfl⟩ := execRingRead_cases he
    exact h.returns (Value.held_wf ((h.base.rings q (List.mem_of_getElem? hq)).staged v hv))
  | chanInit c baud ext fl => exact answer_keeps he fun a u hu => ⟨callChanInit_keeps h hu, by simp [OpResult.heldFrames]⟩
  | chanStart c => exact answer_keeps he fun a u hu => ⟨callChanStart_keeps h hu, by simp [OpResult.heldFrames]⟩
  | chanSend c f =>
    simp only [exec, execChanSend] at he
    split at he
    · exact nomatch he
    · rename_i f hf
      exact answer_keeps he fun a u hu => ⟨callChanSend_keeps h (h.base.frameOf hf) hu, by simp [OpResult.heldFrames]⟩
  | chanTxDrain c =>
    simp only [exec, execChanTxDrain] at he
    exact answer_keeps he fun a u hu => ⟨callChanTxDrain_keeps h hu, by simp [OpResult.heldFrames]⟩
  | chanReceive c =>
    simp only [exec, execChanReceive] at he
    refine answer_keeps he fun a u hu => ?_
    obtain ⟨hk, hf⟩ := callChanReceive_keeps h hu
    obtain ⟨st, o⟩ := a
    exact ⟨hk, fun g hg => by cases o <;> simp [OpResult.heldFrames] at hg; exact hf g (by rw [hg])⟩
  | _ => exact exec_keeps_whole h rfl he

/-! ### Operations step by step -/

/-- Any number of steps of an operation that fits. -/
theorem Task.run_good {c : Ctx} (m : Nat) {q : Task} (h : s.Ready) (hc : c = s.agent) (hq : q.Fits c s) :
    (q.run m s).Good c s := by
  induction m generalizing q s with
  | zero => exact ⟨h.refl, hq⟩
  | succ m ih =>
    have hg := Task.step_good h hc hq fun i u _ he => exec_keeps h he
    simp only [Task.run]
    split
    · rename_i hs
      rw [hs] at hg
      obtain ⟨hk, hf⟩ := hg
      exact .trans hk (ih hk.ready (hc.trans hk.agent.symm) hf)
    · rename_i hs; rw [hs] at hg; exact hg
    · trivial

/-- An operation begun by `s.agent` fits. -/
theorem Task.begin_fits {i : Instr} {q : Task} (h : s.Base) (hb : Task.begin i s = .ok q) : q.Fits s.agent s := by
  cases i with
  | lvsPush l v =>
    simp only [Task.begin] at hb
    split at hb
    · rename_i w _ hw
      split at hb
      · cases hb
        exact fun v hv => by cases hv; exact h.valueOf hw
      · exact nomatch hb
    · exact nomatch hb
  | lvsPop l =>
    simp only [Task.begin] at hb
    split at hb
    · split at hb
      · cases hb; exact fun v hv => nomatch hv
      · exact nomatch hb
    · exact nomatch hb
  | lvsRead l =>
    simp only [Task.begin] at hb
    split at hb
    · split at hb
      · cases hb; trivial
      · exact nomatch hb
    · exact nomatch hb
  | ringPush r v =>
    simp only [Task.begin] at hb
    split at hb
    · rename_i q w hq hw
      split at hb
      · rename_i ha
        cases hb
        exact fun q' hq' => by
          rw [hq] at hq'; cases hq'
          exact ⟨ha, trivial, fun v hv => by cases hv; exact h.valueOf hw⟩
      · exact nomatch hb
    · exact nomatch hb
  | ringPop r =>
    simp only [Task.begin] at hb
    split at hb
    · rename_i q hq
      split at hb
      · rename_i ha
        cases hb
        exact fun q' hq' => by rw [hq] at hq'; cases hq'; exact ⟨ha, trivial, fun v hv => nomatch hv⟩
      · exact nomatch hb
    · exact nomatch hb
  | ringPeek r =>
    simp only [Task.begin] at hb
    split at hb
    · rename_i q hq
      split at hb
      · rename_i ha
        cases hb
        exact fun q' hq' => by rw [hq] at hq'; cases hq'; exact ⟨ha, trivial, fun v hv => nomatch hv⟩
      · exact nomatch hb
    · exact nomatch hb
  | ringRead r =>
    simp only [Task.begin] at hb
    split at hb
    · split at hb
      · cases hb; trivial
      · exact nomatch hb
    · exact nomatch hb
  | frameHex f buf =>
    simp only [Task.begin] at hb
    split at hb
    · split at hb
      · exact nomatch hb
      · cases hb; trivial
    · exact nomatch hb
  | chanSend c f =>
    simp only [Task.begin] at hb
    split at hb
    · rename_i g hg; cases hb; exact h.frameOf hg
    · exact nomatch hb
  | _ => cases hb; trivial

end Sys2Proof.Machine
end

section
/-! PROOFS. Every step under every input keeps the invariant of the block. -/

namespace Sys2Proof.Machine

variable {s t : State}

/-! ### Updates of the setting -/

theorem State.ctx_setHook (s : State) (k : Option Hook) (d : Ctx) : ({ s with hook := k } : State).ctx d = s.ctx d := by
  cases d <;> rfl

theorem State.continueHook_ctx (s : State) (d : Ctx) : s.continueHook.ctx d = s.ctx d := by
  cases d
  · exact s.continueHook_main
  · exact s.continueHook_isr

theorem State.continueHook_eq (s : State) : s.continueHook = { s with hook := s.continueHook.hook } := by
  unfold State.continueHook
  split
  · rfl
  · split <;> rfl
  · rfl

theorem State.Base.setTask (h : s.Base) (c : Ctx) (v : Option Task) : (s.setTask c v).Base := by
  have hr : ∀ d r, ((s.setTask c v).ctx d).result = some r → ∀ f ∈ r.heldFrames, f.wf s.cfg = true := fun d r hr => by
    rw [State.setTask_ctx] at hr
    split at hr
    · exact h.results c r hr
    · exact h.results d r hr
  cases c with
  | main => exact { h with results := hr }
  | isr => exact { h with results := hr }

theorem State.Base.setHook (h : s.Base) {k : Option Hook}
    (hk : ∀ c f, k = some (.dispatch c f) → f.wf s.cfg = true) : ({ s with hook := k } : State).Base :=
  { h with results := fun d => by rw [State.ctx_setHook]; exact h.results d, dispatched := hk }

/-- The Frame of `app_dispatch` is the one the hook's `CHAN.RECEIVE` has returned (`60_exceptions.md` R312). -/
theorem State.Base.continueHook (h : s.Base) : s.continueHook.Base := by
  rw [State.continueHook_eq]
  refine h.setHook fun c f hd => ?_
  obtain ⟨c', f', -, hr, hk⟩ | hk | ⟨hk, -⟩ := s.continueHook_hook_cases
  · rw [hk] at hd; cases hd
    exact h.results .isr _ hr f (by simp [OpResult.heldFrames])
  · rw [hk] at hd; exact nomatch hd
  · rw [hk] at hd; exact h.dispatched c f hd

/-- The operations part-way after context `c` has been given the operation `v`. -/
theorem State.fits_setTask {c : Ctx} {v : Option Task} (own : ∀ u, v = some u → u.Fits c s)
    (others : ∀ d u, d ≠ c → (s.ctx d).task = some u → u.Fits d s) :
    ∀ d u, ((s.setTask c v).ctx d).task = some u → u.Fits d (s.setTask c v) := fun d u hu => by
  rw [State.setTask_ctx] at hu
  have hf : u.Fits d s := by
    split at hu
    · rename_i hd; subst hd; exact own u hu
    · exact others d u ‹_› hu
  exact hf.congr (by simp) (by simp) (by simp)

/-- The inputs, the turn, the critical sections and the draws are no part of the invariant. -/
theorem State.Inv.setControl (h : s.Inv) (schedule : List Event) (agent : Ctx) (masked : Bool) (saved : List Bool)
    (draws : Draws) : State.Inv
      { s with schedule := schedule, agent := agent, masked := masked, saved := saved, draws := draws } :=
  { h with
    results := fun
      | .main => h.results .main
      | .isr => h.results .isr
    tasks := fun
      | .main => fun u hu => (h.tasks .main u hu).congr rfl rfl rfl
      | .isr => fun u hu => (h.tasks .isr u hu).congr rfl rfl rfl }

/-! ### Runs of a context -/

theorem State.Inv.ready (h : s.Inv) : s.Ready := ⟨h.base, fun d u _ hu => h.tasks d u hu⟩

theorem State.Inv.setAgent (h : s.Inv) (c : Ctx) : (s.setAgent c).Inv := h.setControl _ c _ _ _

/-- The hook and the ISR context's operation are those of the start of the run. -/
theorem State.Keeps.hookCalls (h : s.Keeps t) (hs : s.Inv) :
    ∀ k, t.hook = some k → k.calls = true → t.isr.task.isSome = true := fun k hk hc => by
  have ht : t.isr.task = s.isr.task := h.task .isr
  rw [ht]; exact hs.hookCalls k (h.hook.symm.trans hk) hc

/-- After a run of context `s.agent` the invariant holds again, if the operation it is part-way through still fits. -/
theorem State.Keeps.inv (h : s.Keeps t) (hs : s.Inv)
    (own : ∀ u, (s.ctx s.agent).task = some u → u.Fits s.agent t) : t.Inv :=
  h.base.inv (h.hookCalls hs) fun d u hu => by
    rw [h.task] at hu
    by_cases hd : d = s.agent
    · subst hd; exact own u hu
    · exact h.others d u hd hu

theorem State.Inv.onlyXcvr (h : s.Inv) (ho : OnlyXcvr s.cfg s t) : t.Inv := by
  obtain ⟨hc, hr, hk⟩ := ho.fields
  exact (h.ready.onlyXcvr ho).inv h fun u hu => (h.tasks _ u hu).congr hc hr hk

/-- The run's context goes on with what is left of its operation. -/
theorem State.Keeps.setTask_inv (h : s.Keeps t) (hs : s.Inv) {u : Task} (hu : u.Fits s.agent t) :
    (t.setTask s.agent (some u)).Inv := by
  refine (h.base.setTask s.agent _).inv (fun k hk hc => ?_)
    (State.fits_setTask (fun v hv => by cases hv; exact hu) fun d v hd hv => h.others d v hd (by rw [← h.task]; exact hv))
  cases ha : s.agent with
  | main => exact h.hookCalls hs k (by simpa using hk) hc
  | isr => rfl

/-- The run's context has ended its operation. -/
theorem State.Keeps.finishTask_inv (h : s.Keeps t) (hs : s.Inv) : (finishTask s.agent t).Inv := by
  have fits := State.fits_setTask (s := t) (c := s.agent) (v := none) (fun u hu => nomatch hu)
    fun d u hd hu => h.others d u hd (by rw [← h.task]; exact hu)
  have base := h.base.setTask s.agent none
  cases ha : s.agent with
  | main =>
    rw [ha] at fits base
    exact base.inv (h.hookCalls hs) fits
  | isr =>
    rw [ha] at fits base
    refine base.continueHook.inv (fun k hk hc => ?_) fun d u hu => ?_
    · obtain ⟨c, f, -, -, hd⟩ | hd | ⟨hd, hn⟩ := (t.setTask .isr none).continueHook_hook_cases
      · rw [hd] at hk; cases hk; exact nomatch hc
      · rw [hd] at hk; exact nomatch hk
      · rw [hn k (hd.symm.trans hk)] at hc; exact nomatch hc
    · rw [State.continueHook_ctx] at hu
      exact (fits d u hu).congr (by simp) (by simp) (by simp)

theorem settle_inv {o : TaskOutcome} (hs : s.Inv) (ho : o.Good s.agent s) (h : settle s.agent o = .next t) : t.Inv := by
  cases o with
  | more u s' =>
    obtain ⟨hk, hu⟩ := ho
    cases h; exact hk.setTask_inv hs hu
  | done s' => cases h; exact State.Keeps.finishTask_inv ho hs
  | refused r => exact nomatch h

/-! ### Inputs -/

theorem State.task_of_mayBegin {c : Ctx} (h : s.mayBegin c = true) : (s.ctx c).task = none := by
  cases c with
  | main => exact Option.isNone_iff_eq_none.1 (Bool.and_eq_true_iff.1 h).2
  | isr => exact Option.isNone_iff_eq_none.1 (Bool.and_eq_true_iff.1 h).1

theorem State.ctx_setAgent (s : State) (c d : Ctx) : (s.setAgent c).ctx d = s.ctx d := by cases d <;> rfl

theorem runInvoke_inv {c : Ctx} {code : Byte} {ops : Operands} (hs : s.Inv) (h : runInvoke c code ops s = .next t) :
    t.Inv := by
  unfold runInvoke at h
  split at h
  · rename_i hb
    split at h
    · exact nomatch h
    · refine (exec_keeps (hs.setAgent c).ready h).inv (hs.setAgent c) fun u hu => ?_
      have hn : ((s.setAgent c).ctx c).task = none := by rw [State.ctx_setAgent, State.task_of_mayBegin hb]
      exact nomatch hn.symm.trans hu
  · cases h; exact hs

theorem runStart_inv {c : Ctx} {code : Byte} {ops : Operands} (hs : s.Inv) (h : runStart c code ops s = .next t) :
    t.Inv := by
  unfold runStart at h
  split at h
  · split at h
    · exact nomatch h
    · split at h
      · exact nomatch h
      · rename_i hb
        cases h
        exact (hs.setAgent c).ready.refl.setTask_inv (hs.setAgent c) (Task.begin_fits (hs.setAgent c).base hb)
  · cases h; exact hs

theorem runTask_inv {m : Nat} {c : Ctx} (hs : s.Inv) (h : runTask m c s = .next t) : t.Inv := by
  unfold runTask at h
  split at h
  · cases h; exact hs
  · rename_i q hq
    split at h
    · have hf := (hs.setAgent c).tasks c q (by rw [State.ctx_setAgent]; exact hq)
      exact settle_inv (hs.setAgent c) (Task.run_good m (hs.setAgent c).ready rfl hf) h
    · cases h; exact hs

theorem runBus_inv (x : Nat) (b : BusStep) (hs : s.Inv) : (runBus x b s).Inv := by
  unfold runBus
  split
  · exact hs
  · rename_i hr
    split
    · exact hs
    · rename_i hb; exact hs.onlyXcvr (.setXcvr hr fun h => h.busStep hb)

/-- Entering a hook: the hook calls, and the ISR context has its call to make. -/
theorem State.Inv.enterHook (h : s.Inv) {k : Hook} (hk : k.calls = true) {u : Task} (hu : u.Fits .isr s) :
    (s.enterHook k u).Inv := by
  have base : ({ s with hook := some k } : State).Base := h.base.setHook fun c f hd => by cases hd; exact nomatch hk
  refine (base.setTask .isr (some u)).inv (fun _ _ _ => rfl) (State.fits_setTask (fun v hv => ?_) fun d v _ hv => ?_)
  · cases hv; exact hu.congr rfl rfl rfl
  · rw [State.ctx_setHook] at hv
    exact (h.tasks d v hv).congr rfl rfl rfl

theorem runIrqTx_inv (n : Nat) (hs : s.Inv) : (runIrqTx n s).Inv := by
  unfold runIrqTx
  split
  · exact hs
  · split
    · exact hs
    · rename_i hr
      split
      · exact (hs.onlyXcvr (.setXcvr hr fun h => h.acknowledgeTx)).enterHook rfl trivial
      · exact hs

theorem runIrqRx_inv (n f : Nat) (hs : s.Inv) : (runIrqRx n f s).Inv := by
  unfold runIrqRx
  split
  · exact hs
  · split
    · exact hs
    · split
      · exact hs.enterHook rfl trivial
      · exact hs

theorem runHookReturn_inv (hs : s.Inv) : (runHookReturn s).Inv := by
  unfold runHookReturn
  split
  · split
    · have base : s.leaveHook.Base := hs.base.setHook (k := none) fun c f hd => nomatch hd
      refine base.inv (fun k hk => by rw [s.leaveHook_hook] at hk; exact nomatch hk) fun d u hu => ?_
      rw [State.leaveHook, State.ctx_setHook] at hu
      exact (hs.tasks d u hu).congr rfl rfl rfl
    · exact hs
  · exact hs

theorem runEnterCritical_inv (hs : s.Inv) : (runEnterCritical s).Inv := by
  unfold runEnterCritical
  split
  · exact hs.setControl _ _ _ _ _
  · exact hs

theorem runLeaveCritical_inv (hs : s.Inv) : (runLeaveCritical s).Inv := by
  unfold runLeaveCritical
  split
  · split
    · exact hs
    · exact hs.setControl _ _ _ _ _
  · exact hs

theorem runPowerOn_inv (hs : s.Inv) : (runPowerOn s).Inv := (State.resetWith_inv hs.config).setControl _ _ _ _ _

theorem runEvent_inv {e : Event} (hs : s.Inv) (h : runEvent e s = .next t) : t.Inv := by
  cases e with
  | invoke c code ops => exact runInvoke_inv hs h
  | start c code ops => exact runStart_inv hs h
  | advance c => exact runTask_inv hs h
  | finish c => exact runTask_inv hs h
  | bus x b => cases h; exact runBus_inv x b hs
  | irqTx n => cases h; exact runIrqTx_inv n hs
  | irqRx n f => cases h; exact runIrqRx_inv n f hs
  | hookReturn => cases h; exact runHookReturn_inv hs
  | enterCritical => cases h; exact runEnterCritical_inv hs
  | leaveCritical => cases h; exact runLeaveCritical_inv hs
  | powerOn => cases h; exact runPowerOn_inv hs

/-- Settles O59: each input by what it runs; a run of one context keeps the other's operation in agreement. -/
theorem everyStepKeepsInvariant : Obligations.EveryStepKeepsInvariant := by
  intro s t hs h
  cases hl : s.schedule with
  | nil => rw [step_of_nil hs.config hl] at h; cases h; exact hs
  | cons e rest =>
    rw [step_of_cons hs.config hl] at h
    exact runEvent_inv (hs.setControl rest _ _ _ _) h

end Sys2Proof.Machine
end

section
/-! PROOFS. The Frames that are constructed (`10_state.md` R23), and the contents of a BoundedRing under its whole
operations (`10_state.md` R30, `42_bounded_ring.md` R181 to R186). -/

namespace Sys2Proof.Machine

/-- The bounds of R23 by the kind of the identifier. -/
theorem Frame.wf_bounds {c : Config} {f : Frame} (h : f.wf c = true) :
    (f.isExtended = false → f.id.toNat < 2 ^ 11) ∧ (f.isExtended = true → f.id.toNat < 2 ^ 29) ∧
    f.length.toNat ≤ 8 ∧ ∀ i < 8, f.length.toNat ≤ i → f.data.get i = 0 := by
  obtain ⟨hid, hlen, hdata, -⟩ := Frame.wf_iff.1 h
  exact ⟨fun he => by simpa [he] using hid, fun he => by simpa [he] using hid, hlen, hdata⟩

/-- Settles O15: each construction path gives a Frame that meets `Frame.wf`. -/
theorem constructedFramesAreBounded : Obligations.ConstructedFramesAreBounded := by
  refine ⟨fun s f => ⟨_, rfl, givenFrame_wf s.cfg f, givenFrame_of_wf⟩, fun s t i f hi he hr => ?_⟩
  refine Frame.wf_bounds (c := s.cfg) ?_
  obtain ⟨id, len, d, ext, rfl⟩ | ⟨h0, h1, dl, dh, rfl⟩ := hi
  · cases he
    rw [State.returns_result _ rfl] at hr; cases hr
    exact newFrame_wf _ _ _ _ _
  · cases he
    rw [State.returns_result _ rfl] at hr; cases hr
    exact fromRx_wf _ _ _

section
variable {α : Type} {q : Ring α}

theorem Ring.push_of_full (h : q.isFull = true) (v : α) : q.push v = (true, q) := if_pos h

/-- Below `N - 1` elements a push appends (`42_bounded_ring.md` R181). -/
theorem Ring.push_of_not_full (h : q.isFull = false) (v : α) :
    (q.push v).1 = false ∧ (q.push v).2.contents = q.contents ++ [some v] := by
  have hn : q.next q.back ≠ q.front := by simpa [Ring.isFull] using h
  have hp : q.push v = (false, (q.setCell q.back (some v)).setBack (q.next q.back)) := if_neg (by simp [h])
  have hc := (q.setCell q.back (some v)).contents_setBack hn
  rw [q.contents_setCell] at hc
  rw [hp]
  exact ⟨rfl, hc.trans (by rw [Ring.setCell_back, q.setCell_cellAt, if_pos rfl])⟩

theorem Ring.pop_of_empty (h : q.isEmpty = true) : q.pop = (false, q) := if_pos h

theorem Ring.peek_of_empty (h : q.isEmpty = true) : q.peek = (false, q) := if_pos h

theorem Ring.pop_of_not_empty (h : q.isEmpty = false) :
    q.pop = (true, (q.stage q.front).setFront (q.next q.front)) := if_neg (by simp [h])

theorem Ring.peek_of_not_empty (h : q.isEmpty = false) : q.peek = (true, q.stage q.front) := if_neg (by simp [h])

theorem Ring.contents_eq_nil_iff : q.contents = [] ↔ q.isEmpty = true := by
  rw [q.isEmpty_iff, ← q.contents_length, List.length_eq_zero_iff]

/-- The oldest element is in the cell `front` names, the rest are those after it. -/
theorem Ring.contents_of_not_empty (h : q.isEmpty = false) :
    q.contents = q.cellAt q.front :: (q.setFront (q.next q.front)).contents :=
  q.contents_setFront (by simpa [Ring.isEmpty] using h)

end

/-- Settles O26: by whether the ring is full, and by whether it is empty. -/
theorem ringContentsLaw : Obligations.RingContentsLaw := by
  intro α wf q v hq
  have full : q.isFull = true ↔ q.count = q.n - 1 := q.isFull_iff hq.size
  refine ⟨q.contents_length, Nat.le_sub_one_of_lt q.count_lt, fun h => q.push_of_full (full.2 h) v,
    fun h => q.push_of_not_full (Bool.eq_false_iff.2 (mt full.1 h)) v, fun h => ?_, fun e l h => ?_⟩
  · have he := Ring.contents_eq_nil_iff.1 h
    exact ⟨Ring.pop_of_empty he, Ring.peek_of_empty he⟩
  · have he : q.isEmpty = false := Bool.eq_false_iff.2 fun he => by
      rw [Ring.contents_eq_nil_iff.2 he] at h; exact nomatch h
    have hc := Ring.contents_of_not_empty he
    rw [h] at hc
    obtain ⟨rfl, rfl⟩ := List.cons.inj hc
    rw [Ring.pop_of_not_empty he, Ring.peek_of_not_empty he]
    exact ⟨rfl, rfl, rfl, rfl, h, rfl⟩

end Sys2Proof.Machine
end

section
/-! PROOFS. Where the fields of the registers stand (`10_state.md` R33 to R37), from the bits of each word. -/

namespace Sys2Proof.Machine

/-- A field of a word is given by its bits. -/
theorem extractLsb'_eq {w : Word} {a n : Nat} {v : BitVec n} (h : ∀ i < n, w.getLsbD (a + i) = v.getLsbD i) :
    w.extractLsb' a n = v := by
  apply BitVec.eq_of_getLsbD_eq
  intro i hi
  rw [BitVec.getLsbD_extractLsb', h i hi]
  simp [hi]

theorem XcCtrl.fields (r : XcCtrl) :
    r.word.extractLsb' 0 3 = r.lifecycle.code ∧ r.word.getLsbD 3 = r.ext ∧ r.word.getLsbD 4 = r.txie ∧
    r.word.getLsbD 5 = r.rxie ∧ r.word.getLsbD 6 = r.abor ∧ r.word.getLsbD 7 = r.art ∧ r.word.getLsbD 8 = r.lock ∧
    r.word.extractLsb' 9 7 = 0 ∧ r.word.extractLsb' 16 8 = r.baud ∧ r.word.extractLsb' 24 8 = 0 := by
  have bits := r.getLsbD_word
  refine ⟨extractLsb'_eq fun i hi => ?_, bits 3, bits 4, bits 5, bits 6, bits 7, bits 8, extractLsb'_eq fun i hi => ?_,
    extractLsb'_eq fun i hi => ?_, extractLsb'_eq fun i hi => ?_⟩ <;> rw [bits] <;>
    simp (disch := omega) [if_pos, if_neg]

theorem XcStat.fields (r : XcStat) :
    r.word.getLsbD 0 = r.fault ∧ r.word.getLsbD 1 = r.txc ∧ r.word.extractLsb' 2 30 = 0 := by
  have bits := r.getLsbD_word
  refine ⟨bits 0, bits 1, extractLsb'_eq fun i hi => ?_⟩
  rw [bits]; simp (disch := omega) [if_neg]

theorem XcBtr.fields (r : XcBtr) : r.word.extractLsb' 0 16 = r.prescaler ∧ r.word.extractLsb' 16 8 = r.seg1 ∧
    r.word.extractLsb' 24 8 = r.seg2 := by
  have bits := r.getLsbD_word
  refine ⟨extractLsb'_eq fun i hi => ?_, extractLsb'_eq fun i hi => ?_, extractLsb'_eq fun i hi => ?_⟩ <;>
    rw [bits] <;> simp (disch := omega) [if_pos, if_neg]

theorem XcFctrl.fields (r : XcFctrl) : r.word.getLsbD 0 = r.acceptAll ∧ r.word.extractLsb' 1 7 = 0 ∧
    r.word.extractLsb' 8 8 = r.banksUsed ∧ r.word.extractLsb' 16 8 = r.nbanks ∧ r.word.extractLsb' 24 8 = 0 := by
  have bits := r.getLsbD_word
  refine ⟨bits 0, extractLsb'_eq fun i hi => ?_, extractLsb'_eq fun i hi => ?_, extractLsb'_eq fun i hi => ?_,
    extractLsb'_eq fun i hi => ?_⟩ <;> rw [bits] <;> simp (disch := omega) [if_pos, if_neg]

theorem FSlot.fields (r : FSlot) : r.word.extractLsb' 0 29 = r.id ∧ r.word.getLsbD 29 = false ∧
    r.word.getLsbD 30 = r.ext ∧ r.word.getLsbD 31 = r.valid := by
  have bits := r.getLsbD_word
  refine ⟨extractLsb'_eq fun i hi => ?_, bits 29, bits 30, bits 31⟩
  rw [bits]; simp (disch := omega) [if_pos]

/-- Settles O40: word by word. -/
theorem registerLayout : Obligations.RegisterLayout :=
  ⟨XcCtrl.fields, XcStat.fields, XcBtr.fields, XcFctrl.fields, FSlot.fields, rfl, rfl, rfl, rfl, rfl⟩

end Sys2Proof.Machine
end

section
/-! PROOFS. What a Transceiver operation leaves alone (`10_state.md` R33 to R39, `43_transceiver.md` R203 to R213,
R219). -/

namespace Sys2Proof.Machine

/-- What operation `i` of Transceiver `x` leaves of the register file `r` when it leaves `v`: each part but what the
rule of `i` writes. -/
structure XcvrFrame (x : Nat) (i : Instr) (r v : Xcvr) : Prop where
  stat : v.stat = r.stat
  wireTx : v.wireTx = r.wireTx
  slots : (∀ f, i ≠ .xcvrSend x f) → v.tx = r.tx ∧ v.txpend = r.txpend ∧ v.ctrl.lock = r.ctrl.lock
  fifos : (∀ n, i ≠ .xcvrReceive x n) → v.rxfifo = r.rxfifo
  filters : i ≠ .xcvrFilterAll x → (∀ ids e, i ≠ .xcvrFilterList x ids e) →
    v.fbank = r.fbank ∧ v.fctrl.acceptAll = r.fctrl.acceptAll ∧ v.fctrl.banksUsed = r.fctrl.banksUsed
  timing : (∀ b e, i ≠ .xcvrInit x b e) → v.btr = r.btr ∧ v.fctrl.nbanks = r.fctrl.nbanks ∧
    v.ctrl.ext = r.ctrl.ext ∧ v.ctrl.baud = r.ctrl.baud ∧ v.ctrl.abor = r.ctrl.abor ∧ v.ctrl.art = r.ctrl.art
  txie : i ≠ .xcvrTxieOn x → i ≠ .xcvrTxieOff x → v.ctrl.txie = r.ctrl.txie
  rxie : i ≠ .xcvrStart x → i ≠ .xcvrStop x → v.ctrl.rxie = r.ctrl.rxie
  lifecycle : (∃ f, i = .xcvrSend x f) ∨ (∃ n, i = .xcvrReceive x n) ∨ i = .xcvrTxieOn x ∨ i = .xcvrTxieOff x →
    v.ctrl.lifecycle = r.ctrl.lifecycle

variable {x n : Nat} {i : Instr} {r v : Xcvr} {s t u : State}

theorem XcvrFrame.refl (x : Nat) (i : Instr) (r : Xcvr) : XcvrFrame x i r r :=
  ⟨rfl, rfl, fun _ => ⟨rfl, rfl, rfl⟩, fun _ => rfl, fun _ _ => ⟨rfl, rfl, rfl⟩, fun _ => ⟨rfl, rfl, rfl, rfl, rfl, rfl⟩,
    fun _ _ => rfl, fun _ _ => rfl, fun _ => rfl⟩

/-! ### The effect of each operation -/

theorem XcvrFrame.init (p : FamilyParams) (pre b : Nat) (e : Bool) (r : Xcvr) :
    XcvrFrame x (.xcvrInit x b e) r (r.init p pre b e) :=
  { XcvrFrame.refl x (.xcvrInit x b e) r with
    timing := fun h => absurd rfl (h b e)
    lifecycle := fun h => by simp at h }

theorem XcvrFrame.start (r : Xcvr) : XcvrFrame x (.xcvrStart x) r r.start :=
  { XcvrFrame.refl x (.xcvrStart x) r with
    rxie := fun h => absurd rfl h
    lifecycle := fun h => by simp at h }

theorem XcvrFrame.stop (r : Xcvr) : XcvrFrame x (.xcvrStop x) r r.stop :=
  { XcvrFrame.refl x (.xcvrStop x) r with
    rxie := fun _ h => absurd rfl h
    lifecycle := fun h => by simp at h }

theorem XcvrFrame.filterAll (p : FamilyParams) (hi : i = .xcvrFilterAll x ∨ ∃ ids e, i = .xcvrFilterList x ids e)
    (r : Xcvr) : XcvrFrame x i r (r.filterAll p) :=
  { XcvrFrame.refl x i r with
    filters := fun h1 h2 => by
      obtain h | ⟨ids, e, h⟩ := hi
      · exact absurd h h1
      · exact absurd h (h2 ids e)
    lifecycle := fun h => by obtain rfl | ⟨ids, e, rfl⟩ := hi <;> simp at h }

theorem XcvrFrame.filterBy (p : FamilyParams) (ids : List Word) (e : Bool) (r : Xcvr) :
    XcvrFrame x (.xcvrFilterList x ids e) r (r.filterBy p e ids) := by
  unfold Xcvr.filterBy
  split
  · exact .filterAll p (.inr ⟨ids, e, rfl⟩) r
  · exact { XcvrFrame.refl x (.xcvrFilterList x ids e) r with
      filters := fun _ h => absurd rfl (h ids e)
      lifecycle := fun h => by simp at h }

theorem XcvrFrame.send (c : Config) (f : FrameRef) (g : Frame) (r : Xcvr) :
    XcvrFrame x (.xcvrSend x f) r (r.send c g).2 := by
  unfold Xcvr.send
  split
  · exact .refl ..
  · split
    · exact .refl ..
    · exact { XcvrFrame.refl x (.xcvrSend x f) r with slots := fun h => absurd rfl (h f) }

theorem XcvrFrame.receive (l : List Element) (r : Xcvr) :
    XcvrFrame x (.xcvrReceive x n) r { r with rxfifo := r.rxfifo.set n l } :=
  { XcvrFrame.refl x (.xcvrReceive x n) r with fifos := fun h => absurd rfl (h n) }

theorem XcvrFrame.setTxie (b : Bool) (hi : i = .xcvrTxieOn x ∨ i = .xcvrTxieOff x) (r : Xcvr) :
    XcvrFrame x i r (r.setTxie b) :=
  { XcvrFrame.refl x i r with
    txie := fun h1 h2 => by
      obtain h | h := hi
      · exact absurd h h1
      · exact absurd h h2 }

/-! ### The calls -/

/-- A call made for operation `i` leaves one register file, and the draws, which `XCVR.SEND` and the interrupt enables
do not touch. -/
def XcvrCall (x : Nat) (i : Instr) (s u : State) : Prop :=
  ∃ r v d, s.xcvrs[x]? = some r ∧ u = (s.setDraws d).setXcvr x v ∧ XcvrFrame x i r v ∧
    ((∃ f, i = .xcvrSend x f) ∨ i = .xcvrTxieOn x ∨ i = .xcvrTxieOff x → d = s.draws)

theorem XcvrCall.refl (hr : s.xcvrs[x]? = some r) : XcvrCall x i s s :=
  ⟨r, r, s.draws, hr, (State.setXcvr_self hr).symm, .refl x i r, fun _ => rfl⟩

/-- The five configuration operations: a failed one leaves `LIFECYCLE` written (`43_transceiver.md` R202). -/
theorem XcvrCall.configure {op : XcvrOp} {effect : Xcvr → Xcvr} {st : Status}
    (hi : ¬((∃ f, i = .xcvrSend x f) ∨ (∃ n, i = .xcvrReceive x n) ∨ i = .xcvrTxieOn x ∨ i = .xcvrTxieOff x))
    (he : ∀ r, XcvrFrame x i r (effect r)) (h : configure op x effect s = .ok (st, u)) : XcvrCall x i s u := by
  have hd : ∀ {d : Draws}, (∃ f, i = .xcvrSend x f) ∨ i = .xcvrTxieOn x ∨ i = .xcvrTxieOff x → d = s.draws :=
    fun h => absurd (h.imp_right .inr) hi
  obtain ⟨r, hr, ⟨-, -, rfl⟩ | ⟨-, -, -, rfl⟩ | ⟨-, -, -, rfl⟩⟩ := configure_cases h
  · exact .refl hr
  · exact ⟨r, effect r, _, hr, rfl, he r, hd⟩
  · exact ⟨r, r.setLifecycle .failed, _, hr, rfl, { XcvrFrame.refl x i r with lifecycle := fun h => absurd h hi }, hd⟩

theorem XcvrCall.send {f : FrameRef} {g : Frame} {st : Status} (h : callXcvrSend x g s = .ok (st, u)) :
    XcvrCall x (.xcvrSend x f) s u := by
  obtain ⟨r, hr, ⟨-, -, rfl⟩ | ⟨-, -, rfl⟩⟩ := callXcvrSend_cases h
  · exact .refl hr
  · exact ⟨r, _, s.draws, hr, rfl, .send s.cfg f g r, fun _ => rfl⟩

theorem XcvrCall.receive {p : Status × Option Frame} (h : callXcvrReceive x n s = .ok (p, u)) :
    XcvrCall x (.xcvrReceive x n) s u := by
  obtain ⟨r, hr, ⟨-, -, rfl⟩ | ⟨-, q, -, ⟨-, -, rfl⟩ | ⟨-, -, -, rfl⟩ | ⟨-, e, l, -, -, rfl⟩⟩⟩ :=
    callXcvrReceive_cases h
  · exact .refl hr
  · exact .refl hr
  · exact .refl hr
  · exact ⟨r, _, _, hr, rfl, .receive l r, fun h => by simp at h⟩

theorem XcvrCall.txie {b : Bool} {y : Unit} (hi : i = .xcvrTxieOn x ∨ i = .xcvrTxieOff x)
    (h : callXcvrTxie b x s = .ok (y, u)) : XcvrCall x i s u := by
  obtain ⟨r, hr, ⟨-, rfl⟩ | ⟨-, -, rfl⟩⟩ := callXcvrTxie_cases h
  · exact .refl hr
  · exact ⟨r, _, s.draws, hr, rfl, .setTxie b hi r, fun _ => rfl⟩

/-! ### The operations -/

/-- The nine Transceiver operations of Transceiver `x` (`30_encoding.md` R91, unit 3). -/
def IsXcvrOp (x : Nat) (i : Instr) : Prop :=
  (∃ b e, i = .xcvrInit x b e) ∨ i = .xcvrStart x ∨ i = .xcvrStop x ∨ i = .xcvrFilterAll x ∨
    (∃ ids e, i = .xcvrFilterList x ids e) ∨ (∃ f, i = .xcvrSend x f) ∨ (∃ n, i = .xcvrReceive x n) ∨
    i = .xcvrTxieOn x ∨ i = .xcvrTxieOff x

/-- A Transceiver operation is its call, and then delivers a result. -/
theorem exec_xcvrCall (hi : IsXcvrOp x i) (h : exec i s = .next t) :
    ∃ u res, XcvrCall x i s u ∧ t = u.returns res := by
  obtain ⟨b, e, rfl⟩ | rfl | rfl | rfl | ⟨ids, e, rfl⟩ | ⟨f, rfl⟩ | ⟨n, rfl⟩ | rfl | rfl := hi
  · obtain ⟨st, u, hu, rfl⟩ := answer_eq_next h
    unfold callXcvrInit at hu
    split at hu
    · exact nomatch hu
    · exact ⟨u, _, .configure (by simp) (.init _ _ b e) hu, rfl⟩
  · obtain ⟨st, u, hu, rfl⟩ := answer_eq_next h
    exact ⟨u, _, .configure (by simp) .start hu, rfl⟩
  · obtain ⟨st, u, hu, rfl⟩ := answer_eq_next h
    exact ⟨u, _, .configure (by simp) .stop hu, rfl⟩
  · obtain ⟨st, u, hu, rfl⟩ := answer_eq_next h
    exact ⟨u, _, .configure (by simp) (.filterAll _ (.inl rfl)) hu, rfl⟩
  · obtain ⟨st, u, hu, rfl⟩ := answer_eq_next h
    exact ⟨u, _, .configure (by simp) (.filterBy _ ids e) hu, rfl⟩
  · simp only [exec, execXcvrSend] at h
    split at h
    · exact nomatch h
    · obtain ⟨st, u, hu, rfl⟩ := answer_eq_next h
      exact ⟨u, _, .send hu, rfl⟩
  · simp only [exec, execXcvrReceive] at h
    obtain ⟨p, u, hu, rfl⟩ := answer_eq_next h
    exact ⟨u, _, .receive hu, rfl⟩
  · simp only [exec, execXcvrTxieOn] at h
    obtain ⟨_, u, hu, rfl⟩ := answer_eq_next h
    exact ⟨u, _, .txie (.inl rfl) hu, rfl⟩
  · simp only [exec, execXcvrTxieOff] at h
    obtain ⟨_, u, hu, rfl⟩ := answer_eq_next h
    exact ⟨u, _, .txie (.inr rfl) hu, rfl⟩

/-- Settles O39: one register file is replaced by one that `XcvrFrame` relates to it, and a result delivered. -/
theorem transceiverOperationsFrame : Obligations.TransceiverOperationsFrame := by
  intro s t x i hi h
  obtain ⟨u, res, ⟨r, v, d, hr, rfl, hv, hd⟩, rfl⟩ := exec_xcvrCall hi h
  refine ⟨.returns (.of_block rfl) res, .returns rfl res, .returns rfl res, by simp, by simp, by simp, fun y hy => ?_,
    fun hw => by simp [hd hw], fun r0 r' hr0 hr' => ?_⟩
  · rw [State.returns_xcvrs]
    exact State.setXcvr_get_other (s := s.setDraws d) v hy
  · rw [hr] at hr0; cases hr0
    rw [State.returns_xcvrs, State.setXcvr_get (s := s.setDraws d) hr] at hr'; cases hr'
    exact ⟨hv.stat, hv.wireTx, hv.slots, hv.fifos, hv.filters, hv.timing, hv.txie, hv.rxie, hv.lifecycle⟩

end Sys2Proof.Machine
end

section
/-! PROOFS. No operation takes a Channel backward (`10_state.md` R42, R43, `45_channel.md` R271). -/

namespace Sys2Proof.Machine

/-- From `k` to `k'` a Channel has not gone backward. -/
structure Chan.Forward (k k' : Chan) : Prop where
  rank : k.state.rank ≤ k'.state.rank
  failed : k.state = .failed → k'.state = .failed
  drop : k.dropCount ≤ k'.dropCount

/-- From `s` to `t` no Channel has gone backward. -/
def State.Forward (s t : State) : Prop :=
  ∀ (c : Nat) (k k' : Chan), s.chans[c]? = some k → t.chans[c]? = some k' → k.Forward k'

variable {k k' : Chan} {s t : State} {c : Nat} {w : ChanWrites}

theorem Chan.Forward.of_state (hs : k'.state = k.state) (hd : k.dropCount ≤ k'.dropCount) : k.Forward k' :=
  ⟨by rw [hs], hs.trans, hd⟩

theorem Chan.Forward.refl (k : Chan) : k.Forward k := .of_state rfl (Nat.le_refl _)

/-- A Channel that is `Uninitialized` has no state before it. -/
theorem Chan.Forward.of_uninitialized (hs : k.state = .uninitialized) (hd : k.dropCount ≤ k'.dropCount) : k.Forward k' :=
  ⟨by rw [hs]; exact Nat.zero_le _, fun h => (nomatch hs.symm.trans h), hd⟩

/-- `CHAN.START` from `FilterConfigured` (`45_channel.md` R273). -/
theorem Chan.Forward.of_started (hs : k.state = .filterConfigured) (hs' : k'.state = .running ∨ k'.state = .failed)
    (hd : k.dropCount ≤ k'.dropCount) : k.Forward k' :=
  ⟨by obtain h | h := hs' <;> rw [hs, h] <;> decide, fun h => (nomatch hs.symm.trans h), hd⟩

theorem State.Forward.of_chans (h : t.chans = s.chans) : s.Forward t := fun c k k' hk hk' => by
  rw [h, hk] at hk'; cases hk'; exact .refl k

theorem State.Forward.returns (h : s.Forward t) (r : OpResult) : s.Forward (t.returns r) := fun c k k' hk hk' =>
  h c k k' hk (by rw [← State.returns_chans]; exact hk')

/-- An operation of Channel `c`: the others are as before. -/
theorem OnlyChan.forward (h : OnlyChan w c s t)
    (hc : ∀ k k', s.chans[c]? = some k → t.chans[c]? = some k' → k.Forward k') : s.Forward t := fun j k k' hk hk' => by
  by_cases hj : j = c
  · subst hj; exact hc k k' hk hk'
  · rw [h.other j hj, hk] at hk'; cases hk'; exact .refl k

theorem OnlyChan.drop_eq (h : OnlyChan w c s t) (hw : w.drop = false) (hk : s.chans[c]? = some k)
    (hk' : t.chans[c]? = some k') : k'.dropCount = k.dropCount := by
  obtain ⟨k1, h1, -, -, hd, -⟩ := h.self k hk
  rw [h1] at hk'; cases hk'; exact hd hw

theorem OnlyChan.state_eq (h : OnlyChan w c s t) (hw : w.state = false) (hk : s.chans[c]? = some k)
    (hk' : t.chans[c]? = some k') : k'.state = k.state := by
  obtain ⟨k1, h1, -, -, -, -, hs, -⟩ := h.self k hk
  rw [h1] at hk'; cases hk'; exact hs hw

/-! ### The calls -/

theorem callChanInit_forward {baud : Nat} {ext : Bool} {fl : Filter} {st : Status}
    (h : callChanInit c baud ext fl s = .ok (st, t)) : s.Forward t := by
  obtain ⟨ho, -, hs⟩ := callChanInit_only h
  refine ho.forward fun k k' hk hk' => ?_
  obtain rfl | hs := hs k k' hk hk'
  · exact .refl _
  · exact .of_uninitialized hs (ho.drop_eq rfl hk hk').ge

theorem callChanStart_forward {st : Status} (h : callChanStart c s = .ok (st, t)) : s.Forward t := by
  obtain ⟨ho, -, hs⟩ := callChanStart_only h
  refine ho.forward fun k k' hk hk' => ?_
  obtain rfl | ⟨hs, hs'⟩ := hs k k' hk hk'
  · exact .refl _
  · exact .of_started hs hs' (ho.drop_eq rfl hk hk').ge

theorem callChanSend_forward {f : Frame} {st : Status} (h : callChanSend c f s = .ok (st, t)) : s.Forward t := by
  obtain ⟨ho, hd, -⟩ := callChanSend_only h
  exact ho.forward fun k k' hk hk' => .of_state (ho.state_eq rfl hk hk') (hd k k' hk hk')

/-- An operation that may write neither the state nor the drop counter. -/
theorem OnlyChan.forward_of_kept (h : OnlyChan w c s t) (hs : w.state = false) (hd : w.drop = false) : s.Forward t :=
  h.forward fun _ _ hk hk' => .of_state (h.state_eq hs hk hk') (h.drop_eq hd hk hk').ge

theorem answer_forward {α : Type} {r : Reply α} {f : α → OpResult} (h : answer r f = .next t)
    (hr : ∀ a u, r = .ok (a, u) → s.Forward u) : s.Forward t := by
  obtain ⟨a, u, hu, rfl⟩ := answer_eq_next h
  exact (hr a u hu).returns _

/-! ### The operations -/

theorem XcvrCall.chans {x : Nat} {i : Instr} (h : XcvrCall x i s t) : t.chans = s.chans := by
  obtain ⟨r, v, d, -, rfl, -⟩ := h
  rfl

theorem IsXcvrOp.forward {x : Nat} {i : Instr} (hi : IsXcvrOp x i) (h : exec i s = .next t) : s.Forward t := by
  obtain ⟨u, res, hu, rfl⟩ := exec_xcvrCall hi h
  exact (State.Forward.of_chans hu.chans).returns res

/-- Every operation whole: only the Channel operations reach a Channel. -/
theorem exec_forward {i : Instr} (h : exec i s = .next t) : s.Forward t := by
  have same : ∀ {u : State} {r : OpResult}, u.chans = s.chans → s.Forward (u.returns r) := fun hu =>
    (State.Forward.of_chans hu).returns _
  cases i with
  | frameNew id len d ext => cases h; exact same rfl
  | frameFromRx h0 h1 dl dh => cases h; exact same rfl
  | frameTxhdr f => obtain ⟨g, -, rfl⟩ := execFrameTxhdr_cases h; exact same rfl
  | frameHex f buf => obtain ⟨g, -, -, rfl⟩ := execFrameHex_cases h; exact same rfl
  | frameSetts f n => obtain ⟨g, -, -, rfl⟩ := execFrameSetts_cases h; exact same rfl
  | lvsPush l v => obtain ⟨q, w, -, -, -, rfl⟩ := execLvsPush_cases h; exact same rfl
  | lvsPop l => obtain ⟨q, -, -, rfl⟩ := execLvsPop_cases h; exact same rfl
  | lvsRead l => obtain ⟨q, v, -, -, -, rfl⟩ := execLvsRead_cases h; exact same rfl
  | ringPush r v => obtain ⟨q, w, -, -, -, rfl⟩ := execRingPush_cases h; exact same rfl
  | ringPop r => obtain ⟨q, -, -, rfl⟩ := execRingPop_cases h; exact same rfl
  | ringPeek r => obtain ⟨q, -, -, rfl⟩ := execRingPeek_cases h; exact same rfl
  | ringRead r => obtain ⟨q, v, -, -, -, rfl⟩ := execRingRead_cases h; exact same rfl
  | xcvrInit x _ _ | xcvrStart x | xcvrStop x | xcvrFilterAll x | xcvrFilterList x _ _ | xcvrSend x _ | xcvrReceive x _
  | xcvrTxieOn x | xcvrTxieOff x => exact IsXcvrOp.forward (x := x) (by simp [IsXcvrOp]) h
  | chanInit c b e fl => exact answer_forward h fun _ _ => callChanInit_forward
  | chanStart c => exact answer_forward h fun _ _ => callChanStart_forward
  | chanSend c f =>
    simp only [exec, execChanSend] at h
    split at h
    · exact nomatch h
    · exact answer_forward h fun _ _ => callChanSend_forward
  | chanTxDrain c =>
    simp only [exec, execChanTxDrain] at h
    exact answer_forward h fun _ _ hu => (callChanTxDrain_only hu).forward_of_kept rfl rfl
  | chanReceive c =>
    simp only [exec, execChanReceive] at h
    exact answer_forward h fun _ _ hu => (callChanReceive_only hu).forward_of_kept rfl rfl

/-- Settles O48: no operation takes a Channel backward. -/
theorem channelHasNoBackwardTransition : Obligations.ChannelHasNoBackwardTransition := by
  intro s t i c k k' h hk hk'
  obtain ⟨hrank, hfailed, hdrop⟩ := exec_forward h c k k' hk hk'
  exact ⟨hrank, hfailed, hdrop⟩

end Sys2Proof.Machine
end

section
/-! PROOFS. The inputs that are dropped because it is not their turn, and critical sections (`20_memory.md` R71, R72,
`60_exceptions.md` R308, R314). -/

namespace Sys2Proof.Machine

variable {s : State} {c : Ctx}

/-! ### Whose turn it is -/

theorem State.mainMayMove_eq_false (h : s.hook ≠ none ∨ s.isr.task ≠ none) : s.mainMayMove = false := by
  simpa [State.mainMayMove, Option.ne_none_iff_isSome, imp_iff_not_or] using h

theorem State.mayBegin_main_eq_false (h : s.hook ≠ none ∨ s.isr.task ≠ none) : s.mayBegin .main = false := by
  rw [State.mayBegin, State.mainMayMove_eq_false h, Bool.false_and]

/-- Main at its turn and between operations. -/
theorem State.mayBegin_main (hh : s.hook = none) (hi : s.isr.task = none) (hm : s.main.task = none) :
    s.mayBegin .main = true := by
  simp [State.mayBegin, State.mainMayMove, hh, hi, hm]

/-- Outside the hooks a critical section holds off the operations of the ISR context (log entry 17). -/
theorem State.mayBegin_isr_eq_false (hm : s.masked = true) (hh : s.hook = none) : s.mayBegin .isr = false := by
  simp [State.mayBegin, State.isrMayBegin, hm, hh]

/-- A hook, an operation of the ISR context and a critical section each hold a hook off. -/
theorem State.canEnterHook_eq_false (h : (s.hook ≠ none ∨ s.isr.task ≠ none) ∨ s.masked = true) :
    s.canEnterHook = false := by
  rw [State.canEnterHook, ← State.mainMayMove]
  obtain h | h := h
  · rw [State.mainMayMove_eq_false h, Bool.false_and]
  · rw [h, Bool.not_true, Bool.and_false]

/-! ### Inputs that are dropped (log entry 16) -/

theorem runInvoke_of_not_turn (h : s.mayBegin c = false) (code : Byte) (o : Operands) :
    runInvoke c code o s = .next s := by
  simp [runInvoke, h]

theorem runStart_of_not_turn (h : s.mayBegin c = false) (code : Byte) (o : Operands) :
    runStart c code o s = .next s := by
  simp [runStart, h]

theorem runTask_of_not_turn (h : s.mayAdvance c = false) (n : Nat) : runTask n c s = .next s := by
  unfold runTask
  split
  · rfl
  · rw [if_neg (by simp [h])]

theorem runIrqTx_of_held_off (h : s.canEnterHook = false) (n : Nat) : runIrqTx n s = s := by
  unfold runIrqTx
  split
  · rfl
  · split
    · rfl
    · rw [if_neg (by simp [h])]

theorem runIrqRx_of_held_off (h : s.canEnterHook = false) (n f : Nat) : runIrqRx n f s = s := by
  unfold runIrqRx
  split
  · rfl
  · split
    · rfl
    · rw [if_neg (by simp [h])]

/-- Neither request is served while hooks are held off. -/
theorem step_irq_of_held_off {rest : List Event} (hw : s.cfg.wf = true)
    (h : ({ s with schedule := rest } : State).canEnterHook = false) {n f : Nat}
    (hs : s.schedule = .irqTx n :: rest ∨ s.schedule = .irqRx n f :: rest) :
    step s = .next { s with schedule := rest } := by
  obtain hs | hs := hs
  · exact (step_of_cons hw hs).trans (congrArg _ (runIrqTx_of_held_off h n))
  · exact (step_of_cons hw hs).trans (congrArg _ (runIrqRx_of_held_off h n f))

/-- A context that may begin no operation begins none. -/
theorem step_begin_of_not_turn {rest : List Event} (hw : s.cfg.wf = true)
    (h : ({ s with schedule := rest } : State).mayBegin c = false) {code : Byte} {o : Operands}
    (hs : s.schedule = .invoke c code o :: rest ∨ s.schedule = .start c code o :: rest) :
    step s = .next { s with schedule := rest } := by
  obtain hs | hs := hs
  · exact (step_of_cons hw hs).trans (runInvoke_of_not_turn h code o)
  · exact (step_of_cons hw hs).trans (runStart_of_not_turn h code o)

/-- A context that may not move takes no step of its operation. -/
theorem step_advance_of_not_turn {rest : List Event} (hw : s.cfg.wf = true)
    (h : ({ s with schedule := rest } : State).mayAdvance c = false)
    (hs : s.schedule = .advance c :: rest ∨ s.schedule = .finish c :: rest) :
    step s = .next { s with schedule := rest } := by
  obtain hs | hs := hs
  · exact (step_of_cons hw hs).trans (runTask_of_not_turn h 1)
  · exact (step_of_cons hw hs).trans (runTask_of_not_turn h Task.bound)

/-- Settles O55: each input is one whose context is not at its turn, or a request held off. -/
theorem mainWaitsAndHooksDoNotNest : Obligations.MainWaitsAndHooksDoNotNest := by
  intro s rest hw u
  refine ⟨fun h => ⟨fun code o => ?_, ?_, fun c n => ?_⟩, fun hm hh => ⟨fun c n => ?_, fun code o => ?_⟩⟩
  · exact step_begin_of_not_turn hw (State.mayBegin_main_eq_false (s := u) h)
  · exact step_advance_of_not_turn hw (State.mainMayMove_eq_false (s := u) h)
  · exact step_irq_of_held_off hw (State.canEnterHook_eq_false (s := u) (.inl h))
  · exact step_irq_of_held_off hw (State.canEnterHook_eq_false (s := u) (.inr hm))
  · exact step_begin_of_not_turn hw (State.mayBegin_isr_eq_false (s := u) hm hh)

/-! ### Critical sections (`20_memory.md` R72) -/

theorem step_enterCritical {rest : List Event} (hw : s.cfg.wf = true) (hh : s.hook = none) (hi : s.isr.task = none)
    (hm : s.main.task = none) (hs : s.schedule = .enterCritical :: rest) :
    step s = .next { s with schedule := rest, masked := true, saved := s.masked :: s.saved } :=
  (step_of_cons hw hs).trans (congrArg Host.Outcome.next (if_pos (State.mayBegin_main hh hi hm)))

theorem step_leaveCritical {rest : List Event} {m : Bool} {l : List Bool} (hw : s.cfg.wf = true) (hh : s.hook = none)
    (hi : s.isr.task = none) (hm : s.main.task = none) (hs : s.schedule = .leaveCritical :: rest)
    (hl : s.saved = m :: l) : step s = .next { s with schedule := rest, masked := m, saved := l } := by
  have turn : ({ s with schedule := rest } : State).mayBegin .main = true := State.mayBegin_main hh hi hm
  rw [step_of_cons hw hs, runEvent, runLeaveCritical, if_pos turn]
  simp only [hl]

/-- Settles O56: the end takes back the mask state that the entry has put on top of the saved ones. -/
theorem criticalSectionRestores : Obligations.CriticalSectionRestores := by
  intro s rest hw hh hi hm hs u
  refine ⟨step_enterCritical hw hh hi hm hs, fun rest' hr => ?_⟩
  exact step_leaveCritical (s := { u with masked := true, saved := s.masked :: s.saved }) hw hh hi hm hr rfl

end Sys2Proof.Machine
end

section
/-! PROOFS. What a LatestValueSlot operation leaves alone (`20_memory.md` R60, `10_state.md` R28). -/

namespace Sys2Proof.Machine

variable {s t : State} {l : Nat} {i : Instr}

/-- What operation `i` of LatestValueSlot `l` leaves of it: `q` before, `p` after. -/
structure LvsFrame (l : Nat) (i : Instr) (q p : Lvs Value) : Prop where
  roles : p.roles = q.roles
  read : i = .lvsRead l → p = q
  push : (∃ r, i = .lvsPush l r) → q.producing ≠ q.consuming →
    p.consuming = q.consuming ∧ p.cells.get p.consuming = q.cells.get q.consuming
  pop : i = .lvsPop l → p.cells = q.cells ∧ p.producing = q.producing

/-- The producer writes the producing cell, and exchanges it with the transfer cell. -/
theorem LvsFrame.of_push (r : ValueRef) (v : Value) (q : Lvs Value) : LvsFrame l (.lvsPush l r) q (q.push v) where
  roles := rfl
  read := fun h => nomatch h
  push := fun _ hd => ⟨rfl, (q.cells.get_set q.producing q.consuming (some v)).trans (if_neg hd.symm)⟩
  pop := fun h => nomatch h

/-- The consumer exchanges the transfer cell with the consuming cell, or does nothing. -/
theorem LvsFrame.of_pop (q : Lvs Value) : LvsFrame l (.lvsPop l) q q.pop.2 where
  roles := LvsTask.step_roles .fused .popTest q
  read := fun h => nomatch h
  push := fun h => nomatch h
  pop := fun _ => by
    unfold Lvs.pop
    split <;> exact ⟨rfl, rfl⟩

theorem LvsFrame.of_read (q : Lvs Value) : LvsFrame l (.lvsRead l) q q where
  roles := rfl
  read := fun _ => rfl
  push := fun _ _ => ⟨rfl, rfl⟩
  pop := fun _ => ⟨rfl, rfl⟩

/-- A LatestValueSlot operation replaces the one it names, and then delivers a result. -/
theorem exec_lvsFrame (hi : (∃ r, i = .lvsPush l r) ∨ i = .lvsPop l ∨ i = .lvsRead l) (h : exec i s = .next t) :
    ∃ q p res, s.lvs[l]? = some q ∧ t = (s.setLvs l p).returns res ∧ LvsFrame l i q p := by
  obtain ⟨r, rfl⟩ | rfl | rfl := hi
  · obtain ⟨q, v, hq, -, -, rfl⟩ := execLvsPush_cases h
    exact ⟨q, _, _, hq, rfl, .of_push r v q⟩
  · obtain ⟨q, hq, -, rfl⟩ := execLvsPop_cases h
    exact ⟨q, _, _, hq, rfl, .of_pop q⟩
  · obtain ⟨q, v, hq, -, -, rfl⟩ := execLvsRead_cases h
    exact ⟨q, q, _, hq, by rw [State.setLvs_self hq], .of_read q⟩

/-- Settles O20: one LatestValueSlot is replaced by one that `LvsFrame` relates to it, and a result delivered. -/
theorem lvsOperationsFrame : Obligations.LvsOperationsFrame := by
  intro s t l i hi h
  obtain ⟨q, p, res, hq, rfl, hp⟩ := exec_lvsFrame hi h
  refine ⟨.returns (.of_block rfl) res, .returns rfl res, .returns rfl res, by simp, by simp, by simp, by simp,
    fun j hj => ?_, fun hr => ?_, fun q' p' hq' hp' => ?_⟩
  · rw [State.returns_lvs]
    exact State.setLvs_get_other p hj
  · rw [hp.read hr, State.setLvs_self hq, State.returns_lvs]
  · rw [hq] at hq'; cases hq'
    rw [State.returns_lvs, State.setLvs_get hq] at hp'; cases hp'
    exact ⟨hp.roles, hp.push, hp.pop⟩

end Sys2Proof.Machine
end

section
/-! PROOFS. An operation taken step by step, with no other agent's step between, ends as the operation run whole
(`20_memory.md` R68, R70, R75, `42_bounded_ring.md` R189; log entry 14). -/

namespace Sys2Proof.Machine

/-! ### Ending within a number of steps -/

/-- What is left of an operation ends as `e` after at most `k` more steps with no other agent's step between. -/
inductive TaskOutcome.Ends : Nat → TaskOutcome → Host.Outcome State Fault Refusal → Prop
  | done {k : Nat} {s : State} : TaskOutcome.Ends k (.done s) (.next s)
  | refused {k : Nat} {r : Refusal} : TaskOutcome.Ends k (.refused r) (.refused r)
  | step {k : Nat} {t : Task} {s : State} {e : Host.Outcome State Fault Refusal} (h : TaskOutcome.Ends k (t.step s) e) :
      TaskOutcome.Ends (k + 1) (.more t s) e

namespace TaskOutcome.Ends

variable {j k : Nat} {s : State} {o : TaskOutcome} {e : Host.Outcome State Fault Refusal}

theorem mono (h : o.Ends k e) (hk : k ≤ j) : o.Ends j e := by
  induction h generalizing j with
  | done => exact .done
  | refused => exact .refused
  | step _ ih =>
    obtain ⟨m, rfl⟩ : ∃ m, j = m + 1 := ⟨j - 1, by omega⟩
    exact .step (ih (by omega))

/-- The step of an operation that is one atomic unit is its meaning. -/
theorem whole (i : Instr) (s : State) : (TaskOutcome.more (.whole i) s).Ends 1 (exec i s) := by
  refine .step ?_
  simp only [Task.step]
  cases exec i s with
  | next t => exact .done
  | refused r => exact .refused
  | fault f => exact nomatch f

/-! ### The parts of a step -/

variable {c : Nat} {ch : Chan}

theorem withChan {f : Chan → TaskOutcome} (hc : s.chans[c]? = some ch) (h : (f ch).Ends k e) :
    (withChan c s f).Ends k e := by
  simpa only [Machine.withChan, hc] using h

theorem testLine {α : Type} {a : Option α} {v : α} {r : Refusal} {f : α → TaskOutcome} (ha : a = some v)
    (h : (f v).Ends k e) : (testLine a r f).Ends k e := by
  subst ha; exact h

theorem testLine_none {α : Type} {a : Option α} {r : Refusal} {f : α → TaskOutcome} (ha : a = none) :
    (Machine.testLine a r f).Ends k (.refused r) := by
  subst ha; exact .refused

/-- An inner call, then what follows it, in the steps and in the operation run whole. -/
theorem callStep {α β : Type} {r : Reply α} {f : α → State → TaskOutcome} {g : α → State → Reply β}
    {res : β → OpResult} (h : ∀ a u, r = .ok (a, u) → (f a u).Ends k (answer (g a u) res)) :
    (callStep r f).Ends k (answer (Reply.andThen r g) res) := by
  cases r with
  | ok p => exact h p.1 p.2 rfl
  | error e => exact .refused

/-- A test of an inner call's result, in the choice of what is left to do and in the operation run whole. -/
theorem more_ite {α : Type} {p : Prop} [Decidable p] {t u : Task} {x y : Reply α} {res : α → OpResult}
    (hp : (TaskOutcome.more t s).Ends k (answer x res)) (hn : (TaskOutcome.more u s).Ends k (answer y res)) :
    (TaskOutcome.more (if p then t else u) s).Ends k (answer (if p then x else y) res) := by
  by_cases h : p
  · rw [if_pos h, if_pos h]; exact hp
  · rw [if_neg h, if_neg h]; exact hn

/-- An inner call whose result is the operation's. -/
theorem lastCall {α : Type} (r : Reply α) (res : α → OpResult) :
    (Machine.callStep r fun a u => endWith u (res a)).Ends k (answer r res) := by
  cases r with
  | ok p => exact .done
  | error e => exact .refused

end TaskOutcome.Ends

/-! ### Operations on a part of the state: a LatestValueSlot, a BoundedRing, a retry ring -/

/-- An operation on a container `q`, whose steps are `step`, ends within `k` steps with the result `b` and leaves `q'`. -/
inductive PartEnds {σ τ β : Type} (step : τ → σ → σ × (τ ⊕ β)) : Nat → τ → σ → β → σ → Prop
  | last {k : Nat} {t : τ} {q q' : σ} {b : β} (h : step t q = (q', .inr b)) : PartEnds step (k + 1) t q b q'
  | head {k : Nat} {t u : τ} {q q₁ q' : σ} {b : β} (h : step t q = (q₁, .inl u)) (rest : PartEnds step k u q₁ b q') :
      PartEnds step (k + 1) t q b q'

/-- `S q` is the state whose part is `q`; `W` wraps what is left of the operation on the part, `d` takes its result. -/
theorem PartEnds.lift {σ τ β : Type} {step : τ → σ → σ × (τ ⊕ β)} (S : σ → State) (W : τ → Task)
    {d : β → State → TaskOutcome} {m k : Nat} {t : τ} {q q' : σ} {b : β} {e : Host.Outcome State Fault Refusal}
    (hmore : ∀ {t u p p'}, step t p = (p', .inl u) → (W t).step (S p) = .more (W u) (S p'))
    (hlast : ∀ {t p p' b}, step t p = (p', .inr b) → (W t).step (S p) = d b (S p'))
    (h : PartEnds step k t q b q') (hd : (d b (S q')).Ends m e) : (TaskOutcome.more (W t) (S q)).Ends (m + k) e := by
  induction h with
  | last h =>
    refine .step ?_
    rw [hlast h]
    exact hd.mono (Nat.le_add_right _ _)
  | head h _ ih =>
    refine .step ?_
    rw [hmore h]
    exact ih hd

/-! ### The LatestValueSlot operations (`41_latest_value_slot.md` R161 to R163, R168) -/

section
variable {α : Type}

theorem Cells3.set_set (c : Cells3 α) (i : Fin 3) (a b : Option α) : (c.set i a).set i b = c.set i b := by
  unfold Cells3.set
  split <;> rfl

theorem Lvs.setProducing_setProducing (q : Lvs α) (a b : Option α) :
    (q.setProducing a).setProducing b = q.setProducing b := by
  simp only [Lvs.setProducing, Cells3.set_set]

theorem Lvs.push_ends (a : LvsAtomicity) (q : Lvs α) (v : α) :
    PartEnds (LvsTask.step a) 4 (.pushOpen v) q .nothing (q.push v) := by
  refine .head rfl (.head rfl ?_)
  rw [Lvs.setProducing_setProducing]
  cases a with
  | fused => exact .last rfl
  | split => exact .head rfl (.last rfl)

theorem Lvs.pop_ends (a : LvsAtomicity) (q : Lvs α) :
    PartEnds (LvsTask.step a) 3 .popTest q (.bool q.pop.1) q.pop.2 := by
  cases a with
  | fused => exact .last rfl
  | split =>
    unfold Lvs.pop
    split
    · rename_i hs
      exact .last (if_pos hs)
    · rename_i hs
      exact .head (if_neg hs) (.head rfl (.last rfl))

/-! ### The BoundedRing operations (`42_bounded_ring.md` R181 to R184) -/

theorem Ring.push_ends (q : Ring α) (v : α) : PartEnds RingTask.step 5 (.pushFront v) q (q.push v).1 (q.push v).2 := by
  refine .head rfl ?_
  unfold Ring.push
  split
  · rename_i hf
    exact .last (if_pos (by simpa [Ring.isFull, Fin.ext_iff] using hf))
  · rename_i hf
    refine .head (if_neg (by simpa [Ring.isFull, Fin.ext_iff] using hf)) (.head (RingTask.step_pushOpen q v _) ?_)
    refine .head (RingTask.step_pushWrite (q.setCell q.back none) v _) ?_
    rw [Ring.setCell_back, Ring.setCell_setCell]
    exact .last (RingTask.step_pushPublish (q.setCell q.back (some v)))

theorem Ring.pop_ends (q : Ring α) : PartEnds RingTask.step 4 .popFront q q.pop.1 q.pop.2 := by
  refine .head rfl ?_
  unfold Ring.pop
  split
  · rename_i he
    exact .last (if_pos (by simpa [Ring.isEmpty, Fin.ext_iff] using he))
  · rename_i he
    refine .head (if_neg (by simpa [Ring.isEmpty, Fin.ext_iff] using he)) (.head (RingTask.step_popStage q) ?_)
    exact .last (RingTask.step_popPublish (q.stage q.front))

theorem Ring.peek_ends (q : Ring α) : PartEnds RingTask.step 3 .peekFront q q.peek.1 q.peek.2 := by
  refine .head rfl ?_
  unfold Ring.peek
  split
  · rename_i he
    exact .last (if_pos (by simpa [Ring.isEmpty, Fin.ext_iff] using he))
  · rename_i he
    refine .head (if_neg (by simpa [Ring.isEmpty, Fin.ext_iff] using he)) ?_
    exact .last (RingTask.step_peekStage q)

end

section
variable {s : State} {l r j k c : Nat} {e : Host.Outcome State Fault Refusal}

theorem PartEnds.lvs {t : LvsTask Value} {q q' : Lvs Value} {b : OpResult} (hq : s.lvs[l]? = some q)
    (h : PartEnds (LvsTask.step s.cfg.lvsAtomicity) k t q b q') :
    (TaskOutcome.more (.lvs l t) s).Ends k (.next ((s.setLvs l q').returns b)) := by
  have hl := h.lift (s.setLvs l) (.lvs l) (d := fun b u => endWith u b) (m := 0)
    (fun h => by simp only [Task.step, State.setLvs_get hq, State.setLvs_cfg, State.setLvs_setLvs, h])
    (fun h => by simp only [Task.step, State.setLvs_get hq, State.setLvs_cfg, State.setLvs_setLvs, h]) .done
  rwa [State.setLvs_self hq, Nat.zero_add] at hl

theorem PartEnds.ring {t : RingTask Value} {q q' : Ring Value} {b : Bool} (hq : s.rings[r]? = some q)
    (h : PartEnds RingTask.step k t q b q') :
    (TaskOutcome.more (.ring r t) s).Ends k (.next ((s.setRing r q').returns (.bool b))) := by
  have hl := h.lift (s.setRing r) (.ring r) (d := fun b u => endWith u (.bool b)) (m := 0)
    (fun h => by simp only [Task.step, State.setRing_get hq, State.setRing_setRing, h])
    (fun h => by simp only [Task.step, State.setRing_get hq, State.setRing_setRing, h]) .done
  rwa [State.setRing_self hq, Nat.zero_add] at hl

/-- A ring operation on a Channel's retry ring, inside a Channel operation (`45_channel.md` R274, R275). -/
theorem PartEnds.retry {W : RingTask Frame → Task} {d : Bool → State → TaskOutcome} {ch : Chan} {t : RingTask Frame}
    {q' : Ring Frame} {b : Bool} (h : PartEnds RingTask.step k t ch.retry b q')
    (hW : ∀ t u, (W t).step u = retryStep c t u W d) (hc : s.chans[c]? = some ch)
    (hd : (d b (s.setChan c { ch with retry := q' })).Ends j e) : (TaskOutcome.more (W t) s).Ends (j + k) e := by
  have hl := h.lift (fun p => s.setChan c { ch with retry := p }) W
    (fun h => by simp only [hW, retryStep, withChan, State.setChan_get hc, State.setChan_setChan, h])
    (fun h => by simp only [hW, retryStep, withChan, State.setChan_get hc, State.setChan_setChan, h]) hd
  rwa [State.setChan_self hc] at hl

end

/-! ### `FRAME.HEX` (`40_frame.md` R138) -/

/-- One byte is written in each step. -/
theorem hex_ends {l : List Byte} (hl : l ≠ []) (a : Nat) (s : State) :
    (TaskOutcome.more (.hex a l) s).Ends l.length (.next ((s.setMem (s.mem.writeBytes a l)).returns .nothing)) := by
  induction l generalizing a s with
  | nil => exact absurd rfl hl
  | cons b l ih =>
    refine .step ?_
    cases l with
    | nil => exact .done
    | cons c l => exact ih (List.cons_ne_nil c l) (a + 1) (s.setMem (s.mem.write a b))

theorem hexBytes_ne_nil (f : Frame) : hexBytes f ≠ [] := by simp [hexBytes]

/-- Two digits for each byte and the terminator: `FRAME.HEX` is within `Task.bound` whatever the length byte. -/
theorem hexBytes_length_le (f : Frame) : (hexBytes f).length ≤ Task.bound := by
  have hb : f.length.toNat < 256 := f.length.isLt
  have hl : (hexBytes f).length = 2 * f.length.toNat + 1 := by
    simp [hexBytes, hexPair, List.length_flatMap, Nat.mul_comm]
  rw [hl, Task.bound]
  omega

/-! ### The gate of a Channel operation (`45_channel.md` R271) -/

/-- What the operation run whole answers where the gate does not let it run. -/
structure Gated {α : Type} (op : ChanOp) (c : Nat) (s : State) (failed : α) (r : Reply α) : Prop where
  missing : s.chans[c]? = none → r = .error .noSuchOperand
  refuse : ∀ {ch e}, s.chans[c]? = some ch → chanGate op ch.state = .refuse e → r = .error e
  failed : ∀ {ch}, s.chans[c]? = some ch → chanGate op ch.state = .failed → r = .ok (failed, s)

/-- The first step of a Channel operation, and the operation run whole. -/
theorem Gated.ends {α : Type} {op : ChanOp} {c k : Nat} {s : State} {failed : α} {r : Reply α}
    {f : Chan → TaskOutcome} {res : α → OpResult} (h : Gated op c s failed r)
    (hf : ∀ ch, s.chans[c]? = some ch → chanGate op ch.state = .run → (f ch).Ends k (answer r res)) :
    (withChan c s fun ch => gateStep op (res failed) s ch (f ch)).Ends k (answer r res) := by
  cases hc : s.chans[c]? with
  | none =>
    rw [h.missing hc, withChan, hc]
    exact .refused
  | some ch =>
    refine .withChan hc ?_
    unfold gateStep
    split
    · rename_i e hg
      rw [h.refuse hc hg]
      exact .refused
    · rename_i hg
      rw [h.failed hc hg]
      exact .done
    · exact hf ch hc ‹_›

section
variable {s : State} {c : Nat} {ch : Chan}

theorem callChanInit_gated (baud : Nat) (ext : Bool) (fl : Filter) :
    Gated .init c s .error (callChanInit c baud ext fl s) where
  missing hc := by simp [callChanInit, hc]
  refuse hc hg := by simp [callChanInit, hc, hg]
  failed hc hg := by simp [callChanInit, hc, hg]

theorem callChanStart_gated : Gated .start c s .error (callChanStart c s) where
  missing hc := by simp [callChanStart, hc]
  refuse hc hg := by simp [callChanStart, hc, hg]
  failed hc hg := by simp [callChanStart, hc, hg]

theorem callChanSend_gated (f : Frame) : Gated .transfer c s .error (callChanSend c f s) where
  missing hc := by simp [callChanSend, hc]
  refuse hc hg := by simp [callChanSend, hc, hg]
  failed hc hg := by simp [callChanSend, hc, hg]

theorem callChanTxDrain_gated : Gated .transfer c s () (callChanTxDrain c s) where
  missing hc := by simp [callChanTxDrain, hc]
  refuse hc hg := by simp [callChanTxDrain, hc, hg]
  failed hc hg := by simp [callChanTxDrain, hc, hg]

theorem callChanReceive_gated : Gated .transfer c s (.error, none) (callChanReceive c s) where
  missing hc := by simp [callChanReceive, hc]
  refuse hc hg := by simp [callChanReceive, hc, hg]
  failed hc hg := by simp [callChanReceive, hc, hg]

/-! ### The Channel operations (`45_channel.md` R272 to R276) -/

theorem enterChState_ends {st : ChState} {res : Status} (hc : s.chans[c]? = some ch) :
    (TaskOutcome.more (.setChState c st res) s).Ends 1 (answer (enterChState c ch st res s) .status) :=
  .step (.withChan hc .done)

theorem callChanInit_ends (baud : Nat) (ext : Bool) (fl : Filter) :
    (TaskOutcome.more (.initGate c baud ext fl) s).Ends 4 (answer (callChanInit c baud ext fl s) .status) := by
  refine .step ((callChanInit_gated baud ext fl).ends fun ch hc hg => ?_)
  simp only [callChanInit, hc, hg]
  refine .step (.withChan hc (.callStep fun st u hu => ?_))
  have hc := (OnlyXcvr.callXcvrInit hu).chan hc
  refine .more_ite (.step (.withChan hc (.callStep fun st v hv => ?_))) ((enterChState_ends hc).mono (by decide))
  have hc := (OnlyXcvr.callFilter hv).chan hc
  exact .more_ite (enterChState_ends hc) (enterChState_ends hc)

theorem callChanStart_ends :
    (TaskOutcome.more (.startGate c) s).Ends 3 (answer (callChanStart c s) .status) := by
  refine .step (callChanStart_gated.ends fun ch hc hg => ?_)
  simp only [callChanStart, hc, hg]
  refine .step (.withChan hc (.callStep fun st u hu => ?_))
  have hc := (OnlyXcvr.callXcvrStart hu).chan hc
  exact .more_ite (enterChState_ends hc) (enterChState_ends hc)

theorem callXcvrSend_chan {x : Nat} {f : Frame} {st : Status} {t : State} (h : callXcvrSend x f s = .ok (st, t))
    (hc : s.chans[c]? = some ch) : t.chans[c]? = some ch := by
  obtain ⟨r, -, ⟨-, -, rfl⟩ | ⟨-, -, rfl⟩⟩ := callXcvrSend_cases h <;> exact hc

theorem queueForRetry_ends (f : Frame) (hc : s.chans[c]? = some ch) :
    (TaskOutcome.more (.sendPush c (.pushFront f)) s).Ends 7 (answer (queueForRetry c ch f s) .status) := by
  refine (ch.retry.push_ends f).retry (fun _ _ => rfl) hc ?_
  have hc := State.setChan_get (b := { ch with retry := (ch.retry.push f).2 }) hc
  unfold queueForRetry
  refine .step (.withChan hc (.callStep fun _ u hu => ?_))
  have hc := (OnlyXcvr.callXcvrTxie hu).chan hc
  cases (ch.retry.push f).1 with
  | true => exact .step (.withChan hc .done)
  | false => exact .done

theorem callChanSend_ends (f : Frame) :
    (TaskOutcome.more (.sendGate c f) s).Ends 9 (answer (callChanSend c f s) .status) := by
  refine .step ((callChanSend_gated f).ends fun ch hc hg => ?_)
  simp only [callChanSend, hc, hg]
  split
  · refine .step (.withChan hc (.callStep fun st u hu => ?_))
    by_cases hst : st = .ok
    · rw [if_pos hst, if_pos hst]
      exact .done
    · rw [if_neg hst, if_neg hst]
      exact queueForRetry_ends f (callXcvrSend_chan hu hc)
  · exact .refused

theorem quietWhenDrained_ends (hc : s.chans[c]? = some ch) :
    (TaskOutcome.more (.drainTest c) s).Ends 2 (answer (quietWhenDrained ch s) fun _ => .nothing) := by
  refine .step (.withChan hc ?_)
  unfold quietWhenDrained
  split
  · exact .step (.withChan hc (.lastCall _ _))
  · exact .done

theorem callChanTxDrain_ends :
    (TaskOutcome.more (.drainGate c) s).Ends 13 (answer (callChanTxDrain c s) fun _ => .nothing) := by
  refine .step (callChanTxDrain_gated.ends (res := fun _ => .nothing) fun ch hc hg => ?_)
  simp only [callChanTxDrain, hc, hg]
  split
  · refine ch.retry.peek_ends.retry (j := 9) (fun _ _ => rfl) hc ?_
    have hc := State.setChan_get (b := { ch with retry := ch.retry.peek.2 }) hc
    cases ch.retry.peek.1 with
    | false => exact (quietWhenDrained_ends hc).mono (by decide)
    | true =>
      simp only [if_true]
      cases hst : ch.retry.peek.2.staged with
      | none => exact .step (.withChan hc (.testLine_none hst))
      | some f =>
        refine .step (.withChan hc (.testLine hst (.step (.withChan hc (.testLine hst ?_)))))
        refine .step (.withChan hc (.callStep fun st u hu => ?_))
        have hc := callXcvrSend_chan hu hc
        refine .more_ite (ch.retry.peek.2.pop_ends.retry (fun _ _ => rfl) hc ?_)
          ((quietWhenDrained_ends hc).mono (by decide))
        exact quietWhenDrained_ends (State.setChan_get hc)
  · exact .refused

theorem callChanReceive_ends :
    (TaskOutcome.more (.recvGate c) s).Ends 2 (answer (callChanReceive c s) fun p => .received p.1 p.2) := by
  refine .step (callChanReceive_gated.ends (res := fun p => .received p.1 p.2) fun ch hc hg => ?_)
  simp only [callChanReceive, hc, hg]
  exact .step (.withChan hc (.lastCall _ _))

end

/-! ### The operations -/

/-- What is left of an operation that has begun in `s`: it stands before its first step, or it is refused. -/
def TaskOutcome.ofBegin (s : State) : Except Refusal Task → TaskOutcome
  | .ok t => .more t s
  | .error e => .refused e

section
variable {k : Nat} {s : State}

/-- The test of the role, at the beginning and in the operation run whole. -/
theorem TaskOutcome.Ends.ofBegin_ite {p : Prop} [Decidable p] {t : Task} {r : Refusal}
    {e : Host.Outcome State Fault Refusal} (h : (TaskOutcome.more t s).Ends k e) :
    (TaskOutcome.ofBegin s (if p then .ok t else .error r)).Ends k (if p then e else .refused r) := by
  by_cases hp : p
  · rw [if_pos hp, if_pos hp]; exact h
  · rw [if_neg hp, if_neg hp]; exact .refused

end

/-- Every operation within `Task.bound` steps (`20_memory.md` R75). -/
theorem begin_ends (i : Instr) (s : State) : (TaskOutcome.ofBegin s (Task.begin i s)).Ends Task.bound (exec i s) := by
  cases i with
  | frameHex f buf =>
    simp only [Task.begin, exec, execFrameHex]
    cases s.frameOf f with
    | none => exact .refused
    | some f =>
      have hx := (hex_ends (hexBytes_ne_nil f) buf.base s).mono (hexBytes_length_le f)
      by_cases hb : buf.size < 2 * f.length.toNat + 1
      · simp only [hb, if_true]; exact .refused
      · simp only [hb, if_false]; exact hx
  | lvsPush l v =>
    simp only [Task.begin, exec, execLvsPush]
    cases hq : s.lvs[l]? with
    | none => exact .refused
    | some q =>
      cases s.valueOf v with
      | none => exact .refused
      | some v => exact .ofBegin_ite (((q.push_ends _ v).lvs hq).mono (by decide))
  | lvsPop l =>
    simp only [Task.begin, exec, execLvsPop]
    cases hq : s.lvs[l]? with
    | none => exact .refused
    | some q => exact .ofBegin_ite (((q.pop_ends _).lvs hq).mono (by decide))
  | lvsRead l =>
    simp only [Task.begin, exec, execLvsRead]
    cases hq : s.lvs[l]? with
    | none => exact .refused
    | some q =>
      refine .ofBegin_ite (.mono (k := 2) (.step ?_) (by decide))
      simp only [Task.step, hq]
      cases hv : q.read with
      | none => exact .refused
      | some v =>
        refine .step ?_
        simp only [Task.step, hq, hv]
        exact .done
  | ringPush r v =>
    simp only [Task.begin, exec, execRingPush]
    cases hq : s.rings[r]? with
    | none => exact .refused
    | some q =>
      cases s.valueOf v with
      | none => exact .refused
      | some v => exact .ofBegin_ite (((q.push_ends v).ring hq).mono (by decide))
  | ringPop r =>
    simp only [Task.begin, exec, execRingPop]
    cases hq : s.rings[r]? with
    | none => exact .refused
    | some q => exact .ofBegin_ite ((q.pop_ends.ring hq).mono (by decide))
  | ringPeek r =>
    simp only [Task.begin, exec, execRingPeek]
    cases hq : s.rings[r]? with
    | none => exact .refused
    | some q => exact .ofBegin_ite ((q.peek_ends.ring hq).mono (by decide))
  | ringRead r =>
    simp only [Task.begin, exec, execRingRead]
    cases hq : s.rings[r]? with
    | none => exact .refused
    | some q =>
      refine .ofBegin_ite (.mono (k := 2) (.step ?_) (by decide))
      simp only [Task.step, hq]
      cases hv : q.staged with
      | none => exact .refused
      | some v =>
        refine .step ?_
        simp only [Task.step, hq, hv]
        exact .done
  | chanInit c baud ext fl => exact (callChanInit_ends baud ext fl).mono (by decide)
  | chanStart c => exact callChanStart_ends.mono (by decide)
  | chanSend c f =>
    simp only [Task.begin, exec, execChanSend]
    cases s.frameOf f with
    | none => exact .refused
    | some f => exact (callChanSend_ends f).mono (by decide)
  | chanTxDrain c => exact callChanTxDrain_ends.mono (by decide)
  | chanReceive c => exact callChanReceive_ends.mono (by decide)
  | frameNew | frameFromRx | frameTxhdr | frameSetts | xcvrInit | xcvrStart | xcvrStop | xcvrFilterAll | xcvrFilterList
  | xcvrSend | xcvrReceive | xcvrTxieOn | xcvrTxieOff => exact (TaskOutcome.Ends.whole _ s).mono (by decide)

/-! ### Runs of steps -/

/-- At most `n` more steps of what is left of an operation. -/
def TaskOutcome.run (n : Nat) : TaskOutcome → TaskOutcome
  | .more t s => Task.run n t s
  | .done s => .done s
  | .refused r => .refused r

theorem Task.run_succ (n : Nat) (t : Task) (s : State) : Task.run (n + 1) t s = (t.step s).run n := by
  rw [Task.run]
  cases t.step s <;> rfl

theorem runSteps_eq (i : Instr) (s : State) :
    runSteps i s = (TaskOutcome.ofBegin s (Task.begin i s)).run Task.bound := by
  unfold runSteps
  cases Task.begin i s <;> rfl

/-- A run of as many steps as the operation ends within takes it to its end. -/
theorem TaskOutcome.Ends.run {k n : Nat} {o : TaskOutcome} {e : Host.Outcome State Fault Refusal} (h : o.Ends k e)
    (hk : k ≤ n) : (∀ t, e = .next t → o.run n = .done t) ∧ (∀ r, e = .refused r → o.run n = .refused r) := by
  induction h generalizing n with
  | done => exact ⟨fun t ht => (by cases ht; rfl), fun r hr => nomatch hr⟩
  | refused => exact ⟨fun t ht => (nomatch ht), fun r hr => (by cases hr; rfl)⟩
  | step _ ih =>
    obtain ⟨m, rfl⟩ : ∃ m, n = m + 1 := ⟨n - 1, by omega⟩
    rw [TaskOutcome.run, Task.run_succ]
    exact ih (by omega)

/-- Settles O5: each operation ends as `exec` says within `Task.bound` steps. -/
theorem stepwiseRunEqualsWholeOperation : Obligations.StepwiseRunEqualsWholeOperation := by
  intro i s
  rw [runSteps_eq]
  exact (begin_ends i s).run (Nat.le_refl _)

end Sys2Proof.Machine
end

section
/-! PROOFS. Headers bit by bit, transmitted and received (`30_encoding.md` R96 to R99, R105 to R107); the clamp and the
mask in `FRAME.NEW` (R101, R102). -/

namespace Sys2Proof.Machine

variable {id : Word} {ext : Bool} {j : Nat}

/-! ### Transmit: the bits that an encoder leaves 0 -/

theorem getLsbD_shiftLeft_low {w : Word} {n : Nat} (h : j < n) : (w <<< n).getLsbD j = false := by simp [h]

theorem getLsbD_shiftLeft_high {w : Word} {k n : Nat} (hw : w.toNat < 2 ^ k) (h : k + n ≤ j) :
    (w <<< n).getLsbD j = false := by
  rw [BitVec.getLsbD_shiftLeft, getLsbD_high hw (by omega), Bool.and_false]

theorem encH0_classic_ignored (h : j < 2 ∨ j < 21 ∧ j ≠ 2 ∧ ext = false) :
    (encH0 .classic id ext).getLsbD j = false := by
  cases ext with
  | false => exact getLsbD_shiftLeft_low (by omega)
  | true =>
    have hj : j < 2 := by simpa using h
    have kind : ∀ i < 2, (0b100 : Word).getLsbD i = false := by decide
    exact (BitVec.getLsbD_or).trans (by rw [getLsbD_shiftLeft_low (by omega), kind j hj]; rfl)

theorem encH0_flexible_ignored (hid : id.toNat < if ext then 2 ^ 29 else 2 ^ 11)
    (h : j = 31 ∨ j = 29 ∨ j < 18 ∧ ext = false) : (encH0 .flexible id ext).getLsbD j = false := by
  cases ext with
  | false =>
    obtain hj | hj : j < 18 ∨ 11 + 18 ≤ j := by omega
    · exact getLsbD_shiftLeft_low hj
    · exact getLsbD_shiftLeft_high hid hj
  | true =>
    have hj : j = 31 ∨ j = 29 := by simpa using h
    have kind : (0x40000000 : Word).getLsbD j = false := by obtain rfl | rfl := hj <;> decide
    exact (BitVec.getLsbD_or).trans (by rw [getLsbD_high (k := 29) hid (by omega), kind]; rfl)

theorem encH1_classic_ignored {code : Word} (hc : code.toNat < 2 ^ 4) (h : 4 ≤ j) :
    (encH1 .classic code).getLsbD j = false := getLsbD_high hc h

theorem encH1_flexible_ignored {code : Word} (hc : code.toNat < 2 ^ 4) (h : j < 16 ∨ 20 ≤ j) :
    (encH1 .flexible code).getLsbD j = false := by
  obtain h | h := h
  · exact getLsbD_shiftLeft_low h
  · exact getLsbD_shiftLeft_high hc h

/-- A Frame's length fits the length code of its header (`30_encoding.md` R103). -/
theorem Frame.wf_lengthCode {c : Config} {f : Frame} (h : f.wf c = true) : (f.length.setWidth 32).toNat < 2 ^ 4 := by
  obtain ⟨-, hlen, -⟩ := Frame.wf_iff.1 h
  rw [BitVec.toNat_setWidth]
  omega

/-! ### Receive: the bits that a decoder reads -/

theorem decH0_classic_congr {w v : Word} (hk : w.getLsbD 2 = v.getLsbD 2)
    (h : ∀ j < 32, 21 ≤ j ∨ (3 ≤ j ∧ w.getLsbD 2 = true) → w.getLsbD j = v.getLsbD j) :
    decH0 .classic w = decH0 .classic v := by
  simp only [decH0, ← hk]
  cases hw : w.getLsbD 2 with
  | false =>
    have hid : w.extractLsb' 21 11 = v.extractLsb' 21 11 := extractLsb'_congr fun i hi =>
      h _ (by omega) (.inl (by omega))
    simp [hid]
  | true =>
    have hid : w.extractLsb' 3 29 = v.extractLsb' 3 29 := extractLsb'_congr fun i hi =>
      h _ (by omega) (.inr ⟨by omega, hw⟩)
    simp [hid]

theorem decH0_flexible_congr {w v : Word} (hk : w.getLsbD 30 = v.getLsbD 30)
    (h : ∀ j < 29, 18 ≤ j ∨ w.getLsbD 30 = true → w.getLsbD j = v.getLsbD j) :
    decH0 .flexible w = decH0 .flexible v := by
  simp only [decH0, ← hk]
  cases hw : w.getLsbD 30 with
  | false =>
    have hid : w.extractLsb' 18 11 = v.extractLsb' 18 11 := extractLsb'_congr fun i hi =>
      h _ (by omega) (.inl (by omega))
    simp [hid]
  | true =>
    have hid : w.extractLsb' 0 29 = v.extractLsb' 0 29 := extractLsb'_congr fun i hi =>
      h _ (by omega) (.inr hw)
    simp [hid]

theorem decH1_classic_congr {w v : Word} (h : ∀ j < 4, w.getLsbD j = v.getLsbD j) :
    decH1 .classic w = decH1 .classic v := extractLsb'_congr fun i hi => h _ (by omega)

theorem decH1_flexible_congr {w v : Word} (h : ∀ j, 16 ≤ j → j < 20 → w.getLsbD j = v.getLsbD j) :
    decH1 .flexible w = decH1 .flexible v := extractLsb'_congr fun i hi => h _ (by omega) (by omega)

/-- A received Frame is made of the decoded header and the data words. -/
theorem fromRx_congr {fam : Family} {e e' : Element} (h0 : decH0 fam e.h0 = decH0 fam e'.h0)
    (h1 : decH1 fam e.h1 = decH1 fam e'.h1) (dl : e.dl = e'.dl) (dh : e.dh = e'.dh) : fromRx fam e = fromRx fam e' := by
  simp only [fromRx, h0, h1, dl, dh]

/-- Settles O14: on transmit header by header, on receive because the decoders agree. -/
theorem reservedHeaderBits : Obligations.ReservedHeaderBits := by
  refine ⟨fun c f hf j => ?_, fun e e' dl dh hk h0 h1 => ?_, fun e e' dl dh hk h0 h1 => ?_⟩
  · obtain ⟨hid, -⟩ := Frame.wf_iff.1 hf
    have hc := Frame.wf_lengthCode hf
    exact ⟨encH0_classic_ignored, encH1_classic_ignored hc, encH0_flexible_ignored hid, encH1_flexible_ignored hc⟩
  · exact fromRx_congr (decH0_classic_congr hk h0) (decH1_classic_congr h1) dl dh
  · exact fromRx_congr (decH0_flexible_congr hk h0) (decH1_flexible_congr h1) dl dh

/-- Settles O6: the result of `FRAME.NEW` is `newFrame`, made with the clamp and the mask. -/
theorem lengthClampAndIdentifierMask : Obligations.LengthClampAndIdentifierMask :=
  ⟨clampLen_toNat, fun _ => ⟨rfl, rfl⟩, fun _ id l d ext => ⟨newFrame id l d ext, rfl, rfl, rfl⟩⟩

end Sys2Proof.Machine
end

section
/-! PROOFS. The command code table: which bytes are codes, the decoder after the encoder, and an unassigned code
presented to a context (`30_encoding.md` R90 to R93). -/

namespace Sys2Proof

/-- Settles O1: row by row. -/
theorem commandCodeTable : Obligations.CommandCodeTable := fun _ =>
  ⟨rfl, rfl, rfl, rfl, rfl, rfl, rfl, rfl, rfl, rfl, rfl, rfl, rfl, rfl, rfl, rfl, rfl, rfl, rfl, rfl, rfl, rfl, rfl,
    rfl, rfl, rfl⟩

/-- What the decoder may answer for the code of number `n`: an operation of that code, or that there is none. -/
inductive DecodesTo (n : Nat) : Except DecodeError Instr → Prop
  | row (i : Instr) (h : (encode i).1.toNat = n) : DecodesTo n (.ok i)
  | unassigned : DecodesTo n (.error .unassignedCode)

section
variable (o : Operands) (n : Nat)

theorem decodeFrame_decodesTo : DecodesTo (0x00 + n) (decodeFrame o n) := by
  unfold decodeFrame
  split
  case h_6 => exact .unassigned
  all_goals exact .row _ rfl

theorem decodeLvs_decodesTo : DecodesTo (0x10 + n) (decodeLvs o n) := by
  unfold decodeLvs
  split
  case h_4 => exact .unassigned
  all_goals exact .row _ rfl

theorem decodeRing_decodesTo : DecodesTo (0x20 + n) (decodeRing o n) := by
  unfold decodeRing
  split
  case h_5 => exact .unassigned
  all_goals exact .row _ rfl

theorem decodeXcvr_decodesTo : DecodesTo (0x30 + n) (decodeXcvr o n) := by
  unfold decodeXcvr
  split
  case h_10 => exact .unassigned
  all_goals exact .row _ rfl

theorem decodeChan_decodesTo : DecodesTo (0x40 + n) (decodeChan o n) := by
  unfold decodeChan
  split
  case h_6 => exact .unassigned
  all_goals exact .row _ rfl

end

/-- `CMD8`: a code is its unit and the operation within the unit (`30_encoding.md` R90). -/
theorem code_toNat (code : Byte) :
    code.toNat = 16 * (code.extractLsb' 4 4).toNat + (code.extractLsb' 0 4).toNat := by
  simp only [BitVec.extractLsb'_toNat, Nat.shiftRight_eq_div_pow]
  omega

theorem decode_decodesTo (code : Byte) (o : Operands) : DecodesTo code.toNat (decode code o) := by
  rw [code_toNat]
  unfold decode
  split <;> rename_i unit
  · rw [unit]; exact decodeFrame_decodesTo o _
  · rw [unit]; exact decodeLvs_decodesTo o _
  · rw [unit]; exact decodeRing_decodesTo o _
  · rw [unit]; exact decodeXcvr_decodesTo o _
  · rw [unit]; exact decodeChan_decodesTo o _
  · exact .unassigned

theorem encode_of_decode {code : Byte} {o : Operands} {i : Instr} (h : decode code o = .ok i) :
    (encode i).1 = code := by
  have hd := decode_decodesTo code o
  rw [h] at hd
  cases hd with
  | row _ hc => exact BitVec.eq_of_toNat_eq hc

theorem decode_of_no_row {code : Byte} (h : ∀ i : Instr, (encode i).1 ≠ code) (o : Operands) :
    decode code o = .error .unassignedCode := by
  have hd := decode_decodesTo code o
  generalize decode code o = r at hd
  cases hd with
  | row i hc => exact absurd (BitVec.eq_of_toNat_eq hc) (h i)
  | unassigned => rfl

theorem decode_encode (i : Instr) : decode (encode i).1 (encode i).2 = .ok i := by
  cases i <;> simp only [encode] <;> rfl

/-- Settles O3: the decoder after the encoder, and the encoder after the decoder. -/
theorem operationRoundTrip : Obligations.OperationRoundTrip := ⟨decode_encode, fun _ _ _ => encode_of_decode⟩

/-- The codes of the command table (`30_encoding.md` R91). -/
def assignedCodes : List Byte :=
  [0x00, 0x01, 0x02, 0x03, 0x04, 0x10, 0x11, 0x12, 0x20, 0x21, 0x22, 0x23, 0x30, 0x31, 0x32, 0x33, 0x34, 0x35, 0x36,
    0x37, 0x38, 0x40, 0x41, 0x42, 0x43, 0x44]

theorem encode_mem_assignedCodes (i : Instr) : (encode i).1 ∈ assignedCodes := by
  cases i <;> simp [encode, assignedCodes]

theorem exists_encode_of_mem {code : Byte} (h : code ∈ assignedCodes) : ∃ i : Instr, (encode i).1 = code := by
  have rows : ∀ c ∈ assignedCodes, (decode c Operands.zeros).isOk = true := by decide
  have hr := rows code h
  cases hd : decode code Operands.zeros with
  | ok i => exact ⟨i, encode_of_decode hd⟩
  | error e => rw [hd] at hr; exact nomatch hr

/-- A byte without a row is one that is not listed. -/
theorem no_row_iff (code : Byte) : (∀ i : Instr, (encode i).1 ≠ code) ↔ code ∉ assignedCodes := by
  constructor
  · intro h hm
    obtain ⟨i, hi⟩ := exists_encode_of_mem hm
    exact h i hi
  · rintro h i rfl
    exact h (encode_mem_assignedCodes i)

namespace Machine

variable {code : Byte} {o : Operands} {s : State} {c : Ctx}

theorem fetch_of_unassigned (hd : decode code o = .error .unassignedCode) :
    fetch code o s = .error .unassignedCode := by
  simp [fetch, decodeBytes, hd, refusalOfDecode]

theorem runStart_of_fetch_error {e : Refusal} (hb : s.mayBegin c = true) (hf : fetch code o s = .error e) :
    runStart c code o s = .refused e := by
  simp [runStart, hb, hf]

/-- An unassigned code is refused, the operation being taken whole or begun (`92_eei_decisions.md` D4). -/
theorem step_of_unassigned {rest : List Event} (hd : decode code o = .error .unassignedCode) (hw : s.cfg.wf = true)
    (hs : s.schedule = .invoke c code o :: rest ∨ s.schedule = .start c code o :: rest)
    (hb : ({ s with schedule := rest } : State).mayBegin c = true) : step s = .refused .unassignedCode := by
  obtain hs | hs := hs
  · exact (step_of_cons hw hs).trans (runInvoke_of_fetch_error hb (fetch_of_unassigned hd))
  · exact (step_of_cons hw hs).trans (runStart_of_fetch_error hb (fetch_of_unassigned hd))

/-- Settles O2: the bytes without a row are those not listed; the decoder has no other answer for them. -/
theorem unassignedCodesRefused : Obligations.UnassignedCodesRefused := by
  refine ⟨no_row_iff, fun code o h => ?_⟩
  have hd := decode_of_no_row h o
  exact ⟨hd, fun s c rest => step_of_unassigned hd⟩

end Machine
end Sys2Proof
end

section
/-! PROOFS. The Frame operations: the two construction paths as numbers (`40_frame.md` R131, R132), the element of a
Frame decoded (R136, `30_encoding.md` R112), and what `FRAME.TXHDR`, `FRAME.HEX` and `FRAME.SETTS` answer on a Frame
operand (R133, R138, R139). -/

namespace Sys2Proof.Machine

/-! ### `FRAME.NEW` -/

/-- Settles O7: the result is `newFrame`. -/
theorem frameNewResult : Obligations.FrameNewResult := by
  intro s id len d ext
  refine ⟨newFrame id len d ext, rfl, rfl, rfl, clampLen_toNat len, rfl, rfl, fun i hi => ?_⟩
  rw [← clampLen_toNat]
  exact keepBytes_get _ _ hi

/-! ### `FRAME.FROM_RX`: the fields as numbers -/

theorem extract_toNat (w : Word) {k n : Nat} (hn : n ≤ 32) :
    ((w.extractLsb' k n).setWidth 32).toNat = w.toNat / 2 ^ k % 2 ^ n := by
  rw [BitVec.toNat_setWidth_of_le hn, BitVec.extractLsb'_toNat, Nat.shiftRight_eq_div_pow]

theorem decH0_classic_toNat (w : Word) :
    (decH0 .classic w).1.toNat = if w.getLsbD 2 then w.toNat / 2 ^ 3 else w.toNat / 2 ^ 21 := by
  have hw := w.isLt
  simp only [decH0]
  split <;> rw [extract_toNat w (by decide)] <;> omega

theorem decH0_flexible_toNat (w : Word) :
    (decH0 .flexible w).1.toNat = if w.getLsbD 30 then w.toNat % 2 ^ 29 else w.toNat / 2 ^ 18 % 2 ^ 11 := by
  simp only [decH0]
  split
  · rw [extract_toNat w (by decide), Nat.pow_zero, Nat.div_one]
  · rw [extract_toNat w (by decide)]

/-- A decoded identifier fits its kind, so that the mask of `FRAME.FROM_RX` leaves it (`30_encoding.md` R102, R106). -/
theorem decH0_lt (fam : Family) (w : Word) :
    (decH0 fam w).1.toNat < if (decH0 fam w).2 then 2 ^ 29 else 2 ^ 11 := by
  have hw := w.isLt
  cases fam with
  | classic =>
    rw [decH0_classic_toNat]
    change _ < if w.getLsbD 2 then _ else _
    split <;> omega
  | flexible =>
    rw [decH0_flexible_toNat]
    change _ < if w.getLsbD 30 then _ else _
    split <;> omega

theorem fromRx_id (fam : Family) (e : Element) : (fromRx fam e).id = (decH0 fam e.h0).1 :=
  maskId_of_lt (decH0_lt fam e.h0)

theorem dlcDecode_toNat (code : BitVec 4) : (dlcDecode code).toNat = min code.toNat 8 := by
  rw [dlcDecode, clampLen_toNat, BitVec.toNat_setWidth_of_le (by decide)]

theorem decH1_classic_toNat (w : Word) : (decH1 .classic w).toNat = w.toNat % 2 ^ 4 := by
  rw [decH1, BitVec.extractLsb'_toNat, Nat.shiftRight_zero]

theorem decH1_flexible_toNat (w : Word) : (decH1 .flexible w).toNat = w.toNat / 2 ^ 16 % 2 ^ 4 := by
  rw [decH1, BitVec.extractLsb'_toNat, Nat.shiftRight_eq_div_pow]

theorem laneByte_toNat (dl dh : Word) (i : Nat) : (laneByte dl dh i).toNat =
    if i < 4 then dl.toNat / 2 ^ (8 * i) % 2 ^ 8 else dh.toNat / 2 ^ (8 * (i - 4)) % 2 ^ 8 := by
  unfold laneByte
  split <;> rw [BitVec.extractLsb'_toNat, Nat.shiftRight_eq_div_pow]

/-- Settles O8: the result is `fromRx`, whose fields are those of the decoders. -/
theorem frameFromRxResult : Obligations.FrameFromRxResult := by
  intro s h0 h1 dl dh
  refine ⟨fromRx s.cfg.family ⟨h0, h1, dl, dh⟩, (decH1 s.cfg.family h1).toNat, rfl, rfl, fun hf => ?_, fun hf => ?_,
    dlcDecode_toNat _, rfl, fun i hi => ?_⟩
  · rw [hf, fromRx_id]
    exact ⟨rfl, decH0_classic_toNat h0, decH1_classic_toNat h1⟩
  · rw [hf, fromRx_id]
    exact ⟨rfl, decH0_flexible_toNat h0, decH1_flexible_toNat h1⟩
  · rw [← dlcDecode_toNat, ← laneByte_toNat]
    simp only [fromRx, keepBytes_get _ _ hi]
    split <;> rfl

/-! ### The element of a Frame decoded -/

theorem decH1_encH1_length (fam : Family) {len : Byte} (h : len.toNat ≤ 8) :
    decH1 fam (encH1 fam (len.setWidth 32)) = dlcEncode len := by
  have hc : len.setWidth 32 = (dlcEncode len).setWidth 32 := by
    apply BitVec.eq_of_toNat_eq
    simp only [dlcEncode, BitVec.toNat_setWidth]
    omega
  rw [hc, decH1_encH1]

theorem dlcDecode_dlcEncode {len : Byte} (h : len.toNat ≤ 8) : dlcDecode (dlcEncode len) = len := by
  rw [← decH1_encH1_length .classic h, dlcDecode_length h]

/-- `FRAME.NEW` gives a Frame that exists back from its fields, but for its timestamp. -/
theorem newFrame_of_wf {c : Config} {f : Frame} (h : f.wf c = true) :
    newFrame f.id f.length f.data f.isExtended = { f with timestamp := none } :=
  congrArg (fun g : Frame => { g with timestamp := none }) (givenFrame_of_wf h)

/-- Decoding the element of a Frame constructs the Frame from its fields anew (`40_frame.md` R136). -/
theorem fromRx_frameToElement (fam : Family) {f : Frame} (hid : f.id.toNat < if f.isExtended then 2 ^ 29 else 2 ^ 11)
    (hlen : f.length.toNat ≤ 8) :
    fromRx fam (frameToElement fam f) = newFrame f.id f.length f.data f.isExtended := by
  have hd : keepBytes f.length (laneByte (packDl f.data) (packDh f.data)) = keepBytes f.length f.data.get :=
    Bytes8.ext_get fun i hi => by rw [keepBytes_get _ _ hi, keepBytes_get _ _ hi, laneByte_pack _ hi]
  simp only [fromRx, frameToElement, txHeader, newFrame, decH0_encH0 fam hid, dlcDecode_length hlen,
    clampLen_of_le hlen, hd]

theorem fromRx_frameToElement_of_wf {c : Config} (fam : Family) {f : Frame} (h : f.wf c = true) :
    fromRx fam (frameToElement fam f) = { f with timestamp := none } := by
  obtain ⟨hid, hlen, -⟩ := Frame.wf_iff.1 h
  rw [fromRx_frameToElement fam hid hlen, newFrame_of_wf h]

theorem fromRx_newFrame (fam : Family) (id : Word) (len : Byte) (d : Bytes8) (ext : Bool) :
    fromRx fam (frameToElement fam (newFrame id len d ext)) = newFrame id len d ext :=
  fromRx_frameToElement_of_wf fam (newFrame_wf Config.sample id len d ext)

theorem encodingRoundTrip (fam : Family) : EncodingRoundTrip fam := by
  intro id ext len d hlen
  refine ⟨decH0_encH0 fam (maskId_lt id ext), dlcDecode_dlcEncode hlen, decH1_encH1_length fam hlen,
    fun i hi => laneByte_pack d hi, ?_⟩
  rintro e rfl
  rw [fromRx_newFrame]
  refine ⟨rfl, rfl, clampLen_of_le hlen, fun i hi => ?_⟩
  simp only [newFrame, clampLen_of_le hlen]
  rw [keepBytes_get _ _ (by omega), if_pos hi]

/-- Settles O13: each decoder undoes its encoder, and a well-formed Frame is the one its fields construct. -/
theorem frameElementRoundTrip : Obligations.FrameElementRoundTrip :=
  ⟨encodingRoundTrip, fun _ fam _ h => fromRx_frameToElement_of_wf fam h⟩

/-! ### Operations on a Frame operand -/

section
variable {s : State} {r : FrameRef} {f : Frame}

theorem exec_frameTxhdr_of_frame (h : s.frameOf r = some f) : exec (.frameTxhdr r) s =
    .next (s.returns (.header (txHeader s.cfg.family f).1 (txHeader s.cfg.family f).2)) := by
  simp only [exec, execFrameTxhdr, h]

theorem exec_frameHex_of_frame (h : s.frameOf r = some f) (buf : Buffer) : exec (.frameHex r buf) s =
    if buf.size < 2 * f.length.toNat + 1 then .refused .hexBufferTooSmall
    else .next ((s.setMem (s.mem.writeBytes buf.base (hexBytes f))).returns .nothing) := by
  simp only [exec, execFrameHex, h]

theorem exec_frameSetts_of_absent (h : s.frameOf r = some f) (ht : f.timestamp = none) (t : Nat) :
    exec (.frameSetts r t) s = .next (s.returns (.frame { f with timestamp := some (timestampOf s.cfg t) })) := by
  simp only [exec, execFrameSetts, h, setTimestamp, ht]

theorem exec_frameSetts_of_present (h : s.frameOf r = some f) (ht : f.timestamp ≠ none) (t : Nat) :
    exec (.frameSetts r t) s = .refused .timestampAlreadySet := by
  obtain ⟨u, hu⟩ := Option.ne_none_iff_exists'.1 ht
  simp only [exec, execFrameSetts, h, setTimestamp, hu]

end

/-- Settles O9: the header is that of the family's encoders. -/
theorem frameTxhdrResult : Obligations.FrameTxhdrResult := by
  intro s r f h
  refine ⟨rfl, fun hf => ?_, fun hf => ?_⟩
  · rw [exec_frameTxhdr_of_frame h, hf]; rfl
  · rw [exec_frameTxhdr_of_frame h, hf]; rfl

/-- Settles O11: by whether the Frame has a timestamp. -/
theorem frameSettsResult : Obligations.FrameSettsResult := fun _ _ _ t h =>
  ⟨rfl, fun ht => exec_frameSetts_of_absent h ht t, fun ht => exec_frameSetts_of_present h ht t⟩

/-! ### `FRAME.HEX` -/

/-- The digits of the first `n` bytes of `d`, in order. -/
def hexDigits (d : Bytes8) (n : Nat) : List Byte := (List.range n).flatMap fun i => hexPair (d.get i)

theorem hexBytes_eq (f : Frame) : hexBytes f = hexDigits f.data f.length.toNat ++ [0] := rfl

theorem hexDigits_succ (d : Bytes8) (n : Nat) : hexDigits d (n + 1) = hexDigits d n ++ hexPair (d.get n) := by
  simp [hexDigits, List.range_succ]

theorem hexDigits_length (d : Bytes8) (n : Nat) : (hexDigits d n).length = 2 * n := by
  induction n with
  | zero => rfl
  | succ n ih => rw [hexDigits_succ, List.length_append, ih]; rfl

theorem hexBytes_length (f : Frame) : (hexBytes f).length = 2 * f.length.toNat + 1 := by
  rw [hexBytes_eq, List.length_append, hexDigits_length]; rfl

/-- The digits of byte `i` stand at offsets `2 * i` and `2 * i + 1`. -/
theorem hexDigits_getElem? (d : Bytes8) {i j n : Nat} (hi : i < n) (hj : j < 2) :
    (hexDigits d n)[2 * i + j]? = (hexPair (d.get i))[j]? := by
  induction n with
  | zero => omega
  | succ n ih =>
    rw [hexDigits_succ]
    obtain hlt | rfl : i < n ∨ i = n := by omega
    · rw [List.getElem?_append_left (by rw [hexDigits_length]; omega), ih hlt]
    · rw [List.getElem?_append_right (by rw [hexDigits_length]; omega), hexDigits_length, Nat.add_sub_cancel_left]

theorem hexBytes_digit (f : Frame) {i j : Nat} (hi : i < f.length.toNat) (hj : j < 2) :
    (hexBytes f)[2 * i + j]? = (hexPair (f.data.get i))[j]? := by
  rw [hexBytes_eq, List.getElem?_append_left (by rw [hexDigits_length]; omega), hexDigits_getElem? _ hi hj]

theorem hexBytes_terminator (f : Frame) : (hexBytes f)[2 * f.length.toNat]? = some 0x00 := by
  rw [hexBytes_eq, ← hexDigits_length f.data]
  exact List.getElem?_concat_length

theorem Memory.read_writeBytes_of_getElem? (m : Memory) (a : Nat) {l : List Byte} {k : Nat} {v : Byte}
    (h : l[k]? = some v) : (m.writeBytes a l).read (a + k) = some v := by
  obtain ⟨hk, -⟩ := List.getElem?_eq_some_iff.1 h
  rw [Memory.read_writeBytes, if_pos (by omega), Nat.add_sub_cancel_left, h]

theorem hexDigit_toNat (n : BitVec 4) : (n.toNat ≤ 9 → (hexDigit n).toNat = 0x30 + n.toNat) ∧
    (10 ≤ n.toNat → (hexDigit n).toNat = 0x41 + (n.toNat - 10)) := by
  revert n; decide

/-- Settles O10: the bytes written are `hexBytes`, each read back at its offset. -/
theorem frameHexResult : Obligations.FrameHexResult := by
  refine ⟨hexDigit_toNat, fun s r f buf h => ⟨rfl, fun hb => ?_, fun hb => ?_⟩⟩
  · rw [exec_frameHex_of_frame h, if_pos hb]
  · refine ⟨s.mem.writeBytes buf.base (hexBytes f), ?_, fun i hi => ⟨?_, ?_⟩, ?_, fun a ha => ?_⟩
    · rw [exec_frameHex_of_frame h, if_neg (by omega)]; rfl
    · exact Memory.read_writeBytes_of_getElem? _ _ (hexBytes_digit f hi (j := 0) (by decide))
    · exact Memory.read_writeBytes_of_getElem? _ _ (hexBytes_digit f hi (j := 1) (by decide))
    · exact Memory.read_writeBytes_of_getElem? _ _ (hexBytes_terminator f)
    · refine Memory.read_writeBytes_outside _ ?_
      rw [hexBytes_length]; omega

/-! ### What a Frame operation leaves alone -/

/-- Caller memory after Frame operation `i` in state `s`: only `FRAME.HEX` writes it (`20_memory.md` R63). -/
inductive FrameMemory (s : State) : Instr → Memory → Prop
  | hex (r : FrameRef) (buf : Buffer) (f : Frame) (h : s.frameOf r = some f) :
      FrameMemory s (.frameHex r buf) (s.mem.writeBytes buf.base (hexBytes f))
  | other (i : Instr) (h : ∀ r buf, i ≠ .frameHex r buf) : FrameMemory s i s.mem

section
variable {s t : State} {i : Instr} {m : Memory}

theorem FrameMemory.eq_of_not_hex (hm : FrameMemory s i m) (h : ∀ r buf, i ≠ .frameHex r buf) : m = s.mem := by
  cases hm with
  | hex r buf f hf => exact absurd rfl (h r buf)
  | other _ _ => rfl

/-- `FRAME.HEX` writes within its buffer's first `2*length+1` bytes (`40_frame.md` R138). -/
theorem FrameMemory.read_outside {r : FrameRef} {buf : Buffer} {f : Frame} (hm : FrameMemory s (.frameHex r buf) m)
    (hf : s.frameOf r = some f) {a : Nat} (ha : a < buf.base ∨ buf.base + (hexBytes f).length ≤ a) :
    m.read a = s.mem.read a := by
  cases hm with
  | hex _ _ g hg =>
    rw [hf] at hg; cases hg
    exact Memory.read_writeBytes_outside _ ha
  | other _ h => exact absurd rfl (h r buf)

/-- A Frame operation writes caller memory at most, and then delivers a result. -/
theorem exec_frameUnit (hu : (encode i).1.toNat / 16 = 0) (h : exec i s = .next t) :
    ∃ m res, FrameMemory s i m ∧ t = (s.setMem m).returns res := by
  cases i
  case frameNew id len d ext => cases h; exact ⟨_, _, .other _ (fun _ _ => nofun), rfl⟩
  case frameFromRx h0 h1 dl dh => cases h; exact ⟨_, _, .other _ (fun _ _ => nofun), rfl⟩
  case frameTxhdr r =>
    obtain ⟨f, -, rfl⟩ := execFrameTxhdr_cases h
    exact ⟨_, _, .other _ (fun _ _ => nofun), rfl⟩
  case frameHex r buf =>
    obtain ⟨f, hf, -, rfl⟩ := execFrameHex_cases h
    exact ⟨_, _, .hex r buf f hf, rfl⟩
  case frameSetts r n =>
    obtain ⟨f, -, -, rfl⟩ := execFrameSetts_cases h
    exact ⟨_, _, .other _ (fun _ _ => nofun), rfl⟩
  all_goals simp [encode] at hu

end

/-- Settles O12: caller memory is written as `FrameMemory` says, and a result delivered. -/
theorem frameOperationsFrame : Obligations.FrameOperationsFrame := by
  intro s t i hu h
  obtain ⟨m, res, hm, rfl⟩ := exec_frameUnit hu h
  refine ⟨.returns (.of_block rfl) res, by simp, by simp, by simp, by simp, by simp, .returns rfl res,
    fun hi => .returns (hm.eq_of_not_hex hi) res, ?_⟩
  rintro r buf f rfl hf a ha
  rw [State.returns_mem]
  exact hm.read_outside hf ha

end Sys2Proof.Machine
end

section
/-! PROOFS. What each container operation answers on a container that exists, by the role of the calling context
(`41_latest_value_slot.md` R161 to R163, R167, `42_bounded_ring.md` R181 to R184, R187), and the same refusal in the
two Channel operations on the retry ring (`45_channel.md` R274, R275). -/

namespace Sys2Proof.Machine

/-! ### An operation on a container that exists -/

section
variable {s : State} {n : Nat} {r : ValueRef} {v : Value}

section
variable {q : Lvs Value}

theorem exec_lvsPush_of_slot (hq : s.lvs[n]? = some q) (hv : s.valueOf r = some v) : exec (.lvsPush n r) s =
    if s.agent = q.roles.producer then .next ((s.setLvs n (q.push v)).returns .nothing)
    else .refused .spscViolation := by
  simp only [exec, execLvsPush, hq, hv]

theorem exec_lvsPop_of_slot (hq : s.lvs[n]? = some q) : exec (.lvsPop n) s =
    if s.agent = q.roles.consumer then .next ((s.setLvs n q.pop.2).returns (.bool q.pop.1))
    else .refused .spscViolation := by
  simp only [exec, execLvsPop, hq]

theorem exec_lvsRead_of_foreign (hq : s.lvs[n]? = some q) (ha : s.agent ≠ q.roles.consumer) :
    exec (.lvsRead n) s = .refused .spscViolation := by
  simp only [exec, execLvsRead, hq, if_neg ha]

theorem exec_lvsRead_of_written (hq : s.lvs[n]? = some q) (ha : s.agent = q.roles.consumer)
    (hv : q.read = some v) : exec (.lvsRead n) s = .next (s.returns (.value v)) := by
  simp only [exec, execLvsRead, hq, if_pos ha, hv]

theorem exec_lvsRead_of_unwritten (hq : s.lvs[n]? = some q) (ha : s.agent = q.roles.consumer)
    (hv : q.read = none) : exec (.lvsRead n) s = .refused .readBeforePop := by
  simp only [exec, execLvsRead, hq, if_pos ha, hv]

end

section
variable {q : Ring Value}

theorem exec_ringPush_of_ring (hq : s.rings[n]? = some q) (hv : s.valueOf r = some v) : exec (.ringPush n r) s =
    if s.agent = q.roles.producer then .next ((s.setRing n (q.push v).2).returns (.bool (q.push v).1))
    else .refused .spscViolation := by
  simp only [exec, execRingPush, hq, hv]

theorem exec_ringPop_of_ring (hq : s.rings[n]? = some q) : exec (.ringPop n) s =
    if s.agent = q.roles.consumer then .next ((s.setRing n q.pop.2).returns (.bool q.pop.1))
    else .refused .spscViolation := by
  simp only [exec, execRingPop, hq]

theorem exec_ringPeek_of_ring (hq : s.rings[n]? = some q) : exec (.ringPeek n) s =
    if s.agent = q.roles.consumer then .next ((s.setRing n q.peek.2).returns (.bool q.peek.1))
    else .refused .spscViolation := by
  simp only [exec, execRingPeek, hq]

theorem exec_ringRead_of_foreign (hq : s.rings[n]? = some q) (ha : s.agent ≠ q.roles.consumer) :
    exec (.ringRead n) s = .refused .spscViolation := by
  simp only [exec, execRingRead, hq, if_neg ha]

theorem exec_ringRead_of_staged (hq : s.rings[n]? = some q) (ha : s.agent = q.roles.consumer)
    (hv : q.staged = some v) : exec (.ringRead n) s = .next (s.returns (.value v)) := by
  simp only [exec, execRingRead, hq, if_pos ha, hv]

theorem exec_ringRead_of_unstaged (hq : s.rings[n]? = some q) (ha : s.agent = q.roles.consumer)
    (hv : q.staged = none) : exec (.ringRead n) s = .refused .readBeforeStage := by
  simp only [exec, execRingRead, hq, if_pos ha, hv]

end

section
variable {k : Chan}

/-- In `Running` the sender's role is tested before the Transceiver is called (log entry 10). -/
theorem exec_chanSend_of_foreign {fr : FrameRef} {f : Frame} (hk : s.chans[n]? = some k) (hr : k.state = .running)
    (hf : s.frameOf fr = some f) (ha : s.agent ≠ k.retry.roles.producer) :
    exec (.chanSend n fr) s = .refused .spscViolation := by
  simp only [exec, execChanSend, hf, callChanSend, hk, hr, chanGate, if_neg ha, answer]

/-- In `Running` the drainer's role is tested before the ring is peeked (log entry 10). -/
theorem exec_chanTxDrain_of_foreign (hk : s.chans[n]? = some k) (hr : k.state = .running)
    (ha : s.agent ≠ k.retry.roles.consumer) : exec (.chanTxDrain n) s = .refused .spscViolation := by
  simp only [exec, execChanTxDrain, callChanTxDrain, hk, hr, chanGate, if_neg ha, answer]

end
end

/-- Settles O18: the content of the consuming cell, or the staged value, is a value or none. -/
theorem containerReadResult : Obligations.ContainerReadResult := fun _ _ =>
  ⟨rfl, rfl,
    fun _ hq ha => ⟨fun _ => exec_lvsRead_of_written hq ha, exec_lvsRead_of_unwritten hq ha⟩,
    fun _ hq ha => ⟨fun _ => exec_ringRead_of_staged hq ha, exec_ringRead_of_unstaged hq ha⟩⟩

/-- Settles O19: each operation tests the role of its caller before anything else. -/
theorem foreignAgentRefused : Obligations.ForeignAgentRefused := by
  intro s n r v fr f hv hf
  refine ⟨fun q hq => ⟨fun ha => ?_, fun ha => ⟨?_, exec_lvsRead_of_foreign hq ha⟩⟩,
    fun q hq => ⟨fun ha => ?_, fun ha => ⟨?_, ?_, exec_ringRead_of_foreign hq ha⟩⟩,
    fun k hk hr => ⟨exec_chanSend_of_foreign hk hr hf, exec_chanTxDrain_of_foreign hk hr⟩⟩
  · rw [exec_lvsPush_of_slot hq hv, if_neg ha]
  · rw [exec_lvsPop_of_slot hq, if_neg ha]
  · rw [exec_ringPush_of_ring hq hv, if_neg ha]
  · rw [exec_ringPop_of_ring hq, if_neg ha]
  · rw [exec_ringPeek_of_ring hq, if_neg ha]

end Sys2Proof.Machine
end

section
/-! PROOFS. The LatestValueSlot: the results of a push and a pop (`41_latest_value_slot.md` R161, R162), that the latest
value wins (R164, R165), and the pop between the exchange and the flag of a push under `Split` (R168). -/

namespace Sys2Proof.Machine

variable {α : Type} {q : Lvs α}

/-! ### A pop, a read after a cell write -/

theorem Lvs.pop_of_stale (h : q.stale = true) : q.pop = (false, q) := if_pos h

theorem Lvs.pop_of_not_stale (h : q.stale = false) : q.pop = (true, q.swapConsuming.setStale true) :=
  if_neg (by simp [h])

/-- A pop leaves nothing new, whether or not it delivered. -/
theorem Lvs.pop_stale (q : Lvs α) : q.pop.2.stale = true := by
  unfold Lvs.pop
  split
  · assumption
  · rfl

theorem Lvs.pop_pop (q : Lvs α) : q.pop.2.pop = (false, q.pop.2) := pop_of_stale q.pop_stale

/-- The producer's write does not change what the consumer reads (`41_latest_value_slot.md` R164). -/
theorem Lvs.read_setProducing (h : q.producing ≠ q.consuming) (e : Option α) : (q.setProducing e).read = q.read :=
  (q.cells.get_set q.producing q.consuming e).trans (if_neg h.symm)

theorem Lvs.read_push (h : q.producing ≠ q.consuming) (v : α) : (q.push v).read = q.read :=
  read_setProducing h (some v)

/-- The two exchanges bring the cell just written to the consumer. -/
theorem Lvs.read_swapConsuming_swapProducing (q : Lvs α) (e : Option α) :
    (q.setProducing e).swapProducing.swapConsuming.read = e :=
  q.cells.get_set_same q.producing e

theorem Lvs.pop_push (q : Lvs α) (v : α) : (q.push v).pop = (true, (q.push v).swapConsuming.setStale true) :=
  pop_of_not_stale rfl

theorem Lvs.read_pop_push (q : Lvs α) (v : α) : (q.push v).pop.2.read = some v := by
  rw [pop_push]
  exact q.read_swapConsuming_swapProducing (some v)

/-! ### The obligations -/

/-- Settles O16: the new slot is `Lvs.push`. -/
theorem lvsPushResult : Obligations.LvsPushResult := by
  intro s l q r v hq hv
  refine ⟨rfl, fun ha => ⟨q.push v, ?_, fun j => q.cells.get_set q.producing j (some v), rfl, rfl, rfl, rfl, rfl⟩⟩
  rw [exec_lvsPush_of_slot hq hv, if_pos ha]

/-- Settles O17: by the flag; a failed pop puts the slot back as it is. -/
theorem lvsPopResult : Obligations.LvsPopResult := by
  intro s l q hq
  refine ⟨rfl, fun ha hs => ?_, fun ha hs => ?_⟩
  · rw [exec_lvsPop_of_slot hq, if_pos ha, Lvs.pop_of_stale hs, State.setLvs_self hq]
  · rw [exec_lvsPop_of_slot hq, if_pos ha, Lvs.pop_of_not_stale hs]; rfl

/-- Settles O21: any pushes and pops keep the three indices distinct (`Lvs.Ok`, with no demand on the values), so the
last operation decides. -/
theorem latestValueWins : Obligations.LatestValueWins := by
  intro α q ops v hpt htc hpc run
  have hok : (run ops).Ok fun _ => true := by
    refine List.foldlRecOn ops _ ⟨hpt, htc, hpc, fun _ _ _ => rfl⟩ fun p hp o _ => ?_
    cases o with
    | some w => exact hp.push rfl
    | none => exact hp.pop
  have hpush : run (ops ++ [some v]) = (run ops).push v := List.foldl_concat ..
  have hpop : run (ops ++ [none]) = (run ops).pop.2 := List.foldl_concat ..
  rw [hpush, hpop]
  exact ⟨congrArg Prod.fst ((run ops).pop_push v), (run ops).read_pop_push v, (run ops).pop_pop,
    Lvs.read_push hok.producingConsuming v⟩

/-- Settles O22: under `Split` the push's flag comes after the pop's and clears it, so that the next pop runs and
exchanges the cells of the first pop back; under `Fused` the pop's flag is the last. -/
theorem splitPushHazard : Obligations.SplitPushHazard := by
  intro α q v _ _ hpc hs
  have hwrite (a : LvsAtomicity) : (LvsTask.pushWrite v).step a (q.setProducing none) =
      (q.setProducing (some v), .inl .pushSwap) := by
    rw [LvsTask.step, Lvs.setProducing_setProducing]
  constructor
  · refine ⟨_, _, (q.setProducing (some v)).swapProducing, _, _, _, rfl, hwrite .split, rfl, if_neg ?_, rfl, rfl,
      q.read_swapConsuming_swapProducing (some v), rfl, rfl, Lvs.read_setProducing hpc (some v)⟩
    exact Bool.eq_false_iff.1 hs
  · exact ⟨_, _, q.push v, (q.push v).pop.2, rfl, hwrite .fused, rfl, rfl, q.read_pop_push v, (q.push v).pop_pop⟩

end Sys2Proof.Machine
end

section
/-! PROOFS. The BoundedRing: the results of a push, a pop and a peek (`42_bounded_ring.md` R181 to R183), what each
operation leaves alone (R187), and the order in which elements leave, over whole operations (R185) and step by step
(R188, R189). -/

namespace Sys2Proof.Machine

section
variable {α : Type}

theorem Ring.isFull_eq_true_iff {q : Ring α} : q.isFull = true ↔ q.next q.back = q.front := beq_iff_eq

theorem Ring.isEmpty_eq_true_iff {q : Ring α} : q.isEmpty = true ↔ q.front = q.back := beq_iff_eq

theorem Ring.isFull_eq_false_iff {q : Ring α} : q.isFull = false ↔ q.next q.back ≠ q.front := beq_eq_false_iff_ne

theorem Ring.isEmpty_eq_false_iff {q : Ring α} : q.isEmpty = false ↔ q.front ≠ q.back := beq_eq_false_iff_ne

theorem Ring.push_eq_of_not_full {q : Ring α} (h : q.isFull = false) (v : α) :
    q.push v = (false, (q.setCell q.back (some v)).setBack (q.next q.back)) := if_neg (Bool.eq_false_iff.1 h)

end

/-! ### The results -/

/-- Settles O23: by whether the ring is full; a rejected push puts the ring back as it is. -/
theorem ringPushResult : Obligations.RingPushResult := by
  intro s n q r v hq hv
  refine ⟨q.next q.back, rfl, rfl, fun ha hf => ?_, fun ha hn => ?_⟩
  · rw [exec_ringPush_of_ring hq hv, if_pos ha, Ring.push_of_full (Ring.isFull_eq_true_iff.2 hf),
      State.setRing_self hq]
  · rw [exec_ringPush_of_ring hq hv, if_pos ha, Ring.push_eq_of_not_full (Ring.isFull_eq_false_iff.2 hn)]; rfl

/-- Settles O24: by whether the ring is empty; a failed pop or peek puts the ring back as it is. -/
theorem ringConsumerResult : Obligations.RingConsumerResult := by
  intro s n q hq
  refine ⟨q.next q.front, rfl, rfl, rfl, fun ha he => ?_, fun ha hn => ?_⟩
  · have he := Ring.isEmpty_eq_true_iff.2 he
    rw [exec_ringPop_of_ring hq, exec_ringPeek_of_ring hq, if_pos ha, if_pos ha, Ring.pop_of_empty he,
      Ring.peek_of_empty he, State.setRing_self hq]
    exact ⟨rfl, rfl⟩
  · have hn := Ring.isEmpty_eq_false_iff.2 hn
    rw [exec_ringPop_of_ring hq, exec_ringPeek_of_ring hq, if_pos ha, if_pos ha, Ring.pop_of_not_empty hn,
      Ring.peek_of_not_empty hn]
    exact ⟨rfl, rfl⟩

/-! ### What an operation leaves alone -/

section
variable {s t : State} {n : Nat} {i : Instr}

/-- What operation `i` of BoundedRing `n` leaves of it: `q` before, `p` after. -/
structure RingFrame (n : Nat) (i : Instr) (q p : Ring Value) : Prop where
  shape : p.shape = q.shape
  read : i = .ringRead n → p = q
  push : (∃ r, i = .ringPush n r) → p.front.val = q.front.val ∧ p.staged = q.staged ∧
    ∀ j : Nat, j ≠ q.back.val → p.cells[j]? = q.cells[j]?
  consumer : i = .ringPop n ∨ i = .ringPeek n → p.cells.toList = q.cells.toList ∧ p.back.val = q.back.val
  peek : i = .ringPeek n → p.front.val = q.front.val

theorem RingFrame.refl (i : Instr) (q : Ring Value) : RingFrame n i q q :=
  ⟨rfl, fun _ => rfl, fun _ => ⟨rfl, rfl, fun _ _ => rfl⟩, fun _ => ⟨rfl, rfl⟩, fun _ => rfl⟩

/-- The producer writes the cell that `back` names, and `back`, or does nothing. -/
theorem RingFrame.of_push (r : ValueRef) (v : Value) (q : Ring Value) :
    RingFrame n (.ringPush n r) q (q.push v).2 := by
  cases hf : q.isFull with
  | true => rw [Ring.push_of_full hf]; exact .refl _ q
  | false =>
    rw [Ring.push_eq_of_not_full hf]
    exact {
      shape := rfl
      read := nofun
      push := fun _ => ⟨rfl, rfl, fun j hj => Vector.getElem?_set_ne q.back.isLt hj.symm⟩
      consumer := nofun
      peek := nofun }

/-- The consumer writes `staged` and `front`, or does nothing. -/
theorem RingFrame.of_pop (q : Ring Value) : RingFrame n (.ringPop n) q q.pop.2 := by
  cases he : q.isEmpty with
  | true => rw [Ring.pop_of_empty he]; exact .refl _ q
  | false =>
    rw [Ring.pop_of_not_empty he]
    exact ⟨rfl, nofun, nofun, fun _ => ⟨rfl, rfl⟩, nofun⟩

/-- The consumer writes `staged` alone, or does nothing. -/
theorem RingFrame.of_peek (q : Ring Value) : RingFrame n (.ringPeek n) q q.peek.2 := by
  cases he : q.isEmpty with
  | true => rw [Ring.peek_of_empty he]; exact .refl _ q
  | false =>
    rw [Ring.peek_of_not_empty he]
    exact ⟨rfl, nofun, nofun, fun _ => ⟨rfl, rfl⟩, fun _ => rfl⟩

/-- A BoundedRing operation replaces the one it names, and then delivers a result. -/
theorem exec_ringFrame (hi : (∃ r, i = .ringPush n r) ∨ i = .ringPop n ∨ i = .ringPeek n ∨ i = .ringRead n)
    (h : exec i s = .next t) :
    ∃ q p res, s.rings[n]? = some q ∧ t = (s.setRing n p).returns res ∧ RingFrame n i q p := by
  obtain ⟨r, rfl⟩ | rfl | rfl | rfl := hi
  · obtain ⟨q, v, hq, -, -, rfl⟩ := execRingPush_cases h
    exact ⟨q, _, _, hq, rfl, .of_push r v q⟩
  · obtain ⟨q, hq, -, rfl⟩ := execRingPop_cases h
    exact ⟨q, _, _, hq, rfl, .of_pop q⟩
  · obtain ⟨q, hq, -, rfl⟩ := execRingPeek_cases h
    exact ⟨q, _, _, hq, rfl, .of_peek q⟩
  · obtain ⟨q, v, hq, -, -, rfl⟩ := execRingRead_cases h
    exact ⟨q, q, _, hq, by rw [State.setRing_self hq], .refl _ q⟩

end

/-- Settles O25: one BoundedRing is replaced by one that `RingFrame` relates to it, and a result delivered. -/
theorem ringOperationsFrame : Obligations.RingOperationsFrame := by
  intro s t n i hi h
  obtain ⟨q, p, res, hq, rfl, hp⟩ := exec_ringFrame hi h
  refine ⟨.returns (.of_block rfl) res, .returns rfl res, .returns rfl res, by simp, by simp, by simp, by simp,
    fun j hj => ?_, fun hr => ?_, fun q' p' hq' hp' => ?_⟩
  · rw [State.returns_rings]
    exact State.setRing_get_other p hj
  · rw [hp.read hr, State.setRing_self hq, State.returns_rings]
  · rw [hq] at hq'; cases hq'
    rw [State.returns_rings, State.setRing_get hq] at hp'; cases hp'
    exact ⟨congrArg RingConfig.roles hp.shape, congrArg RingConfig.n hp.shape, hp.push, hp.consumer, hp.peek⟩

/-! ### The order of the elements -/

section
variable {α : Type} {q : Ring α}

/-- A push appends the value it accepts, and nothing when it accepts none. -/
theorem Ring.contents_push (q : Ring α) (v : α) :
    (q.push v).2.contents = q.contents ++ if (q.push v).1 then [] else [some v] := by
  cases hf : q.isFull with
  | true => simp [Ring.push_of_full hf]
  | false =>
    obtain ⟨hb, hc⟩ := Ring.push_of_not_full hf v
    simp [hb, hc]

/-- A pop removes at the head the element it stages, and nothing when it fails. -/
theorem Ring.contents_pop (q : Ring α) :
    q.contents = (if q.pop.1 then [q.pop.2.staged] else []) ++ q.pop.2.contents := by
  cases he : q.isEmpty with
  | true => simp [Ring.pop_of_empty he]
  | false =>
    rw [Ring.pop_of_not_empty he]
    exact Ring.contents_of_not_empty he

/-- The first in are the first out, from any ring: `Ring.Ok` is not needed. -/
theorem Ring.contents_runOps (ops : List (Option α)) (q : Ring α) :
    q.contents ++ (Ring.runOps ops q).1 = (Ring.runOps ops q).2.1 ++ (Ring.runOps ops q).2.2.contents := by
  induction ops generalizing q with
  | nil => simp [Ring.runOps]
  | cons o ops ih =>
    cases o with
    | some v =>
      have h := ih (q.push v).2
      rw [q.contents_push, List.append_assoc] at h
      exact h
    | none =>
      have h := ih q.pop.2
      simp only [Ring.runOps]
      rw [List.append_assoc, ← h, ← List.append_assoc, ← q.contents_pop]

/-- The oldest element is the content of the cell that `front` names. -/
theorem Ring.head?_contents (hn : q.front ≠ q.back) : q.contents.head? = some (q.cellAt q.front) := by
  rw [q.contents_setFront hn, List.head?_cons]

end

/-- Settles O27: by induction on the operations. -/
theorem ringFifoOrder : Obligations.RingFifoOrder := fun _ _ q ops _ _ => q.contents_runOps ops

/-- Settles O28: the invariants by `RingTask.step_ok` and `RingTask.step_other`, the contents step by step. -/
theorem ringStepsRefineQueue : Obligations.RingStepsRefineQueue := by
  intro α wf q t u hq ht hc hu hd
  obtain ⟨hok, hnext⟩ := RingTask.step_ok hq ht hc
  refine ⟨hok, RingTask.step_other ht hu hd.symm, fun t' h => (hnext t' h).1, ?_⟩
  cases t with
  | pushFront v => rfl
  | pushBack v f => simp only [RingTask.step]; split <;> rfl
  | pushOpen v b nb =>
    obtain ⟨rfl, -, -⟩ := ht
    rw [RingTask.step_pushOpen]
    exact q.contents_setCell none
  | pushWrite v b nb =>
    obtain ⟨rfl, -, -⟩ := ht
    rw [RingTask.step_pushWrite]
    exact ⟨q.contents_setCell (some v), (q.setCell_cellAt q.back q.back (some v)).trans (if_pos rfl)⟩
  | pushPublish nb =>
    obtain ⟨rfl, hn, -⟩ := ht
    rw [RingTask.step_pushPublish]
    exact q.contents_setBack hn
  | popFront => rfl
  | popBack f => simp only [RingTask.step]; split <;> rfl
  | popStage f =>
    obtain ⟨rfl, hn⟩ := ht
    rw [RingTask.step_popStage, Ring.head?_contents hn]
    exact ⟨rfl, rfl⟩
  | popPublish f =>
    obtain ⟨rfl, hn, hs⟩ := ht
    rw [RingTask.step_popPublish, hs]
    exact q.contents_setFront hn
  | peekFront => rfl
  | peekBack f => simp only [RingTask.step]; split <;> rfl
  | peekStage f =>
    obtain ⟨rfl, hn⟩ := ht
    rw [RingTask.step_peekStage, Ring.head?_contents hn]
    exact ⟨rfl, rfl⟩

end Sys2Proof.Machine
end

section
/-! PROOFS. What each Transceiver operation answers on a Transceiver that exists, by the gate and the draw `hw_ok`
(`43_transceiver.md` R201 to R206, R212, R213). -/

namespace Sys2Proof.Machine

variable {s : State} {x : Nat} {r : Xcvr} {i : Instr} {op : XcvrOp} {effect : Xcvr → Xcvr} {e : Refusal}

/-! ### What is answered to the caller -/

section
variable {α : Type} {q : Reply α} {f : α → OpResult}

theorem answer_of_ok {a : α} {u : State} (h : q = .ok (a, u)) : answer q f = .next (u.returns (f a)) := by
  rw [h, answer_ok]

theorem answer_of_error (h : q = .error e) : answer q f = .refused e := by
  rw [h, answer_error]

end

/-! ### The five configuration operations -/

/-- Operation `i` of Transceiver `x` is a configuration operation: the row `op` of the gate, then the draw, then
`effect` (`43_transceiver.md` R201, R202). -/
def Configures (s : State) (x : Nat) (i : Instr) (op : XcvrOp) (effect : Xcvr → Xcvr) : Prop :=
  exec i s = answer (configure op x effect s) .status

theorem Configures.init {baud pre : Nat} (h : s.cfg.params.prescalerOf baud = some pre) (ext : Bool) :
    Configures s x (.xcvrInit x baud ext) .init (Xcvr.init s.cfg.params pre baud ext) :=
  congrArg (answer · OpResult.status) (callXcvrInit_of_entry h)

theorem Configures.start (s : State) (x : Nat) : Configures s x (.xcvrStart x) .start Xcvr.start := rfl

theorem Configures.stop (s : State) (x : Nat) : Configures s x (.xcvrStop x) .stop Xcvr.stop := rfl

theorem Configures.filterAll (s : State) (x : Nat) :
    Configures s x (.xcvrFilterAll x) .filter (Xcvr.filterAll s.cfg.params) := rfl

theorem Configures.filterList (s : State) (x : Nat) (ids : List Word) (ext : Bool) :
    Configures s x (.xcvrFilterList x ids ext) .filter (Xcvr.filterBy s.cfg.params ext ids) := rfl

theorem Configures.refused (h : Configures s x i op effect) (hr : s.xcvrs[x]? = some r)
    (hg : xcvrGate op r.ctrl.lifecycle = .refuse e) : exec i s = .refused e :=
  h.trans (answer_of_error (configure_refuse hr hg))

theorem Configures.failed (h : Configures s x i op effect) (hr : s.xcvrs[x]? = some r)
    (hg : xcvrGate op r.ctrl.lifecycle = .failed) : exec i s = .next (s.returns (.status .error)) :=
  h.trans (answer_of_ok (configure_failed hr hg))

theorem Configures.hardwareOk (h : Configures s x i op effect) (hr : s.xcvrs[x]? = some r)
    (hg : xcvrGate op r.ctrl.lifecycle = .run) (hd : s.draws.nextHwOk = true) :
    exec i s = .next (((s.setDraws s.draws.dropHwOk).setXcvr x (effect r)).returns (.status .ok)) := by
  rw [h, configure_run hr hg, if_pos hd, answer_ok]

theorem Configures.hardwareFailure (h : Configures s x i op effect) (hr : s.xcvrs[x]? = some r)
    (hg : xcvrGate op r.ctrl.lifecycle = .run) (hd : s.draws.nextHwOk = false) :
    exec i s = .next (((s.setDraws s.draws.dropHwOk).setXcvr x (r.setLifecycle .failed)).returns (.status .error)) := by
  rw [h, configure_run hr hg, if_neg (Bool.eq_false_iff.1 hd), answer_ok]

/-- Where the filter operations run (`43_transceiver.md` R201). -/
theorem xcvrGate_filter_run {l : Lifecycle} (h : l = .initialized ∨ l = .filterConfigured) :
    xcvrGate .filter l = .run := by
  obtain rfl | rfl := h <;> rfl

/-! ### `XCVR.SEND`, `XCVR.RECEIVE` and the interrupt enables -/

section
variable {f : Frame} {n : Nat} {b : Bool}

theorem exec_xcvrSend_of_frame {fr : FrameRef} (hf : s.frameOf fr = some f) :
    exec (.xcvrSend x fr) s = answer (callXcvrSend x f s) .status := by
  simp only [exec, execXcvrSend, hf]

theorem exec_xcvrReceive (s : State) (x n : Nat) :
    exec (.xcvrReceive x n) s = answer (callXcvrReceive x n s) fun p => .received p.1 p.2 := rfl

theorem exec_xcvrTxieOn (s : State) (x : Nat) :
    exec (.xcvrTxieOn x) s = answer (callXcvrTxie true x s) fun _ => .nothing := rfl

theorem exec_xcvrTxieOff (s : State) (x : Nat) :
    exec (.xcvrTxieOff x) s = answer (callXcvrTxie false x s) fun _ => .nothing := rfl

theorem callXcvrSend_of_refuse (hr : s.xcvrs[x]? = some r) (hg : xcvrGate .transfer r.ctrl.lifecycle = .refuse e) :
    callXcvrSend x f s = .error e := by
  simp only [callXcvrSend, hr, hg]

theorem callXcvrSend_of_failed (hr : s.xcvrs[x]? = some r) (hg : xcvrGate .transfer r.ctrl.lifecycle = .failed) :
    callXcvrSend x f s = .ok (.error, s) := by
  simp only [callXcvrSend, hr, hg]

theorem callXcvrSend_of_run (hr : s.xcvrs[x]? = some r) (hg : xcvrGate .transfer r.ctrl.lifecycle = .run) :
    callXcvrSend x f s = .ok ((r.send s.cfg f).1, s.setXcvr x (r.send s.cfg f).2) := by
  simp only [callXcvrSend, hr, hg]

theorem callXcvrReceive_of_refuse (hr : s.xcvrs[x]? = some r)
    (hg : xcvrGate .transfer r.ctrl.lifecycle = .refuse e) : callXcvrReceive x n s = .error e := by
  simp only [callXcvrReceive, hr, hg]

theorem callXcvrReceive_of_failed (hr : s.xcvrs[x]? = some r) (hg : xcvrGate .transfer r.ctrl.lifecycle = .failed) :
    callXcvrReceive x n s = .ok ((.error, none), s) := by
  simp only [callXcvrReceive, hr, hg]

theorem callXcvrTxie_of_refuse (hr : s.xcvrs[x]? = some r) (hg : xcvrGate .txie r.ctrl.lifecycle = .refuse e) :
    callXcvrTxie b x s = .error e := by
  simp only [callXcvrTxie, hr, hg]

theorem callXcvrTxie_of_failed (hr : s.xcvrs[x]? = some r) (hg : xcvrGate .txie r.ctrl.lifecycle = .failed) :
    callXcvrTxie b x s = .ok ((), s) := by
  simp only [callXcvrTxie, hr, hg]

theorem callXcvrTxie_of_run (hr : s.xcvrs[x]? = some r) (hg : xcvrGate .txie r.ctrl.lifecycle = .run) :
    callXcvrTxie b x s = .ok ((), s.setXcvr x (r.setTxie b)) := by
  simp only [callXcvrTxie, hr, hg]

end

/-! ### The obligations -/

/-- Settles O29: cell by cell of the gate. -/
theorem transceiverGate : Obligations.TransceiverGate := by
  intro s x r baud ext ids fr f n hr hb hf l
  obtain ⟨pre, hpre⟩ := Option.isSome_iff_exists.1 hb
  have init := Configures.init (x := x) hpre ext
  have send := exec_xcvrSend_of_frame (x := x) hf
  have receive := exec_xcvrReceive s x n
  have txieOn := exec_xcvrTxieOn s x
  have txieOff := exec_xcvrTxieOff s x
  refine ⟨fun h => ?_, fun h => ?_, fun h => ?_, fun h => ?_, fun h => ?_, fun h => ?_⟩
  · have gate : xcvrGate .init l = .refuse .initTwice := by obtain h | h | h := h <;> rw [h] <;> rfl
    exact init.refused hr gate
  · have gate : xcvrGate .filter l = .refuse .notInitialised := congrArg _ h
    have gateTxie : xcvrGate .txie l = .refuse .notInitialised := congrArg _ h
    exact ⟨(Configures.filterAll s x).refused hr gate, (Configures.filterList s x ids ext).refused hr gate,
      (Configures.start s x).refused hr (congrArg _ h),
      txieOn.trans (answer_of_error (callXcvrTxie_of_refuse hr gateTxie)),
      txieOff.trans (answer_of_error (callXcvrTxie_of_refuse hr gateTxie))⟩
  · have gate : xcvrGate .filter l = .refuse .filterWhileRunning := congrArg _ h
    exact ⟨(Configures.filterAll s x).refused hr gate, (Configures.filterList s x ids ext).refused hr gate,
      (Configures.start s x).refused hr (congrArg _ h)⟩
  · exact (Configures.start s x).refused hr (congrArg _ h)
  · have gateStop : xcvrGate .stop l = .refuse .notRunning := by obtain h | h | h := h <;> rw [h] <;> rfl
    have gate : xcvrGate .transfer l = .refuse .notRunning := by obtain h | h | h := h <;> rw [h] <;> rfl
    exact ⟨(Configures.stop s x).refused hr gateStop,
      send.trans (answer_of_error (callXcvrSend_of_refuse hr gate)),
      receive.trans (answer_of_error (callXcvrReceive_of_refuse hr gate))⟩
  · have gate : xcvrGate .transfer l = .failed := congrArg _ h
    have gateTxie : xcvrGate .txie l = .failed := congrArg _ h
    exact ⟨init.failed hr (congrArg _ h), (Configures.filterAll s x).failed hr (congrArg _ h),
      (Configures.filterList s x ids ext).failed hr (congrArg _ h), (Configures.start s x).failed hr (congrArg _ h),
      (Configures.stop s x).failed hr (congrArg _ h),
      send.trans (answer_of_ok (callXcvrSend_of_failed hr gate)),
      receive.trans (answer_of_ok (callXcvrReceive_of_failed hr gate)),
      txieOn.trans (answer_of_ok (callXcvrTxie_of_failed hr gateTxie)),
      txieOff.trans (answer_of_ok (callXcvrTxie_of_failed hr gateTxie))⟩

/-- Settles O30: each of the five operations draws where its gate lets it run. -/
theorem hardwareFailureOfConfiguration : Obligations.HardwareFailureOfConfiguration := by
  intro s x r i hr hd hi
  obtain ⟨baud, ext, rfl, hb, hl⟩ | ⟨rfl, hl⟩ | ⟨rfl, hl⟩ | ⟨rfl | ⟨ids, ext, rfl⟩, hl⟩ := hi
  · obtain ⟨pre, hpre⟩ := Option.isSome_iff_exists.1 hb
    exact (Configures.init hpre ext).hardwareFailure hr (congrArg _ hl) hd
  · exact (Configures.start s x).hardwareFailure hr (congrArg _ hl) hd
  · exact (Configures.stop s x).hardwareFailure hr (congrArg _ hl) hd
  · exact (Configures.filterAll s x).hardwareFailure hr (xcvrGate_filter_run hl) hd
  · exact (Configures.filterList s x ids ext).hardwareFailure hr (xcvrGate_filter_run hl) hd

/-- Settles O31: the new register file is `Xcvr.init`. -/
theorem xcvrInitResult : Obligations.XcvrInitResult := fun _ _ _ _ _ ext hr hl hpre hd =>
  ⟨rfl, (Configures.init hpre ext).hardwareOk hr (congrArg _ hl) hd⟩

/-- Settles O32: the new register files are `Xcvr.start` and `Xcvr.stop`. -/
theorem xcvrStartStopResult : Obligations.XcvrStartStopResult := fun s x _ hr hd =>
  ⟨rfl, rfl, fun hl => (Configures.start s x).hardwareOk hr (congrArg _ hl) hd,
    fun hl => (Configures.stop s x).hardwareOk hr (congrArg _ hl) hd⟩

/-- Settles O33: every slot of the new banks is `FSlot.zero`. -/
theorem xcvrFilterAllResult : Obligations.XcvrFilterAllResult := by
  intro s x r hr hl hd
  obtain ⟨count, size⟩ := clearBanks_ok s.cfg.params
  refine ⟨rfl, clearBanks s.cfg.params, (Configures.filterAll s x).hardwareOk hr (xcvrGate_filter_run hl) hd, count,
    fun bank hb => ⟨size bank hb, fun f hf => ?_⟩⟩
  obtain rfl := List.eq_of_mem_replicate hb
  obtain rfl := List.eq_of_mem_replicate hf
  rfl

/-- Settles O38: the new register file is `Xcvr.setTxie`. -/
theorem xcvrTxieResult : Obligations.XcvrTxieResult := by
  intro s x r hr hl
  have gate : xcvrGate .txie r.ctrl.lifecycle = .run := by obtain h | h | h := hl <;> rw [h] <;> rfl
  exact ⟨rfl, rfl, (exec_xcvrTxieOn s x).trans (answer_of_ok (callXcvrTxie_of_run hr gate)),
    (exec_xcvrTxieOff s x).trans (answer_of_ok (callXcvrTxie_of_run hr gate))⟩

end Sys2Proof.Machine
end

section
/-! PROOFS. The filter table of `XCVR.FILTER_LIST` and what it accepts (`43_transceiver.md` R207 to R209), and the
answers of `XCVR.SEND` and `XCVR.RECEIVE` in `Running` (R210, R211). -/

namespace Sys2Proof.Machine

variable {s : State} {x : Nat} {r : Xcvr}

/-! ### Slots of the filter table -/

section
variable {p : FamilyParams} {k : Nat} {ids : List Word} {ext : Bool} {b n j : Nat} {id : Word}

/-- A bank takes at least one identifier of either kind (`00_scope.md` R7, D51). -/
theorem idsPerBank_pos {c : Config} (h : c.wf = true) (ext : Bool) : 0 < c.params.idsPerBank ext := by
  obtain ⟨hp, -⟩ := Config.wf_iff.1 h
  simp only [FamilyParams.wf, Bool.and_eq_true, decide_eq_true_eq] at hp
  obtain ⟨-, -, standard, extended, -⟩ := hp
  cases ext
  · exact standard
  · exact extended

/-- Each bank has a slot for every identifier it takes (`10_state.md` R37). -/
theorem idsPerBank_le_slotsPerBank (p : FamilyParams) (ext : Bool) :
    p.idsPerBank ext ≤ p.slotsPerBank := by
  cases ext
  · exact Nat.le_max_left ..
  · exact Nat.le_max_right ..

/-- Identifier `j` stands in bank `j div k`, slot `j mod k`. -/
theorem partitionSlot_of_id (hk : 0 < k) (hj : ids[j]? = some id) :
    partitionSlot k ext ids (j / k) (j % k) = filterSlot ext id := by
  rw [partitionSlot, if_pos (Nat.mod_lt j hk), Nat.div_add_mod', hj]

/-- A slot that is not zero is that of an identifier of the list. -/
theorem partitionSlot_cases (k : Nat) (ext : Bool) (ids : List Word) (b n : Nat) :
    partitionSlot k ext ids b n = FSlot.zero ∨
      ∃ j id, ids[j]? = some id ∧ b = j / k ∧ n = j % k ∧ partitionSlot k ext ids b n = filterSlot ext id := by
  by_cases hn : n < k
  · cases hj : ids[b * k + n]? with
    | none => exact .inl (by rw [partitionSlot, if_pos hn, hj])
    | some id =>
      have hb : b = (b * k + n) / k := by
        rw [Nat.mul_comm, Nat.mul_add_div (by omega), Nat.div_eq_of_lt hn, Nat.add_zero]
      have hm : n = (b * k + n) % k := by rw [Nat.mul_add_mod', Nat.mod_eq_of_lt hn]
      exact .inr ⟨_, id, hj, hb, hm, by rw [partitionSlot, if_pos hn, hj]⟩
  · exact .inl (if_neg hn)

/-- A slot of the table by its bank and its place there. -/
theorem partitionBanks_slot (p : FamilyParams) (ext : Bool) (ids : List Word) (b n : Nat) :
    (partitionBanks p ext ids)[b]?.bind (·[n]?) =
      if b < p.bankCount ∧ n < p.slotsPerBank then some (partitionSlot (p.idsPerBank ext) ext ids b n) else none := by
  by_cases hb : b < p.bankCount <;> by_cases hn : n < p.slotsPerBank <;> simp [partitionBanks, hb, hn]

/-- Within the capacity the place of every identifier is in the table. -/
theorem partitionBanks_place (hk : 0 < p.idsPerBank ext) (hlen : ids.length ≤ p.bankCount * p.idsPerBank ext)
    (hj : ids[j]? = some id) :
    (partitionBanks p ext ids)[j / p.idsPerBank ext]?.bind (·[j % p.idsPerBank ext]?) = some (filterSlot ext id) := by
  have hjl : j < ids.length := (List.getElem?_eq_some_iff.1 hj).1
  have bank : j / p.idsPerBank ext < p.bankCount := (Nat.div_lt_iff_lt_mul hk).2 (by omega)
  have slot : j % p.idsPerBank ext < p.slotsPerBank :=
    Nat.lt_of_lt_of_le (Nat.mod_lt j hk) (idsPerBank_le_slotsPerBank p ext)
  rw [partitionBanks_slot, if_pos ⟨bank, slot⟩, partitionSlot_of_id hk hj]

/-- A slot of the table is the one that its place is given. -/
theorem partitionBanks_slot_eq {f : FSlot} (h : (partitionBanks p ext ids)[b]?.bind (·[n]?) = some f) :
    f = partitionSlot (p.idsPerBank ext) ext ids b n := by
  rw [partitionBanks_slot] at h
  split at h
  · exact (Option.some.inj h).symm
  · exact nomatch h

theorem Xcvr.filterBy_of_le (h : ids.length ≤ p.bankCount * p.idsPerBank ext) :
    r.filterBy p ext ids = r.filterList p ext ids := if_neg (Nat.not_lt.2 h)

theorem Xcvr.filterBy_of_gt (h : ids.length > p.bankCount * p.idsPerBank ext) :
    r.filterBy p ext ids = r.filterAll p := if_pos h

end

/-! ### Acceptance -/

section
variable {p : FamilyParams} {ids : List Word} {ext ext' : Bool} {id i : Word}

/-- An unused slot matches nothing (log entry 25). -/
theorem FSlot.zero_accepts (id : Word) (ext : Bool) : FSlot.zero.accepts id ext = false := rfl

/-- A masked identifier fits the field of a filter slot. -/
theorem maskId_setWidth (id : Word) (ext : Bool) : ((maskId id ext).setWidth 29).setWidth 32 = maskId id ext := by
  have h := maskId_lt id ext
  apply BitVec.eq_of_toNat_eq
  simp only [BitVec.toNat_setWidth]
  split at h <;> omega

theorem filterSlot_accepts : (filterSlot ext i).accepts id ext' = true ↔ ext' = ext ∧ maskId i ext = id := by
  simp only [FSlot.accepts, filterSlot, Bool.true_and, Bool.and_eq_true, beq_iff_eq, maskId_setWidth]
  rw [eq_comm (a := ext)]

/-- Some slot accepts, with the bank and the place where it stands. -/
theorem any_accepts_iff {banks : List (List FSlot)} :
    (banks.any fun bank => bank.any fun f => f.accepts id ext) = true ↔
      ∃ (b n : Nat) (f : FSlot), banks[b]?.bind (·[n]?) = some f ∧ f.accepts id ext = true := by
  simp only [List.any_eq_true, List.mem_iff_getElem?, Option.bind_eq_some_iff]
  constructor
  · rintro ⟨bank, ⟨b, hb⟩, f, ⟨n, hf⟩, h⟩
    exact ⟨b, n, f, ⟨bank, hb, hf⟩, h⟩
  · rintro ⟨b, n, f, ⟨bank, hb, hf⟩, h⟩
    exact ⟨bank, ⟨b, hb⟩, f, ⟨n, hf⟩, h⟩

/-- A list within the capacity accepts its own kind and identifiers and no other (`43_transceiver.md` R209). -/
theorem Xcvr.filterList_accepts (hk : 0 < p.idsPerBank ext) (hlen : ids.length ≤ p.bankCount * p.idsPerBank ext) :
    (r.filterList p ext ids).accepts id ext' = true ↔ ext' = ext ∧ ∃ i ∈ ids, maskId i ext = id := by
  change (false || (partitionBanks p ext ids).any _) = true ↔ _
  rw [Bool.false_or, any_accepts_iff]
  constructor
  · rintro ⟨b, n, f, hf, ha⟩
    rw [partitionBanks_slot_eq hf] at ha
    obtain hz | ⟨j, i, hj, -, -, hi⟩ := partitionSlot_cases (p.idsPerBank ext) ext ids b n
    · rw [hz, FSlot.zero_accepts] at ha
      exact nomatch ha
    · rw [hi, filterSlot_accepts] at ha
      exact ⟨ha.1, i, List.mem_of_getElem? hj, ha.2⟩
  · rintro ⟨he, i, hi, hid⟩
    obtain ⟨j, hj⟩ := List.mem_iff_getElem?.1 hi
    exact ⟨_, _, _, partitionBanks_place hk hlen hj, filterSlot_accepts.2 ⟨he, hid⟩⟩

end

/-- Settles O34: a slot of the table is that of an identifier or zero. -/
theorem xcvrFilterListResult : Obligations.XcvrFilterListResult := by
  intro s x r ids ext hc hr hl hd k
  have gate := xcvrGate_filter_run hl
  have hk : 0 < k := idsPerBank_pos hc ext
  have list := (Configures.filterList s x ids ext).hardwareOk hr gate hd
  refine ⟨rfl, fun hlen => ?_, fun hlen => ?_⟩
  · rw [list, Xcvr.filterBy_of_gt hlen, (Configures.filterAll s x).hardwareOk hr gate hd]
  · rw [Xcvr.filterBy_of_le hlen] at list
    obtain ⟨count, size⟩ := partitionBanks_ok s.cfg.params ext ids
    refine ⟨partitionBanks s.cfg.params ext ids, list, count, size, fun j id hj => partitionBanks_place hk hlen hj,
      fun b n f hf hother => ?_⟩
    rw [partitionBanks_slot_eq hf]
    obtain hz | ⟨j, id, hj, hb, hn, -⟩ := partitionSlot_cases k ext ids b n
    · rw [hz]; rfl
    · exact absurd ⟨hb, hn⟩ (hother j (List.getElem?_eq_some_iff.1 hj).1)

/-- Settles O35: the register file left is `Xcvr.filterList`. -/
theorem filterListAcceptsExactlyTheList : Obligations.FilterListAcceptsExactlyTheList := by
  intro s x r r' ids ext t hc hr hl hd hlen h hr' id ext'
  rw [(Configures.filterList s x ids ext).hardwareOk hr (xcvrGate_filter_run hl) hd, Xcvr.filterBy_of_le hlen] at h
  cases h
  rw [State.returns_xcvrs, State.setXcvr_get (s := s.setDraws s.draws.dropHwOk) hr] at hr'
  cases hr'
  exact Xcvr.filterList_accepts (idsPerBank_pos hc ext) hlen

/-! ### `XCVR.SEND` in `Running` -/

section
variable {c : Config} {f : Frame} {k : Nat}

theorem Xcvr.send_of_fault (h : r.stat.fault = true) : r.send c f = (.error, r) := if_pos h

theorem Xcvr.send_of_full (h : r.freeSlot c.params = none) : r.send c f = (.error, r) := by
  simp only [Xcvr.send, h, ite_self]

theorem Xcvr.send_of_free (hf : r.stat.fault = false) (h : r.freeSlot c.params = some k) :
    r.send c f = (.ok, r.fillSlot c k f) := by
  simp only [Xcvr.send, hf, h, Bool.false_eq_true, if_false]

theorem Xcvr.fillSlot_pending (hk : k < 32) (j : Nat) : (r.fillSlot c k f).pending j = (j == k || r.pending j) :=
  getLsbD_setBit r.txpend hk j

theorem Xcvr.fillSlot_lock : (r.fillSlot c k f).ctrl.lock =
    if c.params.clearLockBeforeTx then false else r.ctrl.lock := by
  cases h : c.params.clearLockBeforeTx <;> simp [Xcvr.fillSlot, h]

theorem exec_xcvrSend_of_running {fr : FrameRef} (hr : s.xcvrs[x]? = some r) (hl : r.ctrl.lifecycle = .running)
    (hf : s.frameOf fr = some f) : exec (.xcvrSend x fr) s =
      .next ((s.setXcvr x (r.send s.cfg f).2).returns (.status (r.send s.cfg f).1)) :=
  (exec_xcvrSend_of_frame hf).trans (answer_of_ok (callXcvrSend_of_run hr (congrArg _ hl)))

end

/-- Settles O36: by the fault flag, then by the least free slot. -/
theorem xcvrSendResult : Obligations.XcvrSendResult := by
  intro s x r fr f hc hr hl hf
  have send := exec_xcvrSend_of_running hr hl hf
  refine ⟨rfl, fun h => ?_, fun k hfault hk hfree hleast => ?_⟩
  · have error : r.send s.cfg f = (.error, r) := by
      obtain h | h := h
      · exact Xcvr.send_of_fault h
      · exact Xcvr.send_of_full (Xcvr.freeSlot_eq_none.2 h)
    rw [send, error, State.setXcvr_self hr]
  · have slot : r.freeSlot s.cfg.params = some k := Xcvr.freeSlot_eq_some.2 ⟨hk, hfree, hleast⟩
    have bit : k < 32 := Nat.lt_of_lt_of_le hk (Config.txSlots_le hc)
    refine ⟨r.fillSlot s.cfg k f, ?_, ?_, Xcvr.fillSlot_pending bit⟩
    · rw [send, Xcvr.send_of_free hfault slot]
    · rw [← Xcvr.fillSlot_lock (k := k) (f := f)]; rfl

/-! ### `XCVR.RECEIVE` in `Running` -/

section
variable {n : Nat} {q : List Element}

theorem callXcvrReceive_of_no_fifo (hr : s.xcvrs[x]? = some r) (hl : r.ctrl.lifecycle = .running)
    (hq : r.rxfifo[n]? = none) : callXcvrReceive x n s = .error .badFifoSelector := by
  simp only [callXcvrReceive, hr, hl, xcvrGate, hq]

theorem callXcvrReceive_of_fault (hr : s.xcvrs[x]? = some r) (hl : r.ctrl.lifecycle = .running)
    (hq : r.rxfifo[n]? = some q) (hf : r.stat.fault = true) : callXcvrReceive x n s = .ok ((.error, none), s) := by
  simp only [callXcvrReceive, hr, hl, xcvrGate, hq, hf, if_true]

theorem callXcvrReceive_of_empty (hr : s.xcvrs[x]? = some r) (hl : r.ctrl.lifecycle = .running)
    (hq : r.rxfifo[n]? = some []) (hf : r.stat.fault = false) :
    callXcvrReceive x n s = .ok ((.empty, none), s) := by
  simp only [callXcvrReceive, hr, hl, xcvrGate, hq, hf, Bool.false_eq_true, if_false]

theorem callXcvrReceive_of_cons {e : Element} (hr : s.xcvrs[x]? = some r) (hl : r.ctrl.lifecycle = .running)
    (hq : r.rxfifo[n]? = some (e :: q)) (hf : r.stat.fault = false) : callXcvrReceive x n s =
      .ok ((.ok, some { fromRx s.cfg.family e with timestamp := some (s.draws.nextNow s.cfg.tsWidth) }),
        (s.setDraws s.draws.dropNow).setXcvr x { r with rxfifo := r.rxfifo.set n q }) := by
  simp only [callXcvrReceive, hr, hl, xcvrGate, hq, hf, Bool.false_eq_true, if_false]

theorem Draws.nextNow_lt (d : Draws) (width : Nat) : d.nextNow width < 2 ^ width := Nat.mod_lt _ (Nat.two_pow_pos _)

/-- In `Running`, `CHAN.RECEIVE` is the call `XCVR.RECEIVE` of its Transceiver and FIFO (`45_channel.md` R276). -/
theorem exec_chanReceive_of_running {c : Nat} {k : Chan} (hk : s.chans[c]? = some k) (hs : k.state = .running) :
    exec (.chanReceive c) s = answer (callXcvrReceive k.xcvr k.fifo s) fun p => .received p.1 p.2 := by
  simp only [exec, execChanReceive, callChanReceive, hk, hs, chanGate]

end

/-- Settles O37: both operations answer what the call answers. -/
theorem xcvrReceiveResult : Obligations.XcvrReceiveResult := by
  intro s x n r i hr hi
  have receive : exec i s = answer (callXcvrReceive x n s) fun p => .received p.1 p.2 := by
    obtain rfl | ⟨c, k, rfl, hk, hs, rfl, rfl⟩ := hi
    · exact exec_xcvrReceive s x n
    · exact exec_chanReceive_of_running hk hs
  refine ⟨rfl, fun hl => ?_, fun hl hn => ?_, fun hl q hq => ⟨fun hf => ?_, fun hf he => ?_, fun e l hf he => ?_⟩⟩
  · exact receive.trans (answer_of_ok (callXcvrReceive_of_failed hr (congrArg _ hl)))
  · exact receive.trans (answer_of_error (callXcvrReceive_of_no_fifo hr hl (List.getElem?_eq_none hn)))
  · exact receive.trans (answer_of_ok (callXcvrReceive_of_fault hr hl hq hf))
  · exact receive.trans (answer_of_ok (callXcvrReceive_of_empty hr hl (he ▸ hq) hf))
  · exact ⟨_, s.draws.nextNow_lt _, receive.trans (answer_of_ok (callXcvrReceive_of_cons hr hl (he ▸ hq) hf))⟩

end Sys2Proof.Machine
end

section
/-! PROOFS. The steps of the bus agent (`43_transceiver.md` R214 to R218): where each is enabled and what it does, and
what an arriving frame becomes (R215). -/

namespace Sys2Proof.Machine

variable {s : State} {x : Nat} {r v : Xcvr} {b : BusStep} {c : Config}

/-! ### A bus input -/

section
variable {rest : List Event}

theorem step_bus_of_enabled (hw : s.cfg.wf = true) (hs : s.schedule = .bus x b :: rest) (hr : s.xcvrs[x]? = some r)
    (hb : busStep s.cfg b r = some v) : step s = .next (({ s with schedule := rest } : State).setXcvr x v) := by
  simp only [step_of_cons hw hs, runEvent, runBus, hr, hb]

/-- A bus input that is not enabled is dropped (log entry 16). -/
theorem step_bus_of_not_enabled (hw : s.cfg.wf = true) (hs : s.schedule = .bus x b :: rest)
    (hr : s.xcvrs[x]? = some r) (hb : busStep s.cfg b r = none) : step s = .next { s with schedule := rest } := by
  simp only [step_of_cons hw hs, runEvent, runBus, hr, hb]

/-- A bus input that leaves the register file as it is leaves the state as it is. -/
theorem step_bus_of_same (hw : s.cfg.wf = true) (hs : s.schedule = .bus x b :: rest) (hr : s.xcvrs[x]? = some r)
    (hb : busStep s.cfg b r = some r) : step s = .next { s with schedule := rest } := by
  rw [step_bus_of_enabled hw hs hr hb, State.setXcvr_self (s := { s with schedule := rest }) hr]

end

/-! ### Where each step is enabled -/

theorem Xcvr.isRunning_iff : r.isRunning = true ↔ r.ctrl.lifecycle = .running := beq_iff_eq

theorem busStep_txComplete_of_no_slot {k : Nat} (h : r.tx[k]? = none) : busStep c (.txComplete k) r = none := by
  simp only [busStep, h, ite_self]

theorem busStep_txComplete {k : Nat} {e : Element} (h : r.tx[k]? = some e) : busStep c (.txComplete k) r =
    if r.ctrl.lifecycle = .running ∧ r.stat.fault = false ∧ r.pending k = true then some (r.complete c k e)
    else none := by
  simp only [busStep, h, Bool.and_eq_true, Bool.not_eq_true', Xcvr.isRunning_iff, and_assoc]

theorem busStep_rxArrive (w : WireFrame) (j0 j1 : Word) : busStep c (.rxArrive w j0 j1) r =
    if r.ctrl.lifecycle = .running ∧ r.stat.fault = false ∧ w.wf = true then some (r.arrive c w j0 j1) else none := by
  simp only [busStep, Bool.and_eq_true, Bool.not_eq_true', Xcvr.isRunning_iff, and_assoc]

theorem busStep_faultSet : busStep c .faultSet r =
    if r.ctrl.lifecycle = .running ∧ r.stat.fault = false then some { r with stat := { r.stat with fault := true } }
    else none := by
  simp only [busStep, Bool.and_eq_true, Bool.not_eq_true', Xcvr.isRunning_iff]

theorem busStep_faultClear : busStep c .faultClear r =
    if r.ctrl.lifecycle = .running ∧ r.stat.fault = true ∧ r.ctrl.abor = true then
      some { r with stat := { r.stat with fault := false } }
    else none := by
  simp only [busStep, Bool.and_eq_true, Xcvr.isRunning_iff, and_assoc]

/-- Settles O50: without the slot or where it is not enabled the input is dropped, else the register file is
`Xcvr.complete`. -/
theorem busTransmitCompletes : Obligations.BusTransmitCompletes := by
  refine ⟨fun s rest x k r hw hs hr he => ?_, fun s rest x k r e hw hs hr he => ⟨fun h => ?_, fun hl hf hp => ?_⟩⟩
  · exact step_bus_of_not_enabled hw hs hr (busStep_txComplete_of_no_slot he)
  · exact step_bus_of_not_enabled hw hs hr ((busStep_txComplete he).trans (if_neg h))
  · refine ⟨r.complete s.cfg k e, ?_, rfl, getLsbD_clearBit r.txpend k⟩
    exact step_bus_of_enabled hw hs hr ((busStep_txComplete he).trans (if_pos ⟨hl, hf, hp⟩))

/-- Settles O52: by where each of the three steps is enabled. -/
theorem busFaultAndLock : Obligations.BusFaultAndLock := by
  intro s rest x r hw hr u
  refine ⟨fun hs => ⟨fun h => ?_, fun h => ?_⟩, fun hs => ⟨fun h => ?_, fun h => ?_⟩, fun b hs => ?_⟩
  · exact step_bus_of_enabled hw hs hr (busStep_faultSet.trans (if_pos h))
  · exact step_bus_of_not_enabled hw hs hr (busStep_faultSet.trans (if_neg h))
  · exact step_bus_of_enabled hw hs hr (busStep_faultClear.trans (if_pos h))
  · exact step_bus_of_not_enabled hw hs hr (busStep_faultClear.trans (if_neg h))
  · exact step_bus_of_enabled hw hs hr rfl

/-! ### Header bits that the decoder ignores -/

section
variable {mask w junk id : Word} {ext : Bool} {j : Nat} {fam : Family}

theorem mixIgnored_read (hj : j < 32) (h : mask.getLsbD j = true) :
    (mixIgnored mask w junk).getLsbD j = w.getLsbD j := by
  rw [getLsbD_mixIgnored mask w junk hj, if_pos h]

theorem mixIgnored_ignored (h : j < 32 → mask.getLsbD j = false) :
    (mixIgnored mask w junk).getLsbD j = junk.getLsbD j := by
  by_cases hj : j < 32
  · rw [getLsbD_mixIgnored mask w junk hj, if_neg (Bool.eq_false_iff.1 (h hj))]
  · rw [BitVec.getLsbD_of_ge _ _ (by omega), BitVec.getLsbD_of_ge _ _ (by omega)]

/-- The bits that the decoder reads of a Classic `H0` (`30_encoding.md` R96, R106, R107). -/
theorem h0ReadMask_classic : ∀ j < 32, ∀ ext,
    (h0ReadMask .classic ext).getLsbD j = decide (j = 2 ∨ 21 ≤ j ∨ 3 ≤ j ∧ ext = true) := by decide

/-- The bits that the decoder reads of a Flexible `H0` (`30_encoding.md` R98, R106, R107). -/
theorem h0ReadMask_flexible : ∀ j < 32, ∀ ext, (h0ReadMask .flexible ext).getLsbD j =
    decide (j = 30 ∨ j < 29 ∧ (18 ≤ j ∨ ext = true)) := by decide

theorem h1ReadMask_classic : ∀ j < 32, (h1ReadMask .classic).getLsbD j = decide (j < 4) := by decide

theorem h1ReadMask_flexible : ∀ j < 32, (h1ReadMask .flexible).getLsbD j = decide (16 ≤ j ∧ j < 20) := by decide

/-- Every bit of an arriving `H0` that the decoder ignores is the environment's. -/
theorem h0_ignored (h : if fam = .classic then j < 2 ∨ (j < 21 ∧ j ≠ 2 ∧ ext = false)
    else j = 31 ∨ j = 29 ∨ (j < 18 ∧ ext = false)) :
    (mixIgnored (h0ReadMask fam ext) w junk).getLsbD j = junk.getLsbD j := by
  refine mixIgnored_ignored fun hj => ?_
  cases fam with
  | classic => grind [h0ReadMask_classic j hj ext]
  | flexible => grind [h0ReadMask_flexible j hj ext]

/-- Every bit of an arriving `H1` that the decoder ignores is the environment's. -/
theorem h1_ignored (h : if fam = .classic then 4 ≤ j else j < 16 ∨ 20 ≤ j) :
    (mixIgnored (h1ReadMask fam) w junk).getLsbD j = junk.getLsbD j := by
  refine mixIgnored_ignored fun hj => ?_
  cases fam with
  | classic => grind [h1ReadMask_classic j hj]
  | flexible => grind [h1ReadMask_flexible j hj]

/-- The decoder finds the kind and the identifier whatever the ignored bits are (`30_encoding.md` R107). -/
theorem decH0_mixIgnored (fam : Family) (hid : id.toNat < if ext then 2 ^ 29 else 2 ^ 11) (junk : Word) :
    decH0 fam (mixIgnored (h0ReadMask fam ext) (encH0 fam id ext) junk) = (id, ext) := by
  have round := decH0_encH0 fam hid
  have kind := congrArg Prod.snd round
  rw [← round]
  cases fam with
  | classic =>
    have read : ∀ j < 32, j = 2 ∨ 21 ≤ j ∨ 3 ≤ j ∧ ext = true → (encH0 .classic id ext).getLsbD j =
        (mixIgnored (h0ReadMask .classic ext) (encH0 .classic id ext) junk).getLsbD j := fun j hj h =>
      (mixIgnored_read hj ((h0ReadMask_classic j hj ext).trans (decide_eq_true h))).symm
    refine (decH0_classic_congr (read 2 (by decide) (.inl rfl)) fun j hj h => read j hj (.inr ?_)).symm
    exact h.imp_right fun ⟨h3, hk⟩ => ⟨h3, kind.symm.trans hk⟩
  | flexible =>
    have read : ∀ j < 32, j = 30 ∨ j < 29 ∧ (18 ≤ j ∨ ext = true) → (encH0 .flexible id ext).getLsbD j =
        (mixIgnored (h0ReadMask .flexible ext) (encH0 .flexible id ext) junk).getLsbD j := fun j hj h =>
      (mixIgnored_read hj ((h0ReadMask_flexible j hj ext).trans (decide_eq_true h))).symm
    refine (decH0_flexible_congr (read 30 (by decide) (.inl rfl)) fun j hj h => read j (by omega) (.inr ⟨hj, ?_⟩)).symm
    exact h.imp_right fun hk => kind.symm.trans hk

theorem decH1_mixIgnored (fam : Family) (w junk : Word) :
    decH1 fam (mixIgnored (h1ReadMask fam) w junk) = decH1 fam w := by
  cases fam with
  | classic =>
    refine decH1_classic_congr fun j hj => mixIgnored_read (by omega) ?_
    exact (h1ReadMask_classic j (by omega)).trans (decide_eq_true hj)
  | flexible =>
    refine decH1_flexible_congr fun j h16 h20 => mixIgnored_read (by omega) ?_
    exact (h1ReadMask_flexible j (by omega)).trans (decide_eq_true ⟨h16, h20⟩)

end

/-! ### An arriving frame -/

section
variable {w : WireFrame} {fam : Family}

theorem WireFrame.wf_iff : w.wf = true ↔
    w.id.toNat < (if w.isExtended then 2 ^ 29 else 2 ^ 11) ∧ w.data.length = w.byteCount := by
  simp only [WireFrame.wf, Bool.and_eq_true, decide_eq_true_eq]

/-- The Frame that a frame on the wire is, its length clamped (`43_transceiver.md` R215). -/
def WireFrame.frame (w : WireFrame) : Frame :=
  { id := w.id, length := BitVec.ofNat 8 w.byteCount, data := Bytes8.ofFn fun i => w.data.getD i 0,
    isExtended := w.isExtended, timestamp := none }

theorem WireFrame.frame_length (w : WireFrame) : w.frame.length.toNat = w.byteCount := by
  have h : w.byteCount ≤ 8 := Nat.min_le_right ..
  exact Nat.mod_eq_of_lt (by omega)

theorem WireFrame.frame_wf (h : w.wf = true) (c : Config) : w.frame.wf c = true := by
  obtain ⟨hid, hdata⟩ := WireFrame.wf_iff.1 h
  refine Frame.wf_iff.2 ⟨hid, ?_, fun i hi hlen => ?_, fun _ ht => nomatch ht⟩
  · rw [w.frame_length]
    exact Nat.min_le_right ..
  · rw [w.frame_length, ← hdata] at hlen
    exact (Bytes8.get_ofFn _ hi).trans (List.getD_eq_default _ _ hlen)

/-- The length code on the wire is decoded to the clamped length. -/
theorem WireFrame.dlcDecode_dlc (w : WireFrame) : dlcDecode w.dlc = w.frame.length := by
  apply BitVec.eq_of_toNat_eq
  rw [dlcDecode_toNat, w.frame_length]; rfl

/-- The element of an arriving frame, word by word. -/
theorem arrivalElement_eq (h : w.wf = true) (fam : Family) (j0 j1 : Word) : arrivalElement fam w j0 j1 =
    { frameToElement fam w.frame with
      h0 := mixIgnored (h0ReadMask fam w.isExtended) (encH0 fam w.id w.isExtended) j0
      h1 := mixIgnored (h1ReadMask fam) (encH1 fam (w.dlc.setWidth 32)) j1 } := by
  have built : newFrame w.id (BitVec.ofNat 8 w.byteCount) (Bytes8.ofFn fun i => w.data.getD i 0) w.isExtended =
      w.frame := newFrame_of_wf (WireFrame.frame_wf h Config.sample)
  simp only [arrivalElement, built]
  rfl

/-- The element of an arriving frame holds the length code on the wire. -/
theorem decH1_arrivalElement (fam : Family) (w : WireFrame) (j0 j1 : Word) :
    decH1 fam (arrivalElement fam w j0 j1).h1 = w.dlc :=
  (decH1_mixIgnored fam _ j1).trans (decH1_encH1 fam w.dlc)

/-- The element of an arriving frame decodes to the frame: its header to that of the frame's own element, but for the
length code, which is clamped. -/
theorem fromRx_arrivalElement (h : w.wf = true) (fam : Family) (j0 j1 : Word) :
    fromRx fam (arrivalElement fam w j0 j1) = w.frame := by
  obtain ⟨hid, -⟩ := WireFrame.wf_iff.1 h
  have wf := WireFrame.frame_wf h Config.sample
  obtain ⟨-, hlen, -⟩ := Frame.wf_iff.1 wf
  have head : decH0 fam (arrivalElement fam w j0 j1).h0 = decH0 fam (frameToElement fam w.frame).h0 := by
    rw [arrivalElement_eq h, decH0_mixIgnored fam hid]
    exact (decH0_encH0 fam hid).symm
  have length : dlcDecode (decH1 fam (arrivalElement fam w j0 j1).h1) =
      dlcDecode (decH1 fam (frameToElement fam w.frame).h1) := by
    rw [decH1_arrivalElement, w.dlcDecode_dlc]
    exact (dlcDecode_length hlen).symm
  have data : (arrivalElement fam w j0 j1).dl = packDl w.frame.data ∧
      (arrivalElement fam w j0 j1).dh = packDh w.frame.data := by
    rw [arrivalElement_eq h]; exact ⟨rfl, rfl⟩
  calc fromRx fam (arrivalElement fam w j0 j1)
      = fromRx fam (frameToElement fam w.frame) := by simp only [fromRx, head, length, data, frameToElement]
    _ = w.frame := fromRx_frameToElement_of_wf fam wf

end

section
variable {w : WireFrame} {j0 j1 : Word} {q : List Element}

theorem Xcvr.arrive_of_not_accepted (h : r.accepts w.id w.isExtended = false) : r.arrive c w j0 j1 = r :=
  if_neg (Bool.eq_false_iff.1 h)

/-- An arriving frame that finds its FIFO full is dropped (`43_transceiver.md` R215, D25). -/
theorem Xcvr.arrive_of_full (hq : r.rxfifo[c.params.filterFifo]? = some q) (h : c.params.rxFifoDepth ≤ q.length) :
    r.arrive c w j0 j1 = r := by
  simp only [Xcvr.arrive, hq, if_neg (Nat.not_lt.2 h), ite_self]

theorem Xcvr.arrive_of_room (ha : r.accepts w.id w.isExtended = true)
    (hq : r.rxfifo[c.params.filterFifo]? = some q) (h : q.length < c.params.rxFifoDepth) : r.arrive c w j0 j1 =
      { r with rxfifo := r.rxfifo.set c.params.filterFifo (q ++ [arrivalElement c.family w j0 j1]) } := by
  simp only [Xcvr.arrive, ha, hq, h, if_true]

end

/-- Settles O51: by where an arrival is enabled, then by acceptance and room; the element is `arrivalElement`. -/
theorem busFrameArrives : Obligations.BusFrameArrives := by
  intro s rest x w j0 j1 r q hw hs hr hq u enabled
  refine ⟨fun h => ?_, fun h hdrop => ?_, fun h ha hroom => ?_⟩
  · exact step_bus_of_not_enabled hw hs hr ((busStep_rxArrive w j0 j1).trans (if_neg h))
  · have same : r.arrive s.cfg w j0 j1 = r := by
      obtain hdrop | hdrop := hdrop
      · exact Xcvr.arrive_of_not_accepted hdrop
      · exact Xcvr.arrive_of_full hq hdrop
    exact step_bus_of_same hw hs hr ((busStep_rxArrive w j0 j1).trans ((if_pos h).trans (congrArg some same)))
  · obtain ⟨-, -, hwire⟩ := id h
    have arrives := (busStep_rxArrive (c := s.cfg) w j0 j1).trans (if_pos h)
    rw [Xcvr.arrive_of_room ha hq hroom] at arrives
    refine ⟨arrivalElement s.cfg.family w j0 j1, step_bus_of_enabled hw hs hr arrives,
      fromRx_arrivalElement hwire s.cfg.family j0 j1, ?_, fun j => h0_ignored, fun j => h1_ignored⟩
    rw [← decH1_arrivalElement s.cfg.family w j0 j1]
    cases s.cfg.family <;> rfl

end Sys2Proof.Machine
end

section
/-! PROOFS. What each Channel operation answers on a Channel that exists (`45_channel.md` R271 to R276), and what it
leaves alone (`20_memory.md` R60). -/

namespace Sys2Proof.Machine

variable {s t u : State} {c n x : Nat} {k : Chan} {r : Xcvr} {f : Frame}

/-! ### The operations as calls, and their gate (`45_channel.md` R271) -/

theorem exec_chanInit (s : State) (c baud : Nat) (ext : Bool) (fl : Filter) :
    exec (.chanInit c baud ext fl) s = answer (callChanInit c baud ext fl s) .status := rfl

theorem exec_chanStart (s : State) (c : Nat) : exec (.chanStart c) s = answer (callChanStart c s) .status := rfl

theorem exec_chanSend_of_frame {fr : FrameRef} (hf : s.frameOf fr = some f) :
    exec (.chanSend c fr) s = answer (callChanSend c f s) .status := by
  simp only [exec, execChanSend, hf]

theorem exec_chanTxDrain (s : State) (c : Nat) :
    exec (.chanTxDrain c) s = answer (callChanTxDrain c s) fun _ => .nothing := rfl

theorem exec_chanReceive (s : State) (c : Nat) :
    exec (.chanReceive c) s = answer (callChanReceive c s) fun p => .received p.1 p.2 := rfl

section
variable {α : Type} {op : ChanOp} {failed : α} {q : Reply α} {e : Refusal}

theorem Gated.answer_refuse (h : Gated op c s failed q) (hk : s.chans[c]? = some k)
    (hg : chanGate op k.state = .refuse e) (res : α → OpResult) : answer q res = .refused e :=
  answer_of_error (h.refuse hk hg)

theorem Gated.answer_failed (h : Gated op c s failed q) (hk : s.chans[c]? = some k)
    (hg : chanGate op k.state = .failed) (res : α → OpResult) : answer q res = .next (s.returns (res failed)) :=
  answer_of_ok (h.failed hk hg)

end

/-- Settles O41: cell by cell of the gate. -/
theorem channelGate : Obligations.ChannelGate := by
  intro s c k baud ext fl fr f hk hf
  have init := callChanInit_gated (s := s) (c := c) baud ext fl
  have start := callChanStart_gated (s := s) (c := c)
  have send := callChanSend_gated (s := s) (c := c) f
  have drain := callChanTxDrain_gated (s := s) (c := c)
  have receive := callChanReceive_gated (s := s) (c := c)
  rw [exec_chanInit, exec_chanStart, exec_chanSend_of_frame hf, exec_chanTxDrain, exec_chanReceive]
  refine ⟨fun h => ?_, fun h => ?_, fun h => ?_, fun h => ?_, fun h => ?_⟩
  · have gate : chanGate .init k.state = .refuse .channelInitTwice := by obtain h | h := h <;> rw [h] <;> rfl
    exact init.answer_refuse hk gate _
  · exact start.answer_refuse hk (congrArg _ h) _
  · exact start.answer_refuse hk (congrArg _ h) _
  · have gate : chanGate .transfer k.state = .refuse .channelNotRunning := by obtain h | h := h <;> rw [h] <;> rfl
    exact ⟨send.answer_refuse hk gate _, receive.answer_refuse hk gate _, drain.answer_refuse hk gate _⟩
  · have gate : chanGate .transfer k.state = .failed := congrArg _ h
    exact ⟨init.answer_failed hk (congrArg _ h) _, start.answer_failed hk (congrArg _ h) _,
      send.answer_failed hk gate _, receive.answer_failed hk gate _, drain.answer_failed hk gate _⟩

/-! ### `CHAN.INIT` and `CHAN.START` (`45_channel.md` R272, R273) -/

section
variable {op : XcvrOp} {effect : Xcvr → Xcvr}

theorem configure_of_hwOk (hr : s.xcvrs[x]? = some r) (hg : xcvrGate op r.ctrl.lifecycle = .run)
    (hd : s.draws.nextHwOk = true) :
    configure op x effect s = .ok (.ok, (s.setDraws s.draws.dropHwOk).setXcvr x (effect r)) := by
  rw [configure_run hr hg, if_pos hd]

theorem configure_of_hwFailure (hr : s.xcvrs[x]? = some r) (hg : xcvrGate op r.ctrl.lifecycle = .run)
    (hd : s.draws.nextHwOk = false) :
    configure op x effect s = .ok (.error, (s.setDraws s.draws.dropHwOk).setXcvr x (r.setLifecycle .failed)) := by
  rw [configure_run hr hg, if_neg (Bool.eq_false_iff.1 hd)]

end

theorem callFilter_eq_configure (x : Nat) (fl : Filter) (s : State) :
    callFilter x fl s = configure .filter x (·.applyFilter s.cfg.params fl) s := by
  cases fl <;> rfl

/-- Of two configuration calls on one Transceiver the second one's draws and register file stay. -/
theorem State.setDraws_setXcvr_twice (s : State) (d e : Draws) (x : Nat) (v w : Xcvr) :
    (((s.setDraws d).setXcvr x v).setDraws e).setXcvr x w = (s.setDraws e).setXcvr x w := by
  rw [State.setXcvr_setDraws, State.setDraws_setDraws, State.setXcvr_setXcvr]

section
variable {baud : Nat} {ext : Bool} {fl : Filter}

theorem callChanInit_of_xcvr_error (hk : s.chans[c]? = some k) (hs : k.state = .uninitialized)
    (hi : callXcvrInit k.xcvr baud ext s = .ok (.error, t)) :
    callChanInit c baud ext fl s = .ok (.error, t.setChan c { k with state := .failed }) := by
  simp [callChanInit, hk, hs, chanGate, hi, enterChState]

theorem callChanInit_of_filter_error (hk : s.chans[c]? = some k) (hs : k.state = .uninitialized)
    (hi : callXcvrInit k.xcvr baud ext s = .ok (.ok, t)) (hf : callFilter k.xcvr fl t = .ok (.error, u)) :
    callChanInit c baud ext fl s = .ok (.error, u.setChan c { k with state := .failed }) := by
  simp [callChanInit, hk, hs, chanGate, hi, hf, enterChState]

theorem callChanInit_of_ok (hk : s.chans[c]? = some k) (hs : k.state = .uninitialized)
    (hi : callXcvrInit k.xcvr baud ext s = .ok (.ok, t)) (hf : callFilter k.xcvr fl t = .ok (.ok, u)) :
    callChanInit c baud ext fl s = .ok (.ok, u.setChan c { k with state := .filterConfigured }) := by
  simp [callChanInit, hk, hs, chanGate, hi, hf, enterChState]

theorem callChanStart_of_error (hk : s.chans[c]? = some k) (hs : k.state = .filterConfigured)
    (hi : callXcvrStart k.xcvr s = .ok (.error, t)) :
    callChanStart c s = .ok (.error, t.setChan c { k with state := .failed }) := by
  simp [callChanStart, hk, hs, chanGate, hi, enterChState]

theorem callChanStart_of_ok (hk : s.chans[c]? = some k) (hs : k.state = .filterConfigured)
    (hi : callXcvrStart k.xcvr s = .ok (.ok, t)) :
    callChanStart c s = .ok (.ok, t.setChan c { k with state := .running }) := by
  simp [callChanStart, hk, hs, chanGate, hi, enterChState]

end

/-- Settles O42: by the draw of each of the two configuration calls. -/
theorem chanInitResult : Obligations.ChanInitResult := by
  intro s c k r baud pre ext fl hk hs hr hl hpre d1 r1
  have gate : xcvrGate .init r.ctrl.lifecycle = .run := congrArg _ hl
  have init := callXcvrInit_of_entry (x := k.xcvr) (ext := ext) hpre
  have filter := callFilter_eq_configure k.xcvr fl ((s.setDraws d1).setXcvr k.xcvr r1)
  have hr1 : ((s.setDraws d1).setXcvr k.xcvr r1).xcvrs[k.xcvr]? = some r1 := State.setXcvr_get (s := s.setDraws d1) hr
  refine ⟨rfl, fun hd => ?_, fun hd hd1 => ?_, fun hd hd1 => ?_⟩
  · exact answer_of_ok (callChanInit_of_xcvr_error hk hs (init.trans (configure_of_hwFailure hr gate hd)))
  · rw [← s.setDraws_setXcvr_twice d1 _ _ r1]
    exact answer_of_ok (callChanInit_of_filter_error hk hs (init.trans (configure_of_hwOk hr gate hd))
      (filter.trans (configure_of_hwFailure hr1 rfl hd1)))
  · rw [← s.setDraws_setXcvr_twice d1 _ _ r1]
    exact answer_of_ok (callChanInit_of_ok hk hs (init.trans (configure_of_hwOk hr gate hd))
      (filter.trans (configure_of_hwOk hr1 rfl hd1)))

/-- Settles O43: by the draw of `XCVR.START`. -/
theorem chanStartResult : Obligations.ChanStartResult := by
  intro s c k r hk hs hr hl
  have gate : xcvrGate .start r.ctrl.lifecycle = .run := congrArg _ hl
  exact ⟨rfl, fun hd => answer_of_ok (callChanStart_of_ok hk hs (configure_of_hwOk hr gate hd)),
    fun hd => answer_of_ok (callChanStart_of_error hk hs (configure_of_hwFailure hr gate hd))⟩

/-! ### The Transceiver of a Channel that sends: `Running` or `Failed` (`43_transceiver.md` R201, R210) -/

/-- `XCVR.SEND` takes slot `n`, the least free one. -/
def Xcvr.TakesSlot (p : FamilyParams) (r : Xcvr) (n : Nat) : Prop :=
  r.ctrl.lifecycle = .running ∧ r.stat.fault = false ∧ n < p.txSlots ∧ r.pending n = false ∧
    ∀ j < n, r.pending j = true

/-- `XCVR.SEND` answers `Error`: the Transceiver is `Failed`, has a fault, or has no free slot. -/
def Xcvr.Blocked (p : FamilyParams) (r : Xcvr) : Prop :=
  r.ctrl.lifecycle = .failed ∨ r.stat.fault = true ∨ ∀ j < p.txSlots, r.pending j = true

/-- `TXIE` written where the Transceiver is `Running`, kept where it is `Failed` (`43_transceiver.md` R201, D21). -/
def Xcvr.setTxieIfRunning (b : Bool) (r : Xcvr) : Xcvr := if r.ctrl.lifecycle = .running then r.setTxie b else r

theorem Xcvr.blocked_of_no_slot {p : FamilyParams} (hl : r.ctrl.lifecycle = .running ∨ r.ctrl.lifecycle = .failed)
    (h : ∀ n, ¬r.TakesSlot p n) : r.Blocked p := by
  obtain hl | hl := hl
  · cases hf : r.stat.fault with
    | true => exact .inr (.inl hf)
    | false =>
      cases hn : r.freeSlot p with
      | none => exact .inr (.inr (Xcvr.freeSlot_eq_none.1 hn))
      | some n => exact absurd ⟨hl, hf, Xcvr.freeSlot_eq_some.1 hn⟩ (h n)
  · exact .inl hl

theorem callXcvrSend_of_slot (hr : s.xcvrs[x]? = some r) (h : r.TakesSlot s.cfg.params n) :
    callXcvrSend x f s = .ok (.ok, s.setXcvr x (r.fillSlot s.cfg n f)) := by
  obtain ⟨hl, hf, hn⟩ := h
  rw [callXcvrSend_of_run hr (congrArg _ hl), Xcvr.send_of_free hf (Xcvr.freeSlot_eq_some.2 hn)]

theorem callXcvrSend_of_blocked (hr : s.xcvrs[x]? = some r)
    (hl : r.ctrl.lifecycle = .running ∨ r.ctrl.lifecycle = .failed) (h : r.Blocked s.cfg.params) :
    callXcvrSend x f s = .ok (.error, s) := by
  obtain hl | hl := hl
  · have error : r.send s.cfg f = (.error, r) := by
      obtain h | h | h := h
      · exact nomatch hl.symm.trans h
      · exact Xcvr.send_of_fault h
      · exact Xcvr.send_of_full (Xcvr.freeSlot_eq_none.2 h)
    rw [callXcvrSend_of_run hr (congrArg _ hl), error, State.setXcvr_self hr]
  · exact callXcvrSend_of_failed hr (congrArg _ hl)

theorem callXcvrTxie_of_running_or_failed {b : Bool} (hr : s.xcvrs[x]? = some r)
    (hl : r.ctrl.lifecycle = .running ∨ r.ctrl.lifecycle = .failed) :
    callXcvrTxie b x s = .ok ((), s.setXcvr x (r.setTxieIfRunning b)) := by
  obtain hl | hl := hl
  · rw [callXcvrTxie_of_run hr (congrArg _ hl), Xcvr.setTxieIfRunning, if_pos hl]
  · have same : r.setTxieIfRunning b = r := if_neg (by simp [hl])
    rw [callXcvrTxie_of_failed hr (congrArg _ hl), same, State.setXcvr_self hr]

/-! ### `CHAN.SEND` (`45_channel.md` R274) -/

theorem callChanSend_of_sent (hk : s.chans[c]? = some k) (hs : k.state = .running)
    (ha : s.agent = k.retry.roles.producer) (h : callXcvrSend k.xcvr f s = .ok (.ok, t)) :
    callChanSend c f s = .ok (.ok, t) := by
  simp [callChanSend, hk, hs, chanGate, ha, h]

theorem callChanSend_of_not_sent (hk : s.chans[c]? = some k) (hs : k.state = .running)
    (ha : s.agent = k.retry.roles.producer) (h : callXcvrSend k.xcvr f s = .ok (.error, s)) :
    callChanSend c f s = queueForRetry c k f s := by
  simp [callChanSend, hk, hs, chanGate, ha, h]

/-- The Channel after its sender has pushed a Frame for which the retry ring had room. -/
def Chan.pushRetry (f : Frame) (k : Chan) : Chan :=
  { k with retry := (k.retry.setCell k.retry.back (some f)).setBack (k.retry.next k.retry.back) }

section
variable (hr : s.xcvrs[k.xcvr]? = some r) (hl : r.ctrl.lifecycle = .running ∨ r.ctrl.lifecycle = .failed)
include hr hl

theorem queueForRetry_of_room (hn : k.retry.isFull = false) : queueForRetry c k f s =
    .ok (.ok, (s.setChan c (k.pushRetry f)).setXcvr k.xcvr (r.setTxieIfRunning true)) := by
  have txie := callXcvrTxie_of_running_or_failed (s := s.setChan c (k.pushRetry f)) (b := true) hr hl
  unfold Chan.pushRetry at txie ⊢
  simp [queueForRetry, Ring.push_eq_of_not_full hn, txie]

/-- A rejected push leaves the Channel as it is, but for the drop counter. -/
theorem queueForRetry_of_full (hk : s.chans[c]? = some k) (hn : k.retry.isFull = true) : queueForRetry c k f s =
    .ok (.full, (s.setChan c { k with dropCount := k.dropCount + 1 }).setXcvr k.xcvr (r.setTxieIfRunning true)) := by
  have same : s.setChan c { k with retry := k.retry } = s := State.setChan_self hk
  have txie := callXcvrTxie_of_running_or_failed (b := true) hr hl
  simp [queueForRetry, Ring.push_of_full hn, same, txie, State.setXcvr_setChan]

end

/-- Settles O44: by whether a slot is free, then by whether the retry ring is full. -/
theorem chanSendResult : Obligations.ChanSendResult := by
  intro s c k r fr f hk hs hr hl hf free armed
  rw [exec_chanSend_of_frame hf]
  refine ⟨k.retry.next k.retry.back, rfl, rfl, fun ha => ?_⟩
  have queued : (∀ n, ¬free n) → callChanSend c f s = queueForRetry c k f s := fun h =>
    callChanSend_of_not_sent hk hs ha (callXcvrSend_of_blocked hr hl (Xcvr.blocked_of_no_slot hl h))
  refine ⟨fun n hn => ?_, fun hfree hroom => ?_, fun hfree hfull => ?_⟩
  · exact answer_of_ok (callChanSend_of_sent hk hs ha (callXcvrSend_of_slot hr hn))
  · exact answer_of_ok ((queued hfree).trans (queueForRetry_of_room hr hl (Ring.isFull_eq_false_iff.2 hroom)))
  · exact answer_of_ok ((queued hfree).trans (queueForRetry_of_full hr hl hk (Ring.isFull_eq_true_iff.2 hfull)))

/-! ### `CHAN.TX_DRAIN` (`45_channel.md` R275) -/

/-- The Channel after its drainer has peeked: the oldest frame is staged. -/
def Chan.peekRetry (k : Chan) : Chan := { k with retry := k.retry.stage k.retry.front }

/-- The Channel after its drainer has peeked and popped: the oldest frame is staged and has left. -/
def Chan.popRetry (k : Chan) : Chan :=
  { k with retry := (k.retry.stage k.retry.front).setFront (k.retry.next k.retry.front) }

theorem Chan.peekRetry_of_front (hc : k.retry.cellAt k.retry.front = some f) :
    k.peekRetry = { k with retry := { k.retry with staged := some f } } := by
  rw [← hc]; rfl

theorem Chan.popRetry_of_front (hc : k.retry.cellAt k.retry.front = some f) : k.popRetry =
    { k with retry := { k.retry with staged := some f, front := k.retry.next k.retry.front } } := by
  rw [← hc]; rfl

theorem Chan.popRetry_isEmpty (k : Chan) :
    k.popRetry.retry.isEmpty = true ↔ k.retry.next k.retry.front = k.retry.back := Ring.isEmpty_eq_true_iff

theorem callChanTxDrain_of_empty (hk : s.chans[c]? = some k) (hs : k.state = .running)
    (ha : s.agent = k.retry.roles.consumer) (he : k.retry.isEmpty = true) :
    callChanTxDrain c s = callXcvrTxie false k.xcvr s := by
  have gate : chanGate .transfer k.state = .run := congrArg _ hs
  have same : s.setChan c { k with retry := k.retry } = s := State.setChan_self hk
  simp [callChanTxDrain, hk, gate, ha, Ring.peek_of_empty he, same, quietWhenDrained, he]

section
variable (hk : s.chans[c]? = some k) (hs : k.state = .running) (ha : s.agent = k.retry.roles.consumer)
  (hn : k.retry.isEmpty = false) (hc : k.retry.cellAt k.retry.front = some f)
include hk hs ha hn hc

/-- A frame that is not sent stays, so the ring is not empty at the end. -/
theorem callChanTxDrain_of_not_sent
    (h : callXcvrSend k.xcvr f (s.setChan c k.peekRetry) = .ok (.error, s.setChan c k.peekRetry)) :
    callChanTxDrain c s = .ok ((), s.setChan c k.peekRetry) := by
  have gate : chanGate .transfer k.state = .run := congrArg _ hs
  have peek := Ring.peek_of_not_empty hn
  have stays : k.peekRetry.retry.isEmpty = false := hn
  unfold Chan.peekRetry at h stays ⊢
  simp [callChanTxDrain, hk, gate, ha, peek, hc, h, quietWhenDrained, stays]

/-- A frame that is sent is popped, and then the ring is tested. -/
theorem callChanTxDrain_of_sent (h : callXcvrSend k.xcvr f (s.setChan c k.peekRetry) = .ok (.ok, t)) :
    callChanTxDrain c s = quietWhenDrained k.popRetry (t.setChan c k.popRetry) := by
  have gate : chanGate .transfer k.state = .run := congrArg _ hs
  have peek := Ring.peek_of_not_empty hn
  have pop : (k.retry.stage k.retry.front).pop = (true, k.popRetry.retry) := Ring.pop_of_not_empty hn
  have popped : { k with retry := k.popRetry.retry } = k.popRetry := rfl
  unfold Chan.peekRetry at h
  simp [callChanTxDrain, hk, gate, ha, peek, hc, h, pop, popped]

end

/-- Settles O45: by whether the ring is empty, whether the oldest frame finds a slot, and whether it was the last. -/
theorem chanTxDrainResult : Obligations.ChanTxDrainResult := by
  intro s c k r hk hs hr hl quiet
  rw [exec_chanTxDrain]
  refine ⟨k.retry.next k.retry.front, rfl, rfl, fun ha => ⟨fun he => ?_, fun f hne hc => ?_⟩⟩
  · have empty := callChanTxDrain_of_empty hk hs ha (Ring.isEmpty_eq_true_iff.2 he)
    exact answer_of_ok (empty.trans (callXcvrTxie_of_running_or_failed hr hl))
  have hn : k.retry.isEmpty = false := Ring.isEmpty_eq_false_iff.2 hne
  have hr' : (s.setChan c k.peekRetry).xcvrs[k.xcvr]? = some r := hr
  refine ⟨fun hb => ?_, fun n hrun hfault hslot hfree hleast => ?_⟩
  · have stays := callChanTxDrain_of_not_sent hk hs ha hn hc (callXcvrSend_of_blocked hr' hl hb)
    rw [Chan.peekRetry_of_front hc] at stays
    exact answer_of_ok stays
  · have sent := callChanTxDrain_of_sent hk hs ha hn hc
      (callXcvrSend_of_slot hr' ⟨hrun, hfault, hslot, hfree, hleast⟩)
    rw [State.setXcvr_setChan, State.setChan_setChan, quietWhenDrained] at sent
    rw [← Chan.popRetry_of_front hc]
    by_cases hlast : k.retry.next k.retry.front = k.retry.back
    · rw [if_pos (k.popRetry_isEmpty.2 hlast)] at sent
      have hr'' := State.setXcvr_get (s := s.setChan c k.popRetry) (b := r.fillSlot s.cfg n f) hr
      have txie := callXcvrTxie_of_running_or_failed (b := false) hr'' hl
      rw [State.setXcvr_setXcvr] at txie
      rw [if_pos hlast]
      exact answer_of_ok (sent.trans txie)
    · rw [if_neg (mt k.popRetry_isEmpty.1 hlast)] at sent
      rw [if_neg hlast]
      exact answer_of_ok sent

/-! ### `CHAN.RECEIVE` (`45_channel.md` R276) -/

/-- Settles O46: both operations answer what the call `XCVR.RECEIVE` answers. -/
theorem chanReceiveResult : Obligations.ChanReceiveResult := fun s _ k hk hs =>
  ⟨rfl, (exec_chanReceive_of_running hk hs).trans (exec_xcvrReceive s k.xcvr k.fifo).symm⟩

/-! ### What a Channel operation leaves alone -/

section
variable {i : Instr}

/-- The five Channel operations of Channel `c` (`30_encoding.md` R91, unit 4). -/
def IsChanOp (c : Nat) (i : Instr) : Prop :=
  (∃ b e fl, i = .chanInit c b e fl) ∨ i = .chanStart c ∨ (∃ f, i = .chanSend c f) ∨ i = .chanTxDrain c ∨
    i = .chanReceive c

/-- Which parts a Channel operation may write besides its Transceiver's register file; the other operations are no
Channel operations. -/
def chanWrites : Instr → ChanWrites
  | .chanSend _ _ => { draws := false, drop := true, retry := true, state := false }
  | .chanTxDrain _ => { draws := false, drop := false, retry := true, state := false }
  | .chanReceive _ => { draws := true, drop := false, retry := false, state := false }
  | _ => { draws := true, drop := false, retry := false, state := true }

/-- A Channel operation is its call, and then delivers a result. -/
theorem exec_onlyChan (hi : IsChanOp c i) (h : exec i s = .next t) :
    ∃ u res, OnlyChan (chanWrites i) c s u ∧ t = u.returns res := by
  obtain ⟨b, e, fl, rfl⟩ | rfl | ⟨fr, rfl⟩ | rfl | rfl := hi
  · obtain ⟨st, u, hu, rfl⟩ := answer_eq_next h
    exact ⟨u, _, (callChanInit_only hu).1, rfl⟩
  · obtain ⟨st, u, hu, rfl⟩ := answer_eq_next h
    exact ⟨u, _, (callChanStart_only hu).1, rfl⟩
  · simp only [exec, execChanSend] at h
    split at h
    · exact nomatch h
    · obtain ⟨st, u, hu, rfl⟩ := answer_eq_next h
      exact ⟨u, _, (callChanSend_only hu).1, rfl⟩
  · rw [exec_chanTxDrain] at h
    obtain ⟨_, u, hu, rfl⟩ := answer_eq_next h
    exact ⟨u, _, callChanTxDrain_only hu, rfl⟩
  · rw [exec_chanReceive] at h
    obtain ⟨p, u, hu, rfl⟩ := answer_eq_next h
    exact ⟨u, _, callChanReceive_only hu, rfl⟩

theorem chanWrites_draws (h : (∃ f, i = .chanSend c f) ∨ i = .chanTxDrain c) : (chanWrites i).draws = false := by
  obtain ⟨f, rfl⟩ | rfl := h <;> rfl

theorem chanWrites_drop (hi : IsChanOp c i) (h : ∀ f, i ≠ .chanSend c f) : (chanWrites i).drop = false := by
  obtain ⟨b, e, fl, rfl⟩ | rfl | ⟨f, rfl⟩ | rfl | rfl := hi
  case inr.inr.inl => exact absurd rfl (h f)
  all_goals rfl

theorem chanWrites_retry (hi : IsChanOp c i) (h : ∀ f, i ≠ .chanSend c f) (h' : i ≠ .chanTxDrain c) :
    (chanWrites i).retry = false := by
  obtain ⟨b, e, fl, rfl⟩ | rfl | ⟨f, rfl⟩ | rfl | rfl := hi
  case inr.inr.inl => exact absurd rfl (h f)
  case inr.inr.inr.inl => exact absurd rfl h'
  all_goals rfl

theorem chanWrites_state (hi : IsChanOp c i) (h : ∀ b e fl, i ≠ .chanInit c b e fl) (h' : i ≠ .chanStart c) :
    (chanWrites i).state = false := by
  obtain ⟨b, e, fl, rfl⟩ | rfl | ⟨f, rfl⟩ | rfl | rfl := hi
  case inl => exact absurd rfl (h b e fl)
  case inr.inl => exact absurd rfl h'
  all_goals rfl

end

/-- Settles O47: the call changes what `OnlyChan` lets it change, and a result is delivered. -/
theorem channelOperationsFrame : Obligations.ChannelOperationsFrame := by
  intro s t c i hi h
  obtain ⟨u, res, only, rfl⟩ := exec_onlyChan hi h
  have lvs : u.lvs = s.lvs := by rw [only.rest]
  have rings : u.rings = s.rings := by rw [only.rest]
  have mem : u.mem = s.mem := by rw [only.rest]
  have frames : u.frames = s.frames := by rw [only.rest]
  refine ⟨.returns (.of_block (by rw [only.rest])) res, .returns mem res, .returns frames res,
    by rw [State.returns_lvs, lvs], by rw [State.returns_rings, rings], fun j hj => ?_, fun hw => ?_,
    fun k k' hk hk' => ?_⟩
  · rw [State.returns_chans, only.other j hj]
  · rw [State.returns_draws, only.draws (chanWrites_draws hw)]
  · obtain ⟨v, hv, hxcvr, hfifo, hdrop, hretry, hstate, hothers, hfile⟩ := only.self k hk
    rw [State.returns_chans, hv] at hk'
    cases hk'
    rw [State.returns_xcvrs]
    refine ⟨hxcvr, hfifo, hothers, fun h => hdrop (chanWrites_drop hi h),
      fun h h' => hretry (chanWrites_retry hi h h'), fun h h' => hstate (chanWrites_state hi h h'),
      fun r r' hr hr' => ?_⟩
    obtain ⟨r1, hr1, hstat, hwire⟩ := hfile r hr
    rw [hr1] at hr'
    cases hr'
    exact ⟨hstat, hwire⟩

end Sys2Proof.Machine
end

section
/-! PROOFS. Which result each operation can return (`60_exceptions.md` R302), and that an operation run whole leaves the
setting as it was (`20_memory.md` R60). -/

namespace Sys2Proof.Machine

variable {s t u : State} {x c : Nat} {i : Instr}

/-! ### What a call leaves of the setting -/

theorem OnlyXcvr.sameSetting {p : Config} (h : OnlyXcvr p s t) : s.SameSetting t := .of_block (by rw [h.rest])

theorem XcvrCall.sameSetting (h : XcvrCall x i s t) : s.SameSetting t := by
  obtain ⟨r, v, d, -, rfl, -⟩ := h
  exact .of_block rfl

theorem OnlyChan.sameSetting {w : ChanWrites} (h : OnlyChan w c s t) : s.SameSetting t := .of_block (by rw [h.rest])

theorem callXcvrSend_sameSetting {f : Frame} {st : Status} (h : callXcvrSend x f s = .ok (st, t)) : s.SameSetting t :=
  (XcvrCall.send (f := .given f) h).sameSetting

/-! ### The result that is delivered -/

/-- What an operation answers is what its call returns, delivered to the context that has invoked it. -/
theorem answer_result {α : Type} {q : Reply α} {f : α → OpResult} {p : OpResult → Prop} (h : answer q f = .next t)
    (hq : ∀ a u, q = .ok (a, u) → s.SameSetting u ∧ p (f a)) : ∃ res, (t.ctx s.agent).result = some res ∧ p res := by
  obtain ⟨a, u, hu, rfl⟩ := answer_eq_next h
  obtain ⟨same, ha⟩ := hq a u hu
  exact ⟨f a, State.returns_result _ same.agent, ha⟩

/-- The five configuration operations return `Ok` or `Error` (`43_transceiver.md` R201, R202). -/
theorem Configures.result {op : XcvrOp} {effect : Xcvr → Xcvr} (h : Configures s x i op effect)
    (he : exec i s = .next t) : ∃ res, (t.ctx s.agent).result = some res ∧ (res = .status .ok ∨ res = .status .error) := by
  refine answer_result (h ▸ he) fun st u hu => ?_
  obtain ⟨r, -, ⟨-, rfl, rfl⟩ | ⟨-, -, rfl, rfl⟩ | ⟨-, -, rfl, rfl⟩⟩ := configure_cases hu
  · exact ⟨.of_block rfl, .inr rfl⟩
  · exact ⟨.of_block rfl, .inl rfl⟩
  · exact ⟨.of_block rfl, .inr rfl⟩

theorem callXcvrSend_status {f : Frame} {st : Status} (h : callXcvrSend x f s = .ok (st, t)) :
    st = .ok ∨ st = .error := by
  obtain ⟨r, -, ⟨-, rfl, -⟩ | ⟨-, rfl, -⟩⟩ := callXcvrSend_cases h
  · exact .inr rfl
  · unfold Xcvr.send
    split
    · exact .inr rfl
    · split
      · exact .inr rfl
      · exact .inl rfl

/-- A Frame comes with `Ok` and only with it (`93_implementation_defined.md` U17). -/
theorem callXcvrReceive_result {n : Nat} {p : Status × Option Frame} (h : callXcvrReceive x n s = .ok (p, t)) :
    (∃ f, p = (.ok, some f)) ∨ p = (.empty, none) ∨ p = (.error, none) := by
  obtain ⟨r, -, ⟨-, rfl, -⟩ | ⟨-, q, -, ⟨-, rfl, -⟩ | ⟨-, -, rfl, -⟩ | ⟨-, e, l, -, rfl, -⟩⟩⟩ := callXcvrReceive_cases h
  · exact .inr (.inr rfl)
  · exact .inr (.inr rfl)
  · exact .inr (.inl rfl)
  · exact .inl ⟨_, rfl⟩

theorem callChanReceive_result {p : Status × Option Frame} (h : callChanReceive c s = .ok (p, t)) :
    (∃ f, p = (.ok, some f)) ∨ p = (.empty, none) ∨ p = (.error, none) := by
  unfold callChanReceive at h
  split at h
  · exact nomatch h
  · split at h
    · exact nomatch h
    · cases h; exact .inr (.inr rfl)
    · exact callXcvrReceive_result h

/-- The result of both receive operations. -/
theorem received_cases {p : Status × Option Frame}
    (h : (∃ f, p = (.ok, some f)) ∨ p = (.empty, none) ∨ p = (.error, none)) :
    (∃ f, OpResult.received p.1 p.2 = .received .ok (some f)) ∨ OpResult.received p.1 p.2 = .received .empty none ∨
      OpResult.received p.1 p.2 = .received .error none := by
  obtain ⟨f, rfl⟩ | rfl | rfl := h
  · exact .inl ⟨f, rfl⟩
  · exact .inr (.inl rfl)
  · exact .inr (.inr rfl)

/-- `XCVR.INIT` answers only at a rate with a table entry (`43_transceiver.md` R203). -/
theorem exec_xcvrInit_configures {b : Nat} {e : Bool} (h : exec (.xcvrInit x b e) s = .next t) :
    ∃ pre, Configures s x (.xcvrInit x b e) .init (Xcvr.init s.cfg.params pre b e) := by
  cases hp : s.cfg.params.prescalerOf b with
  | none => simp [exec, execXcvrInit, callXcvrInit, hp] at h
  | some pre => exact ⟨pre, .init hp e⟩

theorem status_ok_or_error {st : Status} (h : st = .ok ∨ st = .error) :
    OpResult.status st = .status .ok ∨ OpResult.status st = .status .error :=
  h.imp (congrArg _) (congrArg _)

/-! ### The Booleans of the container operations, from the state before -/

theorem Ring.push_fst {α : Type} (q : Ring α) (v : α) : (q.push v).1 = q.isFull := by
  cases h : q.isFull with
  | true => rw [Ring.push_of_full h]
  | false => rw [Ring.push_eq_of_not_full h]

theorem Ring.pop_fst {α : Type} (q : Ring α) : q.pop.1 = !q.isEmpty := by
  cases h : q.isEmpty with
  | true => rw [Ring.pop_of_empty h]; rfl
  | false => rw [Ring.pop_of_not_empty h]; rfl

theorem Ring.peek_fst {α : Type} (q : Ring α) : q.peek.1 = !q.isEmpty := by
  cases h : q.isEmpty with
  | true => rw [Ring.peek_of_empty h]; rfl
  | false => rw [Ring.peek_of_not_empty h]; rfl

theorem Lvs.pop_fst {α : Type} (q : Lvs α) : q.pop.1 = !q.stale := by
  cases h : q.stale with
  | true => rw [Lvs.pop_of_stale h]; rfl
  | false => rw [Lvs.pop_of_not_stale h]; rfl

/-! ### The operations -/

/-- Settles O49: operation by operation, from what each can answer. -/
theorem statusTable : Obligations.StatusTable := by
  intro s t i h
  cases i with
  | frameNew id len d ext => cases h; exact ⟨_, State.returns_result _ rfl, _, rfl⟩
  | frameFromRx h0 h1 dl dh => cases h; exact ⟨_, State.returns_result _ rfl, _, rfl⟩
  | frameTxhdr f =>
    obtain ⟨g, -, rfl⟩ := execFrameTxhdr_cases h
    exact ⟨_, State.returns_result _ rfl, _, _, rfl⟩
  | frameHex f buf =>
    obtain ⟨g, -, -, rfl⟩ := execFrameHex_cases h
    exact ⟨_, State.returns_result _ rfl, rfl⟩
  | frameSetts f n =>
    obtain ⟨g, -, -, rfl⟩ := execFrameSetts_cases h
    exact ⟨_, State.returns_result _ rfl, _, rfl⟩
  | lvsPush l v =>
    obtain ⟨q, w, -, -, -, rfl⟩ := execLvsPush_cases h
    exact ⟨_, State.returns_result _ rfl, rfl⟩
  | lvsPop l =>
    obtain ⟨q, hq, -, rfl⟩ := execLvsPop_cases h
    exact ⟨_, State.returns_result _ rfl, q, hq, congrArg _ q.pop_fst⟩
  | lvsRead l =>
    obtain ⟨q, v, -, -, -, rfl⟩ := execLvsRead_cases h
    exact ⟨_, State.returns_result _ rfl, v, rfl⟩
  | ringPush r v =>
    obtain ⟨q, w, hq, -, -, rfl⟩ := execRingPush_cases h
    exact ⟨_, State.returns_result _ rfl, q, hq, congrArg _ (q.push_fst w)⟩
  | ringPop r =>
    obtain ⟨q, hq, -, rfl⟩ := execRingPop_cases h
    exact ⟨_, State.returns_result _ rfl, q, hq, congrArg _ q.pop_fst⟩
  | ringPeek r =>
    obtain ⟨q, hq, -, rfl⟩ := execRingPeek_cases h
    exact ⟨_, State.returns_result _ rfl, q, hq, congrArg _ q.peek_fst⟩
  | ringRead r =>
    obtain ⟨q, v, -, -, -, rfl⟩ := execRingRead_cases h
    exact ⟨_, State.returns_result _ rfl, v, rfl⟩
  | xcvrInit x b e =>
    obtain ⟨pre, hc⟩ := exec_xcvrInit_configures h
    exact hc.result h
  | xcvrStart x => exact (Configures.start s x).result h
  | xcvrStop x => exact (Configures.stop s x).result h
  | xcvrFilterAll x => exact (Configures.filterAll s x).result h
  | xcvrFilterList x ids e => exact (Configures.filterList s x ids e).result h
  | xcvrSend x f =>
    simp only [exec, execXcvrSend] at h
    split at h
    · exact nomatch h
    · exact answer_result h fun st u hu => ⟨callXcvrSend_sameSetting hu, status_ok_or_error (callXcvrSend_status hu)⟩
  | xcvrReceive x n =>
    rw [exec_xcvrReceive] at h
    exact answer_result h fun p u hu =>
      ⟨(OnlyXcvr.callXcvrReceive hu).sameSetting, received_cases (callXcvrReceive_result hu)⟩
  | xcvrTxieOn x =>
    rw [exec_xcvrTxieOn] at h
    exact answer_result h fun _ u hu => ⟨(OnlyXcvr.callXcvrTxie hu).sameSetting, rfl⟩
  | xcvrTxieOff x =>
    rw [exec_xcvrTxieOff] at h
    exact answer_result h fun _ u hu => ⟨(OnlyXcvr.callXcvrTxie hu).sameSetting, rfl⟩
  | chanInit c b e fl =>
    rw [exec_chanInit] at h
    refine answer_result h fun st u hu => ?_
    obtain ⟨only, hst, -⟩ := callChanInit_only hu
    exact ⟨only.sameSetting, status_ok_or_error hst⟩
  | chanStart c =>
    rw [exec_chanStart] at h
    refine answer_result h fun st u hu => ?_
    obtain ⟨only, hst, -⟩ := callChanStart_only hu
    exact ⟨only.sameSetting, status_ok_or_error hst⟩
  | chanSend c f =>
    simp only [exec, execChanSend] at h
    split at h
    · exact nomatch h
    · refine answer_result h fun st u hu => ?_
      obtain ⟨only, -, hst⟩ := callChanSend_only hu
      exact ⟨only.sameSetting, hst.imp (congrArg _) (Or.imp (congrArg _) (And.imp_left (congrArg _)))⟩
  | chanTxDrain c =>
    rw [exec_chanTxDrain] at h
    exact answer_result h fun _ u hu => ⟨(callChanTxDrain_only hu).sameSetting, rfl⟩
  | chanReceive c =>
    rw [exec_chanReceive] at h
    exact answer_result h fun p u hu =>
      ⟨(callChanReceive_only hu).sameSetting, received_cases (callChanReceive_result hu)⟩

end Sys2Proof.Machine
end

section
/-! PROOFS. The interrupt requests as conditions on the register file, and what serving them does (`60_exceptions.md`
R306, R307, R310 to R312). -/

namespace Sys2Proof.Machine

variable {s : State} {rest : List Event} {c n : Nat} {k : Chan} {r : Xcvr} {q : List Element}

/-! ### When a request is asserted, and when a hook may be entered -/

theorem Xcvr.irqTx_iff {p : Config} : r.irqTx p = true ↔ r.ctrl.lifecycle = .running ∧ r.ctrl.txie = true ∧
    match p.txIrqKind with
    | .completionEvent => r.stat.txc = true
    | .slotFreeLevel => ∃ n < p.params.txSlots, r.pending n = false := by
  unfold Xcvr.irqTx
  cases p.txIrqKind with
  | completionEvent => simp only [Bool.and_eq_true, Xcvr.isRunning_iff, and_assoc]
  | slotFreeLevel =>
    have free : (r.freeSlot p.params).isSome = true ↔ ∃ n < p.params.txSlots, r.pending n = false := by
      rw [← Option.ne_none_iff_isSome, Ne, Xcvr.freeSlot_eq_none]
      simp
    simp only [Bool.and_eq_true, Xcvr.isRunning_iff, and_assoc, free]

theorem Xcvr.irqRx_iff (hq : r.rxfifo[n]? = some q) :
    r.irqRx n = true ↔ r.ctrl.lifecycle = .running ∧ r.ctrl.rxie = true ∧ q ≠ [] := by
  simp [Xcvr.irqRx, hq, Xcvr.isRunning_iff, and_assoc]

theorem State.canEnterHook_iff :
    s.canEnterHook = true ↔ s.hook = none ∧ s.isr.task = none ∧ s.masked = false := by
  simp [State.canEnterHook, and_assoc]

/-- Serving the transmit-complete request acknowledges it under `CompletionEvent` only (`60_exceptions.md` R311). -/
theorem Xcvr.acknowledgeTx_eq (p : Config) : r.acknowledgeTx p =
    { r with stat := { r.stat with
        txc := match p.txIrqKind with
          | .completionEvent => false
          | .slotFreeLevel => r.stat.txc } } := by
  unfold Xcvr.acknowledgeTx
  cases p.txIrqKind <;> rfl

/-! ### Serving a request -/

theorem runIrqTx_of_xcvr (hk : s.chans[c]? = some k) (hr : s.xcvrs[k.xcvr]? = some r) :
    runIrqTx c s = if r.irqTx s.cfg && s.canEnterHook then
      (s.setXcvr k.xcvr (r.acknowledgeTx s.cfg)).enterHook (.tx c) (.drainGate c) else s := by
  simp only [runIrqTx, hk, hr]

theorem runIrqRx_of_xcvr (hk : s.chans[c]? = some k) (hr : s.xcvrs[k.xcvr]? = some r) :
    runIrqRx c n s = if r.irqRx n && s.canEnterHook then s.enterHook (.rx c) (.recvGate c) else s := by
  simp only [runIrqRx, hk, hr]

/-- Settles O53: the request and the hook's condition decide whether it is served. -/
theorem txHookEntry : Obligations.TxHookEntry := by
  intro s rest c k r hw hs hk hr u asserted free
  have served : (r.irqTx u.cfg && u.canEnterHook) = true ↔ asserted ∧ free :=
    Bool.and_eq_true_iff.trans (and_congr Xcvr.irqTx_iff State.canEnterHook_iff)
  have step_eq : step s = .next (runIrqTx c u) := step_of_cons hw hs
  rw [step_eq, runIrqTx_of_xcvr (s := u) hk hr]
  refine ⟨fun h => ?_, fun ha hf => ?_⟩
  · rw [if_neg (served.not.2 h)]
  · rw [if_pos (served.2 ⟨ha, hf⟩), Xcvr.acknowledgeTx_eq]
    rfl

end Sys2Proof.Machine
end

section
/-! PROOFS. What an operation leaves of the setting, whole and step by step (`20_memory.md` R60, R68, R71): all but its
own context's result. -/

namespace Sys2Proof.Machine

variable {s t u : State} {c n : Nat}

theorem State.SameSetting.refl (s : State) : s.SameSetting s := ⟨rfl, rfl, rfl, rfl, rfl, rfl, rfl, fun _ _ => rfl⟩

theorem State.SameSetting.trans (h : s.SameSetting t) (g : t.SameSetting u) : s.SameSetting u where
  cfg := g.cfg.trans h.cfg
  schedule := g.schedule.trans h.schedule
  agent := g.agent.trans h.agent
  hook := g.hook.trans h.hook
  masked := g.masked.trans h.masked
  saved := g.saved.trans h.saved
  task := by rw [← h.task, ← h.agent, g.task]
  other := fun d hd => by rw [g.other d (h.agent ▸ hd), h.other d hd]

/-- Every operation whole, by the unit it belongs to. -/
theorem exec_sameSetting {i : Instr} (h : exec i s = .next t) : s.SameSetting t := by
  cases i with
  | frameNew | frameFromRx | frameTxhdr | frameHex | frameSetts =>
    exact (frameOperationsFrame s t _ (by simp [encode]) h).1
  | lvsPush l | lvsPop l | lvsRead l => exact (lvsOperationsFrame s t l _ (by simp) h).1
  | ringPush r | ringPop r | ringPeek r | ringRead r => exact (ringOperationsFrame s t r _ (by simp) h).1
  | xcvrInit x | xcvrStart x | xcvrStop x | xcvrFilterAll x | xcvrFilterList x | xcvrSend x | xcvrReceive x
  | xcvrTxieOn x | xcvrTxieOff x => exact (transceiverOperationsFrame s t x _ (by simp) h).1
  | chanInit c | chanStart c | chanSend c | chanTxDrain c | chanReceive c =>
    exact (channelOperationsFrame s t c _ (by simp) h).1

/-- From `s` on, some steps of an operation of `s.agent` leave the setting, and its end leaves a result. -/
def State.KeepsSetting (s : State) : TaskOutcome → Prop
  | .more _ t => s.SameSetting t
  | .done t => s.SameSetting t ∧ (t.ctx s.agent).result ≠ none
  | .refused _ => True

theorem State.KeepsSetting.trans {o : TaskOutcome} (h : s.SameSetting t) (ho : t.KeepsSetting o) :
    s.KeepsSetting o := by
  cases o with
  | more _ u => exact State.SameSetting.trans h ho
  | done u => exact ⟨h.trans ho.1, h.agent ▸ ho.2⟩
  | refused _ => trivial

/-! ### The parts of a step -/

theorem endWith_keepsSetting (h : s.SameSetting t) (r : OpResult) : s.KeepsSetting (endWith t r) :=
  ⟨h.returns r, by rw [State.returns_result r h.agent]; exact Option.some_ne_none r⟩

theorem withChan_keepsSetting {k : Chan → TaskOutcome} (hk : ∀ ch, s.KeepsSetting (k ch)) :
    s.KeepsSetting (withChan c s k) := by
  unfold withChan
  split
  · exact hk _
  · trivial

theorem testLine_keepsSetting {α : Type} {e : Option α} {r : Refusal} {k : α → TaskOutcome}
    (hk : ∀ v, s.KeepsSetting (k v)) : s.KeepsSetting (testLine e r k) := by
  cases e with
  | some v => exact hk v
  | none => trivial

theorem gateStep_keepsSetting {op : ChanOp} {failed : OpResult} {ch : Chan} {k : TaskOutcome} (hk : s.KeepsSetting k) :
    s.KeepsSetting (gateStep op failed s ch k) := by
  unfold gateStep
  split
  · trivial
  · exact endWith_keepsSetting (.refl s) failed
  · exact hk

theorem callStep_keepsSetting {α : Type} {r : Reply α} {k : α → State → TaskOutcome}
    (hk : ∀ a t, r = .ok (a, t) → s.KeepsSetting (k a t)) : s.KeepsSetting (callStep r k) := by
  match r with
  | .ok (a, t) => exact hk a t rfl
  | .error _ => trivial

theorem retryStep_keepsSetting {q : RingTask Frame} {more : RingTask Frame → Task} {done : Bool → State → TaskOutcome}
    (hd : ∀ b t, s.SameSetting t → s.KeepsSetting (done b t)) : s.KeepsSetting (retryStep c q s more done) := by
  refine withChan_keepsSetting fun ch => ?_
  have hs : s.SameSetting (s.setChan c { ch with retry := (q.step ch.retry).1 }) := .of_block rfl
  simp only
  split
  · exact hs
  · exact hd _ _ hs

/-! ### A step, and any number of steps -/

theorem Task.step_keepsSetting (q : Task) (s : State) : s.KeepsSetting (q.step s) := by
  have same := State.SameSetting.refl s
  cases q with
  | whole i =>
    simp only [Task.step]
    split
    · rename_i t ht
      obtain ⟨res, hres, -⟩ := statusTable s t i ht
      exact ⟨exec_sameSetting ht, by rw [hres]; exact Option.some_ne_none res⟩
    · trivial
    · rename_i f _; exact nomatch f
  | hex a l =>
    match l with
    | [] => exact endWith_keepsSetting same _
    | [b] => exact endWith_keepsSetting (.of_block rfl) _
    | b :: _ :: _ => exact .of_block rfl
  | lvsTest l | ringTest l =>
    simp only [Task.step]
    split
    · trivial
    · exact testLine_keepsSetting fun _ => same
  | lvsTake l | ringTake l =>
    simp only [Task.step]
    split
    · trivial
    · exact testLine_keepsSetting fun _ => endWith_keepsSetting same _
  | lvs l t | ring l t =>
    simp only [Task.step]
    split
    · trivial
    · split
      · exact .of_block rfl
      · exact endWith_keepsSetting (.of_block rfl) _
  | initGate | startGate | recvGate => exact withChan_keepsSetting fun _ => gateStep_keepsSetting same
  | sendGate | drainGate =>
    refine withChan_keepsSetting fun _ => gateStep_keepsSetting ?_
    split
    · exact same
    · trivial
  | initXcvr n baud ext f =>
    exact withChan_keepsSetting fun _ => callStep_keepsSetting fun _ _ h => (OnlyXcvr.callXcvrInit h).sameSetting
  | initFilter n f =>
    exact withChan_keepsSetting fun _ => callStep_keepsSetting fun _ _ h => (OnlyXcvr.callFilter h).sameSetting
  | startXcvr n =>
    exact withChan_keepsSetting fun _ => callStep_keepsSetting fun _ _ h => (OnlyXcvr.callXcvrStart h).sameSetting
  | setChState | sendDrop => exact withChan_keepsSetting fun _ => endWith_keepsSetting (.of_block rfl) _
  | sendXcvr n f =>
    refine withChan_keepsSetting fun _ => callStep_keepsSetting fun _ _ h => ?_
    split
    · exact endWith_keepsSetting (callXcvrSend_sameSetting h) _
    · exact callXcvrSend_sameSetting h
  | sendTxie n full =>
    refine withChan_keepsSetting fun _ => callStep_keepsSetting fun _ _ h => ?_
    split
    · exact (OnlyXcvr.callXcvrTxie h).sameSetting
    · exact endWith_keepsSetting (OnlyXcvr.callXcvrTxie h).sameSetting _
  | sendPush | drainPeek | drainPop => exact retryStep_keepsSetting fun _ _ h => h
  | drainRead | drainTake => exact withChan_keepsSetting fun _ => testLine_keepsSetting fun _ => same
  | drainXcvr n f =>
    exact withChan_keepsSetting fun _ => callStep_keepsSetting fun _ _ h => callXcvrSend_sameSetting h
  | drainTest n =>
    refine withChan_keepsSetting fun _ => ?_
    split
    · exact same
    · exact endWith_keepsSetting same _
  | drainTxie n =>
    exact withChan_keepsSetting fun _ => callStep_keepsSetting fun _ _ h =>
      endWith_keepsSetting (OnlyXcvr.callXcvrTxie h).sameSetting _
  | recvXcvr n =>
    exact withChan_keepsSetting fun _ => callStep_keepsSetting fun _ _ h =>
      endWith_keepsSetting (OnlyXcvr.callXcvrReceive h).sameSetting _

theorem Task.run_keepsSetting (m : Nat) (q : Task) (s : State) : s.KeepsSetting (q.run m s) := by
  induction m generalizing q s with
  | zero => exact State.SameSetting.refl s
  | succ m ih =>
    have h := q.step_keepsSetting s
    rw [Task.run_succ]
    cases hq : q.step s with
    | more q' t => rw [hq] at h; exact .trans h (ih q' t)
    | done t => rw [hq] at h; exact h
    | refused r => trivial

end Sys2Proof.Machine
end

section
/-! PROOFS. The receive request, and how both hooks end: with the operation that they call, or with `app_dispatch`
(`60_exceptions.md` R310 to R314; log entries 14 to 18, 35). -/

namespace Sys2Proof.Machine

variable {s t : State} {c m : Nat} {f : Frame}

/-! ### How a hook goes on (`60_exceptions.md` R311, R312) -/

theorem State.continueHook_of_tx (h : s.hook = some (.tx c)) : s.continueHook.hook = none := by
  simp only [State.continueHook, h, State.leaveHook_hook]

theorem State.continueHook_of_rx_ok (h : s.hook = some (.rx c)) (hr : s.isr.result = some (.received .ok (some f))) :
    s.continueHook.hook = some (.dispatch c f) := by
  simp only [State.continueHook, h, hr]

theorem State.continueHook_of_rx_not_ok (h : s.hook = some (.rx c))
    (hr : ∀ f, s.isr.result ≠ some (.received .ok (some f))) : s.continueHook.hook = none := by
  unfold State.continueHook
  split
  · rfl
  · split
    · rename_i f hf; exact absurd hf (hr f)
    · rfl
  · rename_i _ hn; exact absurd h (hn c)

/-- `app_dispatch` does not end with an operation, and outside the hooks there is none to end. -/
theorem State.continueHook_of_no_call (h : ∀ c, s.hook ≠ some (.tx c) ∧ s.hook ≠ some (.rx c)) :
    s.continueHook.hook = s.hook := by
  unfold State.continueHook
  split
  · rename_i c hc; exact absurd hc (h c).1
  · rename_i c hc; exact absurd hc (h c).2
  · rfl

/-! ### Steps of the ISR context's operation -/

/-- What some steps of the ISR context's operation leave: part-way with the hook as it was, or at the end with a
result and the hook continued. -/
theorem settle_isr_cases {o : TaskOutcome} (ho : s.KeepsSetting o) (ha : s.agent = .isr)
    (h : settle .isr o = .next t) : t.main = s.main ∧
      ((∃ w u, o = .more w u ∧ t.isr.task = some w ∧ t.hook = s.hook) ∨
       ∃ u : State, u.hook = s.hook ∧ u.isr.task = none ∧ u.isr.result ≠ none ∧ t = u.continueHook) := by
  have main_of : ∀ u, s.SameSetting u → u.main = s.main := fun u hu => hu.other .main (by rw [ha]; exact nofun)
  cases o with
  | more w u =>
    cases h
    exact ⟨main_of u ho, .inl ⟨w, u, rfl, rfl, ho.hook⟩⟩
  | done u =>
    cases h
    obtain ⟨same, res⟩ := ho
    rw [ha] at res
    exact ⟨(State.continueHook_main _).trans (main_of u same), .inr ⟨u.setTask .isr none, same.hook, rfl, res, rfl⟩⟩
  | refused r => exact nomatch h

/-- A run of as many steps as the operation ends within leaves nothing of it. -/
theorem TaskOutcome.Ends.run_ne_more {k : Nat} {q w : Task} {u : State} {e : Host.Outcome State Fault Refusal}
    (h : (TaskOutcome.more q s).Ends k e) (hk : k ≤ m) : q.run m s ≠ .more w u := by
  have hq : q.run m s = (TaskOutcome.more q s).run m := rfl
  obtain ⟨hnext, hrefused⟩ := h.run hk
  rw [hq]
  cases e with
  | next t => rw [hnext t rfl]; exact nofun
  | refused r => rw [hrefused r rfl]; exact nofun
  | fault x => exact nomatch x

theorem runTask_isr {w : Task} (h : s.isr.task = some w) :
    runTask m .isr s = settle .isr (w.run m (s.setAgent .isr)) := by
  simp only [runTask, State.ctx_isr, h, State.mayAdvance, if_true]

/-- An input that moves the ISR context's operation runs it for one step or for `Task.bound`. -/
theorem step_isr {rest : List Event} {w : Task} (hw : s.cfg.wf = true)
    (hs : s.schedule = .advance .isr :: rest ∨ s.schedule = .finish .isr :: rest) (hi : s.isr.task = some w) :
    ∃ m, step s = settle .isr (w.run m (({ s with schedule := rest } : State).setAgent .isr)) ∧
      (s.schedule = .finish .isr :: rest → m = Task.bound) := by
  obtain hs | hs := hs
  · exact ⟨1, (step_of_cons hw hs).trans (runTask_isr (s := { s with schedule := rest }) hi),
      fun h => by rw [hs] at h; exact nomatch h⟩
  · exact ⟨Task.bound, (step_of_cons hw hs).trans (runTask_isr (s := { s with schedule := rest }) hi), fun _ => rfl⟩

/-! ### The end of `app_dispatch` -/

theorem runHookReturn_of_ended (hi : s.isr.task = none) (hh : s.hook = some (.dispatch c f)) :
    runHookReturn s = s.leaveHook := by
  simp only [runHookReturn, hh, hi, Option.isNone_none, if_true]

theorem runHookReturn_of_not_ended (h : ¬(s.isr.task = none ∧ ∃ c f, s.hook = some (.dispatch c f))) :
    runHookReturn s = s := by
  unfold runHookReturn
  split
  · rename_i c f hh
    exact if_neg fun hi => h ⟨Option.isNone_iff_eq_none.1 hi, c, f, hh⟩
  · rfl

/-- Settles O54: the entry as for the TX hook; the steps of the ISR context's operation leave the setting, so that the
hook of its end is the one continued; `app_dispatch` ends by its own input. -/
theorem rxHookEntryAndHookEnds : Obligations.RxHookEntryAndHookEnds := by
  refine ⟨?_, ?_, ?_⟩
  · intro s rest c n k r q hw hs hk hr hq u asserted free
    have served : (r.irqRx n && u.canEnterHook) = true ↔ asserted ∧ free :=
      Bool.and_eq_true_iff.trans (and_congr (Xcvr.irqRx_iff hq) State.canEnterHook_iff)
    have step_eq : step s = .next (runIrqRx c n u) := step_of_cons hw hs
    rw [step_eq, runIrqRx_of_xcvr (s := u) hk hr]
    refine ⟨fun h => ?_, fun ha hf => ?_⟩
    · rw [if_neg (served.not.2 h)]
    · rw [if_pos (served.2 ⟨ha, hf⟩)]
      rfl
  · intro s t rest w hw hs hi h
    obtain ⟨m, step_eq, finish⟩ := step_isr hw hs hi
    rw [step_eq] at h
    obtain ⟨hmain, ⟨w', u, hmore, htask, hhook⟩ | ⟨u, hhook, hend, hres, rfl⟩⟩ :=
      settle_isr_cases (Task.run_keepsSetting m w _) rfl h
    · refine ⟨hmain, ?_, fun _ => hhook, fun hn => nomatch htask.symm.trans hn⟩
      rintro ⟨c, hfin, rfl⟩
      rw [finish hfin] at hmore
      exact absurd hmore (callChanReceive_ends.run_ne_more (by decide))
    · rw [State.continueHook_isr]
      refine ⟨hmain, fun _ => hend, fun hn => absurd hend hn, fun _ =>
        ⟨hres, fun c hc => ?_, fun c hc => ?_, fun hc => ?_⟩⟩
      · exact State.continueHook_of_tx (hhook.trans hc)
      · exact ⟨fun f hf => State.continueHook_of_rx_ok (hhook.trans hc) hf,
          State.continueHook_of_rx_not_ok (hhook.trans hc)⟩
      · exact (State.continueHook_of_no_call fun c => (hhook ▸ hc c)).trans hhook
  · intro s rest hw hs u ended
    have step_eq : step s = .next (runHookReturn u) := step_of_cons hw hs
    rw [step_eq]
    refine ⟨fun ⟨hi, c, f, hh⟩ => ?_, fun h => ?_⟩
    · rw [runHookReturn_of_ended (s := u) hi hh]; rfl
    · rw [runHookReturn_of_not_ended (s := u) h]

end Sys2Proof.Machine
end
